-- ==== Sys2Proof/Word.lean ====
section
/-! DEFINITION. The word types of the block: a byte, the 32-bit registers and command words, the 64-bit
operand and result registers (spec 00_scope.md R7 to R9). -/

namespace Sys2Proof

/-- A byte of a buffer or of a wire frame (R9). -/
abbrev Byte := BitVec 8

/-- CMD, LEN, OLEN, PEND and every 32-bit bus word (R7). -/
abbrev Word := BitVec 32

/-- The operand registers A0 to A3 and RES (R7). -/
abbrev DWord := BitVec 64

end Sys2Proof
end

