-- ==== Sys2Proof/Machine/Bytes.lean ====
section
/-! DEFINITION. Byte sequences and byte order: the notation of 00_scope.md R9 and the functions of
41_byte_order.md R110, R117 and R119. -/

namespace Sys2Proof.Machine

/-- `be16(v)`: high byte first (R9). -/
def be16 (v : BitVec 16) : List Byte :=
  [v.extractLsb' 8 8, v.extractLsb' 0 8]

/-- `le16(v)`: low byte first (R9). -/
def le16 (v : BitVec 16) : List Byte :=
  [v.extractLsb' 0 8, v.extractLsb' 8 8]

/-- Byte i of a value, byte 0 the least significant. -/
def byteOf {n : Nat} (v : BitVec n) (i : Nat) : Byte :=
  v.extractLsb' (8 * i) 8

/-- A 32-bit word of four bytes, the first in bits 7:0 (20_memory.md R55). -/
def wordOfBytes (b0 b1 b2 b3 : Byte) : Word :=
  b3 ++ b2 ++ b1 ++ b0

/-- `swap_2` (R110). -/
def swap2 (v : BitVec 16) : BitVec 16 :=
  byteOf v 0 ++ byteOf v 1

/-- `swap_4` (R110). -/
def swap4 (v : BitVec 32) : BitVec 32 :=
  byteOf v 0 ++ byteOf v 1 ++ byteOf v 2 ++ byteOf v 3

/-- `swap_8` (R110). -/
def swap8 (v : BitVec 64) : BitVec 64 :=
  byteOf v 0 ++ byteOf v 1 ++ byteOf v 2 ++ byteOf v 3 ++ byteOf v 4 ++ byteOf v 5 ++ byteOf v 6 ++ byteOf v 7

/-- `wpswap`: the two halves change places, the bytes inside each stay (R117; 90_conflicts.md C1). -/
def wpswap (v : BitVec 32) : BitVec 32 :=
  v.extractLsb' 0 16 ++ v.extractLsb' 16 16

/-- The first k elements of w bytes, each reversed, in order. -/
def reverseElements (w : Nat) : Nat → List Byte → List Byte
  | 0, _ => []
  | k + 1, s => (s.take w).reverse ++ reverseElements w k (s.drop w)

/-- `eswap(s, w, c)` for a length that is a multiple of w (R119). -/
def eswap (s : List Byte) (w : Nat) (c : Bool) : List Byte :=
  if c then reverseElements w (s.length / w) s else s

end Sys2Proof.Machine
end

