-- ==== Sys2Proof/Config.lean ====
section
/-! DEFINITION. The implementation parameters of spec 00_scope.md R7, their legal ranges, their defaults,
and the one free value of the model. -/

namespace Sys2Proof

/-- The thirteen function codes the block recognises, by name (30_encoding.md R82). -/
inductive FcName
  | rc | rdi | rhr | rir | wsc | wsr | wmc | wmr | rfr | wfr | mwr | rwmr | rfq
  deriving DecidableEq, Repr

/-- The table FCODE: the byte value of each function code name (R82, a parameter by R7). -/
structure FcTable where
  rc : Byte
  rdi : Byte
  rhr : Byte
  rir : Byte
  wsc : Byte
  wsr : Byte
  wmc : Byte
  wmr : Byte
  rfr : Byte
  wfr : Byte
  mwr : Byte
  rwmr : Byte
  rfq : Byte
  deriving DecidableEq, Repr

/-- The thirteen bytes of a function-code table, in the order of R82. -/
def FcTable.bytes (t : FcTable) : List Byte :=
  [t.rc, t.rdi, t.rhr, t.rir, t.wsc, t.wsr, t.wmc, t.wmr, t.rfr, t.wfr, t.mwr, t.rwmr, t.rfq]

/-- The table XCODE: the byte value of each exception name (45_response_parser.md R200, a parameter by R7). -/
structure XcTable where
  illegalFunction : Byte
  illegalDataAddress : Byte
  illegalDataValue : Byte
  deviceFailure : Byte
  acknowledge : Byte
  deviceBusy : Byte
  memoryParityError : Byte
  gatewayPathUnavailable : Byte
  gatewayTargetFailed : Byte
  deriving DecidableEq, Repr

/-- The nine bytes of an exception-code table, in the order of R200. -/
def XcTable.bytes (x : XcTable) : List Byte :=
  [x.illegalFunction, x.illegalDataAddress, x.illegalDataValue, x.deviceFailure, x.acknowledge,
   x.deviceBusy, x.memoryParityError, x.gatewayPathUnavailable, x.gatewayTargetFailed]

/-- The parameters of the block (00_scope.md R7). Log entry 1: they stand in State, and no step changes them. -/
structure Params where
  /-- Bus address of offset 0 of the window. -/
  base : Nat
  ibufBytes : Nat
  obufBytes : Nat
  wildcardUid : Byte
  qmaxReadBits : Fin 65536
  qmaxReadRegs : Fin 65536
  qmaxWriteRegs : Fin 65536
  qmaxRwRead : Fin 65536
  qmaxRwWrite : Fin 65536
  fcode : FcTable
  xcode : XcTable
  deriving DecidableEq, Repr

/-- Every recognised byte is below 0x80 and no two names share a byte (R82). -/
def FcTable.legal (t : FcTable) : Bool :=
  decide t.bytes.Nodup && t.bytes.all (fun b => decide (b.toNat < 0x80))

/-- The mapping from code to category is one to one (R200), and no base message id is one of the ids that
R201 and R202 set apart (log entry 17). -/
def XcTable.legal (x : XcTable) : Bool :=
  decide x.bytes.Nodup && x.bytes.all (fun b => !([0x31, 0x32, 0x33, 0xFF] : List Byte).contains b)

/-- The ranges of R7; a quantity maximum is in range by its type. -/
def Params.legal (p : Params) : Bool :=
  decide (1 ≤ p.ibufBytes) && decide (p.ibufBytes ≤ 4096) &&
  (decide (1 ≤ p.obufBytes) && decide (p.obufBytes ≤ 4096)) && (p.fcode.legal && p.xcode.legal)

/-- The default function-code bytes (R82; PRESUMED by the spec itself: general knowledge, GK1). -/
def FcTable.default : FcTable where
  rc := 0x01
  rdi := 0x02
  rhr := 0x03
  rir := 0x04
  wsc := 0x05
  wsr := 0x06
  wmc := 0x0F
  wmr := 0x10
  rfr := 0x14
  wfr := 0x15
  mwr := 0x16
  rwmr := 0x17
  rfq := 0x18

/-- The default exception-code bytes (R200; PRESUMED by the spec itself: general knowledge, GK2). -/
def XcTable.default : XcTable where
  illegalFunction := 0x01
  illegalDataAddress := 0x02
  illegalDataValue := 0x03
  deviceFailure := 0x04
  acknowledge := 0x05
  deviceBusy := 0x06
  memoryParityError := 0x08
  gatewayPathUnavailable := 0x0A
  gatewayTargetFailed := 0x0B

/-- The defaults of R7. BASE is open there; DESIGN CHOICE 0 (log entry 2). -/
def Params.default : Params where
  base := 0
  ibufBytes := 512
  obufBytes := 512
  wildcardUid := 0xFF
  qmaxReadBits := 65535
  qmaxReadRegs := 65535
  qmaxWriteRegs := 65535
  qmaxRwRead := 65535
  qmaxRwWrite := 65535
  fcode := FcTable.default
  xcode := XcTable.default

/-- The free value: what a host read returns where 10_state.md R24, R35 and R36 say "any value". It has no
body, so no proof can see a value of it; the argument is the counter State.draws (log entry 6). -/
opaque Config.freeWord : Nat → Word

end Sys2Proof
end

