-- ==== Sys2Proof/Syntax.lean ====
section
/-! DEFINITION. The commands: one constructor for each row of spec/opcode_table.json (30_encoding.md R81, R87,
R89). Fields a command does not use have no argument here. -/

namespace Sys2Proof

/-- The swap condition field COND (30_encoding.md R85). Its fourth value, 3, is no command. -/
inductive Cond
  | always
  | host
  | swap
  deriving DecidableEq, Repr

/-- A command. `w` is the width code W (width 2^W, R84); `wrap`, `serial` and `dst` are bits 24, 25 and 26 (R86). -/
inductive Instr
  | crc16
  | swap8 (cond : Cond)
  | swap16 (cond : Cond)
  | swap32 (cond : Cond)
  | swap64 (cond : Cond)
  /-- SWAP with W in 4..7 (R116); WellFormed holds the range. -/
  | swapWide (w : BitVec 3) (cond : Cond)
  | wpswap (w : BitVec 3)
  | swapbuf (w : BitVec 3) (cond : Cond) (dst : Bool)
  | encodeRC (wrap : Bool)
  | encodeRDI (wrap : Bool)
  | encodeRHR (wrap : Bool)
  | encodeRIR (wrap : Bool)
  | encodeWSC (wrap : Bool)
  | encodeWSR (wrap : Bool)
  | encodeWMC (wrap : Bool)
  | encodeWMR (w : BitVec 3) (cond : Cond) (wrap : Bool)
  | encodeRFR (wrap : Bool)
  | encodeWFR (wrap : Bool)
  | encodeMWR (wrap : Bool)
  | encodeRWMR (w : BitVec 3) (cond : Cond) (wrap : Bool)
  | encodeRFQ (wrap : Bool)
  | validate
  | qsize (w : BitVec 3)
  /-- XLATE; `fc` is any byte (R83). -/
  | xlate (fc : Byte)
  | parseRC (w : BitVec 3) (cond : Cond) (serial : Bool)
  | parseRDI (w : BitVec 3) (cond : Cond) (serial : Bool)
  | parseRHR (w : BitVec 3) (cond : Cond) (serial : Bool)
  | parseRIR (w : BitVec 3) (cond : Cond) (serial : Bool)
  | parseWSC (serial : Bool)
  | parseWSR (serial : Bool)
  | parseWMC (serial : Bool)
  | parseWMR (serial : Bool)
  | parseRFR (serial : Bool)
  | parseWFR (serial : Bool)
  | parseMWR (serial : Bool)
  | parseRWMR (w : BitVec 3) (cond : Cond) (serial : Bool)
  | parseRFQ (serial : Bool)
  deriving DecidableEq, Repr

end Sys2Proof
end

