-- ==== Sys2Proof/WellFormed.lean ====
section
/-! DEFINITION. Which terms of Instr are commands the block can be given. The types of Syntax leave one range
to check: the width code of SWAP.W4-7 (41_byte_order.md R116). -/

namespace Sys2Proof

/-- The term is a row of the opcode table: SWAP.W4-7 has W in 4..7; every other constructor's arguments are
in range by their types. -/
def Instr.wf : Instr → Bool
  | .swapWide w _ => decide (4 ≤ w.toNat)
  | .crc16 => true
  | .swap8 _ => true
  | .swap16 _ => true
  | .swap32 _ => true
  | .swap64 _ => true
  | .wpswap _ => true
  | .swapbuf _ _ _ => true
  | .encodeRC _ => true
  | .encodeRDI _ => true
  | .encodeRHR _ => true
  | .encodeRIR _ => true
  | .encodeWSC _ => true
  | .encodeWSR _ => true
  | .encodeWMC _ => true
  | .encodeWMR _ _ _ => true
  | .encodeRFR _ => true
  | .encodeWFR _ => true
  | .encodeMWR _ => true
  | .encodeRWMR _ _ _ => true
  | .encodeRFQ _ => true
  | .validate => true
  | .qsize _ => true
  | .xlate _ => true
  | .parseRC _ _ _ => true
  | .parseRDI _ _ _ => true
  | .parseRHR _ _ _ => true
  | .parseRIR _ _ _ => true
  | .parseWSC _ => true
  | .parseWSR _ => true
  | .parseWMC _ => true
  | .parseWMR _ => true
  | .parseRFR _ => true
  | .parseWFR _ => true
  | .parseMWR _ => true
  | .parseRWMR _ _ _ => true
  | .parseRFQ _ => true

end Sys2Proof
end

