-- ==== Sys2Proof/Decode.lean ====
section
/-! DEFINITION. The command word (30_encoding.md R80 to R92): its fields, the decoder, which is total and
refuses by name (R88, R89), the encoder (R80), and the rows of spec/opcode_table.json as data (R89). -/

namespace Sys2Proof

/-! ## The fields of a command word -/

/-- The fields of R80, the three reserved ones included. -/
structure Fields where
  op : Byte
  fc : Byte
  w : BitVec 3
  r19 : BitVec 1
  cond : BitVec 2
  r22 : BitVec 2
  wrap : Bool
  serial : Bool
  dst : Bool
  r27 : BitVec 5
  deriving DecidableEq, Repr

/-- The fields of a word, by the bit positions of R80. -/
def fieldsOf (v : Word) : Fields where
  op := v.extractLsb' 0 8
  fc := v.extractLsb' 8 8
  w := v.extractLsb' 16 3
  r19 := v.extractLsb' 19 1
  cond := v.extractLsb' 20 2
  r22 := v.extractLsb' 22 2
  wrap := v.getLsbD 24
  serial := v.getLsbD 25
  dst := v.getLsbD 26
  r27 := v.extractLsb' 27 5

/-- A bit at position k of a word. -/
def flagBit (b : Bool) (k : Nat) : Word := (BitVec.ofBool b).setWidth 32 <<< k

/-- `OP | FC << 8 | W << 16 | COND << 20 | WRAP << 24 | SERIAL << 25 | DST << 26` (R80). -/
def packWord (op fc : Byte) (w : BitVec 3) (cond : BitVec 2) (wrap serial dst : Bool) : Word :=
  op.setWidth 32 ||| fc.setWidth 32 <<< 8 ||| w.setWidth 32 <<< 16 ||| cond.setWidth 32 <<< 20 |||
    flagBit wrap 24 ||| flagBit serial 25 ||| flagBit dst 26

/-! ## Function codes -/

/-- The thirteen names, in the order of R82. -/
def FcName.all : List FcName :=
  [.rc, .rdi, .rhr, .rir, .wsc, .wsr, .wmc, .wmr, .rfr, .wfr, .mwr, .rwmr, .rfq]

/-- The byte a table gives a name (R82). -/
def FcTable.byte (t : FcTable) : FcName → Byte
  | .rc => t.rc
  | .rdi => t.rdi
  | .rhr => t.rhr
  | .rir => t.rir
  | .wsc => t.wsc
  | .wsr => t.wsr
  | .wmc => t.wmc
  | .wmr => t.wmr
  | .rfr => t.rfr
  | .wfr => t.wfr
  | .mwr => t.mwr
  | .rwmr => t.rwmr
  | .rfq => t.rfq

/-- The name of a recognised byte; none where the byte is not recognised (R82). -/
def FcTable.name? (t : FcTable) (b : Byte) : Option FcName :=
  FcName.all.find? (fun n => t.byte n == b)

/-! ## The decoder -/

/-- Why a word is no command, in the order of R88 (60_exceptions.md R247). -/
inductive DecodeError
  | unknownOp
  | unknownFc
  | reservedField
  | badCond
  deriving DecidableEq, Repr

/-- The operation a word selects: OP, with the function code name where OP needs one (R81, R83). -/
inductive Selected
  | crc16
  | swap
  | wpswap
  | swapbuf
  | encode (n : FcName)
  | validate
  | qsize
  | xlate
  | parse (n : FcName)
  deriving DecidableEq, Repr

/-- The first two checks of R88: OP is allocated (R81), and ENCODE and PARSE name a recognised FC. -/
def select (t : FcTable) (op fc : Byte) : Except DecodeError Selected :=
  match op.toNat with
  | 0x01 => .ok .crc16
  | 0x02 => .ok .swap
  | 0x03 => .ok .wpswap
  | 0x04 => .ok .swapbuf
  | 0x05 => match t.name? fc with
    | some n => .ok (.encode n)
    | none => .error .unknownFc
  | 0x06 => .ok .validate
  | 0x07 => .ok .qsize
  | 0x08 => .ok .xlate
  | 0x09 => match t.name? fc with
    | some n => .ok (.parse n)
    | none => .error .unknownFc
  | _ => .error .unknownOp

/-- Which fields a command uses (R87). -/
structure Usage where
  fc : Bool := false
  w : Bool := false
  cond : Bool := false
  wrap : Bool := false
  serial : Bool := false
  dst : Bool := false
  deriving DecidableEq, Repr

/-- ENCODE of these names carries write data, so W and COND are used (R87). -/
def FcName.carriesWriteData : FcName → Bool
  | .wmr | .rwmr => true
  | .rc | .rdi | .rhr | .rir | .wsc | .wsr | .wmc | .rfr | .wfr | .mwr | .rfq => false

/-- PARSE of these names extracts data, so W and COND are used (R87). -/
def FcName.returnsData : FcName → Bool
  | .rc | .rdi | .rhr | .rir | .rwmr => true
  | .wsc | .wsr | .wmc | .wmr | .rfr | .wfr | .mwr | .rfq => false

/-- The table of R87. -/
def Selected.usage : Selected → Usage
  | .crc16 => {}
  | .swap => { w := true, cond := true }
  | .wpswap => { w := true }
  | .swapbuf => { w := true, cond := true, dst := true }
  | .encode n => { fc := true, w := n.carriesWriteData, cond := n.carriesWriteData, wrap := true }
  | .validate => {}
  | .qsize => { w := true }
  | .xlate => { fc := true }
  | .parse n => { fc := true, w := n.returnsData, cond := n.returnsData, serial := true }

/-- The third check of R88: the reserved bits and every field not used are 0. -/
def Fields.unusedAreZero (f : Fields) (u : Usage) : Bool :=
  f.r19 == 0 && f.r22 == 0 && f.r27 == 0 &&
  (u.fc || f.fc == 0) && (u.w || f.w == 0) && (u.cond || f.cond == 0) &&
  (u.wrap || !f.wrap) && (u.serial || !f.serial) && (u.dst || !f.dst)

/-- The condition a COND value names; none for 3 (R85). -/
def condOf (b : BitVec 2) : Option Cond :=
  match b.toNat with
  | 0 => some .always
  | 1 => some .host
  | 2 => some .swap
  | _ => none

/-- SWAP by its width code (41_byte_order.md R112 to R116). -/
def buildSwap (w : BitVec 3) (c : Cond) : Instr :=
  match w.toNat with
  | 0 => .swap8 c
  | 1 => .swap16 c
  | 2 => .swap32 c
  | 3 => .swap64 c
  | _ => .swapWide w c

/-- ENCODE by its function code name (42_frame_codec.md R134 to R146). -/
def buildEncode (n : FcName) (w : BitVec 3) (c : Cond) (wrap : Bool) : Instr :=
  match n with
  | .rc => .encodeRC wrap
  | .rdi => .encodeRDI wrap
  | .rhr => .encodeRHR wrap
  | .rir => .encodeRIR wrap
  | .wsc => .encodeWSC wrap
  | .wsr => .encodeWSR wrap
  | .wmc => .encodeWMC wrap
  | .wmr => .encodeWMR w c wrap
  | .rfr => .encodeRFR wrap
  | .wfr => .encodeWFR wrap
  | .mwr => .encodeMWR wrap
  | .rwmr => .encodeRWMR w c wrap
  | .rfq => .encodeRFQ wrap

/-- PARSE by its function code name (45_response_parser.md R211 to R223). -/
def buildParse (n : FcName) (w : BitVec 3) (c : Cond) (serial : Bool) : Instr :=
  match n with
  | .rc => .parseRC w c serial
  | .rdi => .parseRDI w c serial
  | .rhr => .parseRHR w c serial
  | .rir => .parseRIR w c serial
  | .wsc => .parseWSC serial
  | .wsr => .parseWSR serial
  | .wmc => .parseWMC serial
  | .wmr => .parseWMR serial
  | .rfr => .parseRFR serial
  | .wfr => .parseWFR serial
  | .mwr => .parseMWR serial
  | .rwmr => .parseRWMR w c serial
  | .rfq => .parseRFQ serial

/-- The command of a word whose fields passed every check. -/
def Selected.build (sel : Selected) (f : Fields) (c : Cond) : Instr :=
  match sel with
  | .crc16 => .crc16
  | .swap => buildSwap f.w c
  | .wpswap => .wpswap f.w
  | .swapbuf => .swapbuf f.w c f.dst
  | .encode n => buildEncode n f.w c f.wrap
  | .validate => .validate
  | .qsize => .qsize f.w
  | .xlate => .xlate f.fc
  | .parse n => buildParse n f.w c f.serial

/-- The decoder over fields, its four checks in the order of R88. Where COND is not used it is 0 by the third
check, so the last one passes. -/
def decodeFields (t : FcTable) (f : Fields) : Except DecodeError Instr :=
  match select t f.op f.fc with
  | .error e => .error e
  | .ok sel =>
    if f.unusedAreZero sel.usage then
      match condOf f.cond with
      | some c => .ok (sel.build f c)
      | none => .error .badCond
    else .error .reservedField

/-- The decoder: total on every 32-bit word (R88, R89). -/
def decode (t : FcTable) (v : Word) : Except DecodeError Instr :=
  decodeFields t (fieldsOf v)

/-! ## The encoder -/

/-- The value of the COND field (R85). -/
def Cond.code : Cond → BitVec 2
  | .always => 0
  | .host => 1
  | .swap => 2

/-- An ENCODE word: OP 0x05 (R81, R87). -/
def encodeWord (t : FcTable) (n : FcName) (w : BitVec 3) (c : Cond) (wrap : Bool) : Word :=
  packWord 0x05 (t.byte n) w c.code wrap false false

/-- A PARSE word: OP 0x09 (R81, R87). -/
def parseWord (t : FcTable) (n : FcName) (w : BitVec 3) (c : Cond) (serial : Bool) : Word :=
  packWord 0x09 (t.byte n) w c.code false serial false

/-- The word of a command, from the Encoding line of each command's rule (R80, R81). -/
def encode (t : FcTable) : Instr → Word
  | .crc16 => packWord 0x01 0 0 0 false false false
  | .swap8 c => packWord 0x02 0 0 c.code false false false
  | .swap16 c => packWord 0x02 0 1 c.code false false false
  | .swap32 c => packWord 0x02 0 2 c.code false false false
  | .swap64 c => packWord 0x02 0 3 c.code false false false
  | .swapWide w c => packWord 0x02 0 w c.code false false false
  | .wpswap w => packWord 0x03 0 w 0 false false false
  | .swapbuf w c dst => packWord 0x04 0 w c.code false false dst
  | .encodeRC wrap => encodeWord t .rc 0 .always wrap
  | .encodeRDI wrap => encodeWord t .rdi 0 .always wrap
  | .encodeRHR wrap => encodeWord t .rhr 0 .always wrap
  | .encodeRIR wrap => encodeWord t .rir 0 .always wrap
  | .encodeWSC wrap => encodeWord t .wsc 0 .always wrap
  | .encodeWSR wrap => encodeWord t .wsr 0 .always wrap
  | .encodeWMC wrap => encodeWord t .wmc 0 .always wrap
  | .encodeWMR w c wrap => encodeWord t .wmr w c wrap
  | .encodeRFR wrap => encodeWord t .rfr 0 .always wrap
  | .encodeWFR wrap => encodeWord t .wfr 0 .always wrap
  | .encodeMWR wrap => encodeWord t .mwr 0 .always wrap
  | .encodeRWMR w c wrap => encodeWord t .rwmr w c wrap
  | .encodeRFQ wrap => encodeWord t .rfq 0 .always wrap
  | .validate => packWord 0x06 0 0 0 false false false
  | .qsize w => packWord 0x07 0 w 0 false false false
  | .xlate fc => packWord 0x08 fc 0 0 false false false
  | .parseRC w c serial => parseWord t .rc w c serial
  | .parseRDI w c serial => parseWord t .rdi w c serial
  | .parseRHR w c serial => parseWord t .rhr w c serial
  | .parseRIR w c serial => parseWord t .rir w c serial
  | .parseWSC serial => parseWord t .wsc 0 .always serial
  | .parseWSR serial => parseWord t .wsr 0 .always serial
  | .parseWMC serial => parseWord t .wmc 0 .always serial
  | .parseWMR serial => parseWord t .wmr 0 .always serial
  | .parseRFR serial => parseWord t .rfr 0 .always serial
  | .parseWFR serial => parseWord t .wfr 0 .always serial
  | .parseMWR serial => parseWord t .mwr 0 .always serial
  | .parseRWMR w c serial => parseWord t .rwmr w c serial
  | .parseRFQ serial => parseWord t .rfq 0 .always serial

/-! ## The host's question -/

/-- The command the decoder reads, under the default FCODE, from the word whose low `nbits` bits are those of
`w`; none where it refuses. Every command is one 32-bit word (R91), so bit k of `w` is bit k of CMD. -/
def decodeTableWord (nbits w : Nat) : Option Instr :=
  match decode FcTable.default (BitVec.ofNat 32 (w % 2 ^ nbits)) with
  | .ok i => some i
  | .error _ => none

/-! ## The opcode table -/

/-- A row of spec/opcode_table.json: its match and mask, and the values its W and COND fields may take where the
row lists them (an empty list: no limit beyond the mask). -/
structure Row where
  mnemonic : String
  pattern : Word
  mask : Word
  ws : List (BitVec 3)
  conds : List (BitVec 2)
  deriving DecidableEq, Repr

/-- A word names a row (R89). -/
def Row.names (r : Row) (v : Word) : Bool :=
  (v &&& r.mask) == r.pattern &&
  (r.ws.isEmpty || r.ws.contains (v.extractLsb' 16 3)) &&
  (r.conds.isEmpty || r.conds.contains (v.extractLsb' 20 2))

/-- Rows of spec/opcode_table.json: CRC16, SWAP, WPSWAP and SWAPBUF. -/
def opcodeRowsCore : List Row :=
  [⟨"CRC16", 0x00000001, 0xFFFFFFFF, [], []⟩,
   ⟨"SWAP8", 0x00000002, 0xFFCFFFFF, [], [0, 1, 2]⟩,
   ⟨"SWAP16", 0x00010002, 0xFFCFFFFF, [], [0, 1, 2]⟩,
   ⟨"SWAP32", 0x00020002, 0xFFCFFFFF, [], [0, 1, 2]⟩,
   ⟨"SWAP64", 0x00030002, 0xFFCFFFFF, [], [0, 1, 2]⟩,
   ⟨"SWAP.W4-7", 0x00000002, 0xFFC8FFFF, [4, 5, 6, 7], [0, 1, 2]⟩,
   ⟨"WPSWAP", 0x00000003, 0xFFF8FFFF, [], []⟩,
   ⟨"SWAPBUF", 0x00000004, 0xFBC8FFFF, [], [0, 1, 2]⟩]

/-- Rows of spec/opcode_table.json: ENCODE. -/
def opcodeRowsEncode : List Row :=
  [⟨"ENCODE.RC", 0x00000105, 0xFEFFFFFF, [], []⟩,
   ⟨"ENCODE.RDI", 0x00000205, 0xFEFFFFFF, [], []⟩,
   ⟨"ENCODE.RHR", 0x00000305, 0xFEFFFFFF, [], []⟩,
   ⟨"ENCODE.RIR", 0x00000405, 0xFEFFFFFF, [], []⟩,
   ⟨"ENCODE.WSC", 0x00000505, 0xFEFFFFFF, [], []⟩,
   ⟨"ENCODE.WSR", 0x00000605, 0xFEFFFFFF, [], []⟩,
   ⟨"ENCODE.WMC", 0x00000F05, 0xFEFFFFFF, [], []⟩,
   ⟨"ENCODE.WMR", 0x00001005, 0xFEC8FFFF, [], [0, 1, 2]⟩,
   ⟨"ENCODE.RFR", 0x00001405, 0xFEFFFFFF, [], []⟩,
   ⟨"ENCODE.WFR", 0x00001505, 0xFEFFFFFF, [], []⟩,
   ⟨"ENCODE.MWR", 0x00001605, 0xFEFFFFFF, [], []⟩,
   ⟨"ENCODE.RWMR", 0x00001705, 0xFEC8FFFF, [], [0, 1, 2]⟩,
   ⟨"ENCODE.RFQ", 0x00001805, 0xFEFFFFFF, [], []⟩]

/-- Rows of spec/opcode_table.json: VALIDATE, QSIZE and XLATE. -/
def opcodeRowsMid : List Row :=
  [⟨"VALIDATE", 0x00000006, 0xFFFFFFFF, [], []⟩,
   ⟨"QSIZE", 0x00000007, 0xFFF8FFFF, [], []⟩,
   ⟨"XLATE", 0x00000008, 0xFFFF00FF, [], []⟩]

/-- Rows of spec/opcode_table.json: PARSE. -/
def opcodeRowsParse : List Row :=
  [⟨"PARSE.RC", 0x00000109, 0xFDC8FFFF, [], [0, 1, 2]⟩,
   ⟨"PARSE.RDI", 0x00000209, 0xFDC8FFFF, [], [0, 1, 2]⟩,
   ⟨"PARSE.RHR", 0x00000309, 0xFDC8FFFF, [], [0, 1, 2]⟩,
   ⟨"PARSE.RIR", 0x00000409, 0xFDC8FFFF, [], [0, 1, 2]⟩,
   ⟨"PARSE.WSC", 0x00000509, 0xFDFFFFFF, [], []⟩,
   ⟨"PARSE.WSR", 0x00000609, 0xFDFFFFFF, [], []⟩,
   ⟨"PARSE.WMC", 0x00000F09, 0xFDFFFFFF, [], []⟩,
   ⟨"PARSE.WMR", 0x00001009, 0xFDFFFFFF, [], []⟩,
   ⟨"PARSE.RFR", 0x00001409, 0xFDFFFFFF, [], []⟩,
   ⟨"PARSE.WFR", 0x00001509, 0xFDFFFFFF, [], []⟩,
   ⟨"PARSE.MWR", 0x00001609, 0xFDFFFFFF, [], []⟩,
   ⟨"PARSE.RWMR", 0x00001709, 0xFDC8FFFF, [], [0, 1, 2]⟩,
   ⟨"PARSE.RFQ", 0x00001809, 0xFDFFFFFF, [], []⟩]

/-- All 37 rows of spec/opcode_table.json, in its order. -/
def opcodeTable : List Row :=
  opcodeRowsCore ++ opcodeRowsEncode ++ opcodeRowsMid ++ opcodeRowsParse

/-- A command's mnemonic, as the table spells it (R93). -/
def Instr.mnemonic : Instr → String
  | .crc16 => "CRC16"
  | .swap8 _ => "SWAP8"
  | .swap16 _ => "SWAP16"
  | .swap32 _ => "SWAP32"
  | .swap64 _ => "SWAP64"
  | .swapWide _ _ => "SWAP.W4-7"
  | .wpswap _ => "WPSWAP"
  | .swapbuf _ _ _ => "SWAPBUF"
  | .encodeRC _ => "ENCODE.RC"
  | .encodeRDI _ => "ENCODE.RDI"
  | .encodeRHR _ => "ENCODE.RHR"
  | .encodeRIR _ => "ENCODE.RIR"
  | .encodeWSC _ => "ENCODE.WSC"
  | .encodeWSR _ => "ENCODE.WSR"
  | .encodeWMC _ => "ENCODE.WMC"
  | .encodeWMR _ _ _ => "ENCODE.WMR"
  | .encodeRFR _ => "ENCODE.RFR"
  | .encodeWFR _ => "ENCODE.WFR"
  | .encodeMWR _ => "ENCODE.MWR"
  | .encodeRWMR _ _ _ => "ENCODE.RWMR"
  | .encodeRFQ _ => "ENCODE.RFQ"
  | .validate => "VALIDATE"
  | .qsize _ => "QSIZE"
  | .xlate _ => "XLATE"
  | .parseRC _ _ _ => "PARSE.RC"
  | .parseRDI _ _ _ => "PARSE.RDI"
  | .parseRHR _ _ _ => "PARSE.RHR"
  | .parseRIR _ _ _ => "PARSE.RIR"
  | .parseWSC _ => "PARSE.WSC"
  | .parseWSR _ => "PARSE.WSR"
  | .parseWMC _ => "PARSE.WMC"
  | .parseWMR _ => "PARSE.WMR"
  | .parseRFR _ => "PARSE.RFR"
  | .parseWFR _ => "PARSE.WFR"
  | .parseMWR _ => "PARSE.MWR"
  | .parseRWMR _ _ _ => "PARSE.RWMR"
  | .parseRFQ _ => "PARSE.RFQ"

end Sys2Proof
end

