-- ==== Sys2Proof/Machine/State.lean ====
section
/-! DEFINITION. The state of the block (10_state.md R21), the events at its ports, the two model faults
(60_exceptions.md R255), and the state after reset (10_state.md R34). -/

namespace Sys2Proof.Machine

/-- Why a run stops: the two model faults of 60_exceptions.md R255. -/
inductive Fault
  /-- The engine read an UNINIT byte of IBUF (10_state.md R35). Raised by the commands that read IBUF, through
  Operands.readIbuf. Safe: the spec gives such a command no defined result. -/
  | uninitRead
  /-- An illegal host access at this offset, of this many bytes (20_memory.md R52, R53). Raised by hostRead and
  hostWrite. Safe: the block itself would go on with its state unchanged (log entry 9). -/
  | busError (offset width : Nat)
  deriving DecidableEq, Repr

/-- Why an instruction has no meaning. -/
inductive Refusal
  /-- The arm of `exec` for this mnemonic is not written. Raised by no arm: every command is modelled. Safe. -/
  | notModelled (mnemonic : String)
  deriving DecidableEq, Repr

/-- What happens next at the block's ports (10_state.md R20). Addresses are bus addresses; `n` is the access width
in bytes; the low 8·n bits of the data are written (20_memory.md R52). -/
inductive Event
  | read (addr n : Nat)
  | write (addr n : Nat) (data : BitVec 64)
  | reset
  /-- The engine's turn: its completion step where a command is pending, no step where none is. -/
  | complete
  deriving DecidableEq, Repr

/-- The state. A buffer is a list of (index, byte) with strictly rising indexes; an unlisted index is UNINIT. -/
structure State where
  /-- The model's own field: the parameters of 00_scope.md R7, which no step changes (log entry 1). -/
  params : Params
  /-- CMD (R22). -/
  cmd : Word
  /-- PEND, the pending command (R32). -/
  pend : Word
  /-- STATUS.BUSY (R23). -/
  busy : Bool
  /-- STATUS.DROPPED (R23). -/
  dropped : Bool
  /-- STATUS.KIND (R23). -/
  kind : BitVec 4
  /-- STATUS.DETAIL (R23). -/
  detail : BitVec 8
  /-- CFG.HOST_LE (R25). -/
  hostLE : Bool
  /-- CFG.SWAP (R25). -/
  swap : Bool
  /-- LEN (R26). -/
  len : Word
  /-- OLEN (R27). -/
  olen : Word
  /-- RES (R28). -/
  res : DWord
  /-- A0 (R29). -/
  a0 : DWord
  /-- A1 (R29). -/
  a1 : DWord
  /-- A2 (R29). -/
  a2 : DWord
  /-- A3 (R29). -/
  a3 : DWord
  /-- IBUF (R30). -/
  ibuf : List Host.Cell
  /-- OBUF (R31). -/
  obuf : List Host.Cell
  /-- The model's own field: the events still to come, oldest first (log entry 3). -/
  schedule : List Event
  /-- The model's own field: the number of host reads answered, the index of the next free value (log entry 6). -/
  draws : Nat
  /-- The model's own field: the data of the last host read the block answered (log entry 7). -/
  rdata : Option Word
  deriving DecidableEq, Repr

/-- The state after reset (10_state.md R34), with the default parameters and nothing scheduled. -/
def State.reset : State where
  params := Params.default
  cmd := 0
  pend := 0
  busy := false
  dropped := false
  kind := 0
  detail := 0
  hostLE := false
  swap := false
  len := 0
  olen := 0
  res := 0
  a0 := 0
  a1 := 0
  a2 := 0
  a3 := 0
  ibuf := []
  obuf := []
  schedule := []
  draws := 0
  rdata := none

end Sys2Proof.Machine
end

