-- ==== Sys2Proof/Machine/Flags.lean ====
section
/-! DEFINITION. The outcomes of a command and their codes in STATUS.KIND and STATUS.DETAIL (60_exceptions.md R241
to R247), and the STATUS and CFG words a host reads (10_state.md R23 to R25). -/

namespace Sys2Proof.Machine

/-- ValidationError details (R242). -/
inductive ValidationDetail
  | unitRange | addrRange | qtyRange | writeLen | width | lenRange | sizeOdd | byteCount | outOverflow
  | lenAlign | valueRange
  deriving DecidableEq, Repr

/-- FramingError details, which are the validator's reasons (R243; 43_frame_validator.md R160). -/
inductive FramingDetail
  | short | unit | byteCount | crc
  deriving DecidableEq, Repr

/-- ResponseShapeError details (R245). -/
inductive ShapeDetail
  | shortPayload | unexpectedFc
  deriving DecidableEq, Repr

/-- The outcomes other than OK (R241). -/
inductive Err
  | validation (d : ValidationDetail)
  | framing (d : FramingDetail)
  /-- `code` is the raw exception code, `message` the message id (R244). -/
  | protocolException (code message : Byte)
  | shape (d : ShapeDetail)
  | notImplemented
  | command (d : DecodeError)
  deriving DecidableEq, Repr

/-- R242. -/
def ValidationDetail.code : ValidationDetail → Byte
  | .unitRange => 1
  | .addrRange => 2
  | .qtyRange => 3
  | .writeLen => 4
  | .width => 5
  | .lenRange => 6
  | .sizeOdd => 7
  | .byteCount => 8
  | .outOverflow => 9
  | .lenAlign => 10
  | .valueRange => 11

/-- R243. -/
def FramingDetail.code : FramingDetail → Byte
  | .short => 1
  | .unit => 2
  | .byteCount => 3
  | .crc => 4

/-- R245. -/
def ShapeDetail.code : ShapeDetail → Byte
  | .shortPayload => 1
  | .unexpectedFc => 2

/-- R247. -/
def decodeErrorCode : DecodeError → Byte
  | .unknownOp => 1
  | .unknownFc => 2
  | .reservedField => 3
  | .badCond => 4

/-- STATUS.KIND of an outcome (R241). -/
def Err.kind : Err → BitVec 4
  | .validation _ => 1
  | .framing _ => 2
  | .protocolException _ _ => 3
  | .shape _ => 4
  | .notImplemented => 5
  | .command _ => 6

/-- STATUS.DETAIL of an outcome (R242 to R247). -/
def Err.detail : Err → Byte
  | .validation d => d.code
  | .framing d => d.code
  | .protocolException code _ => code
  | .shape d => d.code
  | .notImplemented => 0
  | .command d => decodeErrorCode d

/-- What an outcome other than OK writes to RES: nothing, but for ProtocolException, which writes the message id
(45_response_parser.md R208; R248). -/
def Err.res : Err → Option DWord
  | .protocolException _ message => some (message.setWidth 64)
  | .validation _ => none
  | .framing _ => none
  | .shape _ => none
  | .notImplemented => none
  | .command _ => none

/-- The pairs of KIND and DETAIL the block writes (R241 to R247). -/
def outcomeLegal (kind : BitVec 4) (detail : Byte) : Bool :=
  match kind.toNat with
  | 0 => detail == 0
  | 1 => decide (1 ≤ detail.toNat) && decide (detail.toNat ≤ 11)
  | 2 => decide (1 ≤ detail.toNat) && decide (detail.toNat ≤ 4)
  | 3 => true
  | 4 => decide (1 ≤ detail.toNat) && decide (detail.toNat ≤ 2)
  | 5 => detail == 0
  | 6 => decide (1 ≤ detail.toNat) && decide (detail.toNat ≤ 4)
  | _ => false

/-- A STATUS word from its fields; bits 3:2 and 31:16 read as 0 (10_state.md R23). -/
def packStatus (busy dropped : Bool) (kind : BitVec 4) (detail : Byte) : Word :=
  (0 : BitVec 16) ++ detail ++ kind ++ (0 : BitVec 2) ++ BitVec.ofBool dropped ++ BitVec.ofBool busy

/-- A host read of STATUS. While busy, KIND and DETAIL are any value, taken from the free value (R24). -/
def statusWord (s : State) (free : Word) : Word :=
  if s.busy then packStatus true s.dropped (free.extractLsb' 4 4) (free.extractLsb' 8 8)
  else packStatus false s.dropped s.kind s.detail

/-- A host read of CFG; bits 31:2 read as 0 (R25). -/
def cfgWord (s : State) : Word :=
  (0 : BitVec 30) ++ BitVec.ofBool s.swap ++ BitVec.ofBool s.hostLE

end Sys2Proof.Machine
end

