-- ==== Sys2Proof/Machine/Ops.lean ====
section
/-! DEFINITION. The named operations over the buffers and the registers, and the one way a command ends:
finish, which completes it, raises its outcome, or stops the run. -/

namespace Sys2Proof.Machine

/-! ## Buffers -/

/-- The byte a buffer holds at an index; none where it is UNINIT (10_state.md R30, R31). -/
def bufRead : List Host.Cell → Nat → Option Byte
  | [], _ => none
  | (k, b) :: m, i => if k = i then some b else bufRead m i

/-- A buffer with one byte stored, its indexes still rising. -/
def bufWrite : List Host.Cell → Nat → Byte → List Host.Cell
  | [], i, v => [(i, v)]
  | (k, b) :: m, i, v =>
    if i < k then (i, v) :: (k, b) :: m
    else if i = k then (i, v) :: m
    else (k, b) :: bufWrite m i v

/-- A buffer with a byte sequence stored from an index on. -/
def bufWriteList : List Host.Cell → Nat → List Byte → List Host.Cell
  | m, _, [] => m
  | m, i, b :: bs => bufWriteList (bufWrite m i b) (i + 1) bs

/-- The n bytes of a buffer from an index on; none where one of them is UNINIT. -/
def bufReadList (m : List Host.Cell) : Nat → Nat → Option (List Byte)
  | _, 0 => some []
  | i, n + 1 =>
    match bufRead m i, bufReadList m (i + 1) n with
    | some b, some bs => some (b :: bs)
    | _, _ => none

/-- The canonical form of a buffer: indexes strictly rising. (An unlisted index reads as no value, so no entry
can equal it.) -/
def bufWf : List Host.Cell → Bool
  | [] => true
  | [_] => true
  | (i, _) :: (j, b) :: m => decide (i < j) && bufWf ((j, b) :: m)

/-- Every index of a buffer is below its size. -/
def bufBelow (size : Nat) (m : List Host.Cell) : Bool :=
  m.all (fun c => decide (c.1 < size))

/-! ## How a command ends -/

/-- Why a command's pseudocode stops before its end: it raises an outcome (00_scope.md R10), or the model faults
(60_exceptions.md R255). -/
inductive Stop
  | raised (e : Err)
  | fault (f : Fault)
  deriving DecidableEq, Repr

/-- `raise K(d)` (R10). -/
def raise {α : Type} (e : Err) : Except Stop α :=
  .error (.raised e)

/-- A validation check: go on where it holds, else raise ValidationError(d). -/
def ensure (ok : Bool) (d : ValidationDetail) : Except Stop Unit :=
  if ok then .ok () else raise (.validation d)

/-- What a command that runs to its end writes beside STATUS: RES, an output sequence to OBUF and OLEN, an input
sequence back to IBUF (10_state.md, section 9). -/
structure Effect where
  res : Option DWord := none
  out : Option (List Byte) := none
  inPlace : Option (List Byte) := none
  deriving DecidableEq, Repr

/-- STATUS after a completion: KIND, DETAIL and BUSY <- 0 (60_exceptions.md R240). DROPPED stays (R23). -/
def State.setOutcome (s : State) (kind : BitVec 4) (detail : Byte) : State :=
  { s with kind := kind, detail := detail, busy := false }

/-- RES <- v, where a value is listed (10_state.md R28). -/
def State.putRes (s : State) (v : Option DWord) : State :=
  { s with res := v.getD s.res }

/-- `OBUF[i] <- f[i]` for i < len(f), OLEN <- len(f), where an output is listed (10_state.md R31). -/
def State.putOut (s : State) (out : Option (List Byte)) : State :=
  { s with
    obuf := (match out with
      | some f => bufWriteList s.obuf 0 f
      | none => s.obuf)
    olen := (match out with
      | some f => BitVec.ofNat 32 f.length
      | none => s.olen) }

/-- `IBUF[i] <- f[i]` for i < len(f), where SWAPBUF lists it (41_byte_order.md R120). -/
def State.putIn (s : State) (back : Option (List Byte)) : State :=
  { s with
    ibuf := (match back with
      | some f => bufWriteList s.ibuf 0 f
      | none => s.ibuf) }

/-- `complete`: every write the command lists, and STATUS OK (R10, 20_memory.md R62). -/
def State.completeOk (s : State) (e : Effect) : State :=
  (((s.putRes e.res).putOut e.out).putIn e.inPlace).setOutcome 0 0

/-- Ending with an outcome other than OK: STATUS, and RES where the outcome is ProtocolException; nothing else
(60_exceptions.md R248). The block's form of taking an exception: no vector, no saved register, no return (R240). -/
def State.raiseOutcome (s : State) (e : Err) : State :=
  (s.putRes e.res).setOutcome e.kind e.detail

/-- The completion step of a command whose pseudocode gave this result (10_state.md R20). -/
def finish (s : State) (r : Except Stop Effect) : Host.Outcome State Fault Refusal :=
  match r with
  | .ok e => .next (s.completeOk e)
  | .error (.raised e) => .next (s.raiseOutcome e)
  | .error (.fault f) => .fault f

/-! ## Reset -/

/-- The reset event: every piece of the block's state at its reset value, a pending command abandoned (R34, R270).
The model's own fields stay: parameters, what is still scheduled, the draw counter, the host's read data
(log entry 16). -/
def resetBlock (s : State) : State :=
  { State.reset with params := s.params, schedule := s.schedule, draws := s.draws, rdata := s.rdata }

end Sys2Proof.Machine
end

