-- ==== Sys2Proof/Machine/Bus.lean ====
section
/-! DEFINITION. The host's side: the register window, the accesses it allows, and what a host read and a host write
do (20_memory.md R50 to R63, 10_state.md R22 to R36). -/

namespace Sys2Proof.Machine

/-- The operand registers (10_state.md R29). -/
inductive OperandReg
  | a0 | a1 | a2 | a3
  deriving DecidableEq, Repr

/-- What stands at an offset of the window (20_memory.md R51). A buffer location carries its byte index. -/
inductive Location
  | cmd
  | status
  | cfg
  | len
  | olen
  | resLo
  | resHi
  | operandLo (r : OperandReg)
  | operandHi (r : OperandReg)
  | ibuf (i : Nat)
  | obuf (i : Nat)
  | reserved
  deriving DecidableEq, Repr

/-- An offset inside the IBUF window (R51). -/
def inIbuf (p : Params) (off : Nat) : Bool :=
  decide (0x1000 ≤ off) && decide (off < 0x1000 + p.ibufBytes)

/-- An offset inside the OBUF window (R51). -/
def inObuf (p : Params) (off : Nat) : Bool :=
  decide (0x2000 ≤ off) && decide (off < 0x2000 + p.obufBytes)

/-- The register map (R51): a register by the offset of its word, a buffer byte by its offset; everything else of
the window is reserved (R54). -/
def locate (p : Params) (off : Nat) : Location :=
  match off with
  | 0x000 => .cmd
  | 0x004 => .status
  | 0x008 => .cfg
  | 0x00C => .len
  | 0x010 => .olen
  | 0x018 => .resLo
  | 0x01C => .resHi
  | 0x020 => .operandLo .a0
  | 0x024 => .operandHi .a0
  | 0x028 => .operandLo .a1
  | 0x02C => .operandHi .a1
  | 0x030 => .operandLo .a2
  | 0x034 => .operandHi .a2
  | 0x038 => .operandLo .a3
  | 0x03C => .operandHi .a3
  | _ =>
    if inIbuf p off then .ibuf (off - 0x1000)
    else if inObuf p off then .obuf (off - 0x2000)
    else .reserved

/-- A bus address inside the block's 12 KiB window (R50). -/
def selected (p : Params) (addr : Nat) : Bool :=
  decide (p.base ≤ addr) && decide (addr < p.base + 0x3000)

/-- The legal accesses: an aligned 32-bit access anywhere in the window, an 8-bit one in a buffer window (R52). -/
def accessLegal (p : Params) (off n : Nat) : Bool :=
  (n == 4 && off % 4 == 0) || (n == 1 && (inIbuf p off || inObuf p off))

/-! ## Reads -/

/-- A byte of IBUF as a host reads it: any value where it is UNINIT (R35), 0 at or past the buffer's size (R55). -/
def ibufByte (s : State) (i : Nat) (free : Byte) : Byte :=
  if i < s.params.ibufBytes then (bufRead s.ibuf i).getD free else 0

/-- A byte of OBUF as a host reads it: any value while busy (R36) or where it is UNINIT (R35), 0 at or past the
buffer's size (R55; log entry 12). -/
def obufByte (s : State) (i : Nat) (free : Byte) : Byte :=
  if i < s.params.obufBytes then (if s.busy then free else (bufRead s.obuf i).getD free) else 0

/-- A buffer read of one byte, zero-extended, or of the word of four bytes at i (R55, R56). Byte j of the free value
serves the j-th byte. -/
def bufferValue (byteAt : Nat → Byte → Byte) (i n : Nat) (free : Word) : Word :=
  if n = 1 then (byteAt i (byteOf free 0)).setWidth 32
  else wordOfBytes (byteAt i (byteOf free 0)) (byteAt (i + 1) (byteOf free 1)) (byteAt (i + 2) (byteOf free 2))
    (byteAt (i + 3) (byteOf free 3))

/-- An operand register (R29). -/
def operand (s : State) : OperandReg → DWord
  | .a0 => s.a0
  | .a1 => s.a1
  | .a2 => s.a2
  | .a3 => s.a3

/-- A result register as a host reads it: any value while busy (R36). -/
def resultValue (s : State) (v free : Word) : Word :=
  if s.busy then free else v

/-- What a legal read of n bytes at an offset returns, given the free value for what is open (R22 to R36). -/
def readValue (s : State) (off n : Nat) (free : Word) : Word :=
  match locate s.params off with
  | .cmd => s.cmd
  | .status => statusWord s free
  | .cfg => cfgWord s
  | .len => s.len
  | .olen => resultValue s s.olen free
  | .resLo => resultValue s (s.res.extractLsb' 0 32) free
  | .resHi => resultValue s (s.res.extractLsb' 32 32) free
  | .operandLo r => (operand s r).extractLsb' 0 32
  | .operandHi r => (operand s r).extractLsb' 32 32
  | .ibuf i => bufferValue (ibufByte s) i n free
  | .obuf i => bufferValue (obufByte s) i n free
  | .reserved => 0

/-- The host takes read data; the free value used is spent. No piece of the block's state changes (R61). -/
def State.giveData (s : State) (v : Word) : State :=
  { s with rdata := some v, draws := s.draws + 1 }

/-- A host read of n bytes at a bus address. Outside the window it is no access to the block (R50, log entry 10);
an illegal one is a BusError (R53). -/
def hostRead (addr n : Nat) (s : State) : Host.Outcome State Fault Refusal :=
  if selected s.params addr then
    if accessLegal s.params (addr - s.params.base) n then
      .next (s.giveData (readValue s (addr - s.params.base) n (Config.freeWord s.draws)))
    else .fault (.busError (addr - s.params.base) n)
  else .next s

/-! ## Writes -/

/-- A 64-bit register with its low word replaced (R55). -/
def withLow (old : DWord) (v : Word) : DWord :=
  old.extractLsb' 32 32 ++ v

/-- A 64-bit register with its high word replaced (R55). -/
def withHigh (old : DWord) (v : Word) : DWord :=
  v ++ old.extractLsb' 0 32

/-- An operand register stored. -/
def State.setOperand (s : State) (r : OperandReg) (v : DWord) : State :=
  match r with
  | .a0 => { s with a0 := v }
  | .a1 => { s with a1 := v }
  | .a2 => { s with a2 := v }
  | .a3 => { s with a3 := v }

/-- A command started: the word to CMD and PEND, BUSY set (R22). KIND and DETAIL keep the last outcome (R250). -/
def State.startCommand (s : State) (v : Word) : State :=
  { s with cmd := v, pend := v, busy := true }

/-- The bytes of a write to IBUF at index i that fall inside the buffer (R55): one byte, or the word's four. -/
def ibufWrite (s : State) (i n : Nat) (data : BitVec 64) : State :=
  let bytes := if n = 1 then [byteOf data 0] else [byteOf data 0, byteOf data 1, byteOf data 2, byteOf data 3]
  { s with ibuf := bufWriteList s.ibuf i (bytes.take (s.params.ibufBytes - i)) }

/-- STATUS: only bit 1 does anything, clearing DROPPED (R23). Not dropped while busy. -/
def State.writeStatus (s : State) (v : Word) : State :=
  { s with dropped := s.dropped && !v.getLsbD 1 }

/-- A write that is dropped while busy and stored while idle (R63). -/
def storeIdle (s stored : State) : State :=
  if s.busy then { s with dropped := true } else stored

/-- What a legal write of n bytes at an offset does (R51, R54, R63). -/
def writeValue (s : State) (off n : Nat) (data : BitVec 64) : State :=
  match locate s.params off with
  | .cmd => storeIdle s (s.startCommand (data.setWidth 32))
  | .status => s.writeStatus (data.setWidth 32)
  | .cfg => storeIdle s { s with hostLE := data.getLsbD 0, swap := data.getLsbD 1 }
  | .len => storeIdle s { s with len := data.setWidth 32 }
  | .olen => s
  | .resLo => s
  | .resHi => s
  | .operandLo r => storeIdle s (s.setOperand r (withLow (operand s r) (data.setWidth 32)))
  | .operandHi r => storeIdle s (s.setOperand r (withHigh (operand s r) (data.setWidth 32)))
  | .ibuf i => storeIdle s (ibufWrite s i n data)
  | .obuf _ => s
  | .reserved => s

/-- A host write of n bytes at a bus address (R50, R52, R53). -/
def hostWrite (addr n : Nat) (data : BitVec 64) (s : State) : Host.Outcome State Fault Refusal :=
  if selected s.params addr then
    if accessLegal s.params (addr - s.params.base) n then
      .next (writeValue s (addr - s.params.base) n data)
    else .fault (.busError (addr - s.params.base) n)
  else .next s

end Sys2Proof.Machine
end

