-- ==== Sys2Proof/Machine/Operands.lean ====
section
/-! DEFINITION. The operands of a command: W, COND, the range checks of 44_marshaller.md R180 to R189, the input
bytes (10_state.md R35), and the response class of a function code (30_encoding.md R82). -/

namespace Sys2Proof.Machine

/-- `w = 2^W` (30_encoding.md R84). -/
def elemWidth (w : BitVec 3) : Nat :=
  2 ^ w.toNat

/-- The supported element widths (44_marshaller.md R186). -/
def widthOk (w : BitVec 3) : Bool :=
  ([1, 2, 4, 8] : List Nat).contains (elemWidth w)

/-- `cond_true(COND)` (41_byte_order.md R111). -/
def condTrue (c : Cond) (s : State) : Bool :=
  match c with
  | .always => true
  | .host => s.hostLE
  | .swap => s.swap

/-- R180: a unit identifier is at most 255. -/
def checkUnit (v : DWord) : Except Stop Unit :=
  ensure (decide (v.toNat ≤ 255)) .unitRange

/-- R181: an address is at most 65535. -/
def checkAddr (v : DWord) : Except Stop Unit :=
  ensure (decide (v.toNat ≤ 65535)) .addrRange

/-- R182: a quantity is at most its maximum, itself at most 65535. -/
def checkQty (q : Nat) (qmax : Fin 65536) : Except Stop Unit :=
  ensure (decide (q ≤ qmax.val)) .qtyRange

/-- A value operand is at most a bound (42_frame_codec.md R138, R139; 45_response_parser.md R203). -/
def checkValue (v : DWord) (bound : Nat) : Except Stop Unit :=
  ensure (decide (v.toNat ≤ bound)) .valueRange

/-- R186: the width is supported. -/
def checkWidth (w : BitVec 3) : Except Stop Unit :=
  ensure (widthOk w) .width

/-- R189: LEN is at most IBUF_BYTES. -/
def checkLenRange (s : State) : Except Stop Unit :=
  ensure (decide (s.len.toNat ≤ s.params.ibufBytes)) .lenRange

/-- R189: a byte length is a multiple of the element width. -/
def checkLenAlign (n : Nat) (w : BitVec 3) : Except Stop Unit :=
  ensure (n % elemWidth w == 0) .lenAlign

/-- R189: an output fits in OBUF. -/
def checkOut (n : Nat) (s : State) : Except Stop Unit :=
  ensure (decide (n ≤ s.params.obufBytes)) .outOverflow

/-- `IBUF[0..LEN-1]`, each byte read; UninitRead where one of them is UNINIT (10_state.md R35). -/
def readIbuf (s : State) : Except Stop (List Byte) :=
  match bufReadList s.ibuf 0 s.len.toNat with
  | some f => .ok f
  | none => .error (.fault .uninitRead)

/-- Response classes (45_response_parser.md R204). -/
inductive RespClass
  | bits | regs | write
  deriving DecidableEq, Repr

/-- The class of an implemented function code; none where the code is not implemented (30_encoding.md R82). -/
def respClass : FcName → Option RespClass
  | .rc => some .bits
  | .rdi => some .bits
  | .rhr => some .regs
  | .rir => some .regs
  | .wsc => some .write
  | .wsr => some .write
  | .wmc => none
  | .wmr => some .write
  | .rfr => none
  | .wfr => none
  | .mwr => none
  | .rwmr => some .regs
  | .rfq => none

/-- The function code is implemented (R82), or NotImplemented is raised (42_frame_codec.md R130; 45 R205). -/
def checkImplemented (n : FcName) : Except Stop Unit :=
  if (respClass n).isSome then .ok () else raise .notImplemented

end Sys2Proof.Machine
end

