-- ==== Sys2Proof/Machine/ByteOrder.lean ====
section
/-! DEFINITION. The byte-order normalizer: SWAP, WPSWAP and SWAPBUF (41_byte_order.md R110 to R121). -/

namespace Sys2Proof.Machine

/-- A scalar swap of the low n bits of A0: the swapped value where the condition holds, the value itself where it
does not, zero-extended into RES. Higher bits of A0 are ignored (R112 to R115). -/
def scalarSwap {n : Nat} (f : BitVec n → BitVec n) (c : Cond) (s : State) : Except Stop Effect :=
  let v : BitVec n := s.a0.setWidth n
  .ok { res := some ((if condTrue c s then f v else v).setWidth 64) }

/-- SWAP8, the identity on one byte (R112). -/
def execSwap8 (c : Cond) (s : State) : Host.Outcome State Fault Refusal :=
  finish s (scalarSwap (n := 8) (fun v => v) c s)

/-- SWAP16 (R113). -/
def execSwap16 (c : Cond) (s : State) : Host.Outcome State Fault Refusal :=
  finish s (scalarSwap (n := 16) swap2 c s)

/-- SWAP32 (R114). -/
def execSwap32 (c : Cond) (s : State) : Host.Outcome State Fault Refusal :=
  finish s (scalarSwap (n := 32) swap4 c s)

/-- SWAP64 (R115). -/
def execSwap64 (c : Cond) (s : State) : Host.Outcome State Fault Refusal :=
  finish s (scalarSwap (n := 64) swap8 c s)

/-- SWAP.W4-7: always ValidationError(WIDTH), whatever the condition (R116). -/
def execSwapWide (_w : BitVec 3) (_c : Cond) (s : State) : Host.Outcome State Fault Refusal :=
  finish s (raise (.validation .width))

/-- WPSWAP (R118). -/
def wpswapCommand (w : BitVec 3) (s : State) : Except Stop Effect := do
  ensure (elemWidth w == 4) .width
  return { res := some ((wpswap (s.a0.setWidth 32)).setWidth 64) }

/-- WPSWAP (R118). -/
def execWpswap (w : BitVec 3) (s : State) : Host.Outcome State Fault Refusal :=
  finish s (wpswapCommand w s)

/-- SWAPBUF (R120). The output check comes last and only where the output goes to OBUF. -/
def swapbufCommand (w : BitVec 3) (c : Cond) (dst : Bool) (s : State) : Except Stop Effect := do
  checkWidth w
  checkLenRange s
  checkLenAlign s.len.toNat w
  let f ← readIbuf s
  let t := eswap f (elemWidth w) (condTrue c s)
  if dst then
    return { inPlace := some t }
  else
    checkOut s.len.toNat s
    return { out := some t }

/-- SWAPBUF (R120). -/
def execSwapbuf (w : BitVec 3) (c : Cond) (dst : Bool) (s : State) : Host.Outcome State Fault Refusal :=
  finish s (swapbufCommand w c dst s)

end Sys2Proof.Machine
end

