-- ==== Sys2Proof/Machine/Checksum.lean ====
section
/-! DEFINITION. The checksum engine: crc16 and the command CRC16 (40_checksum.md R100 to R104). -/

namespace Sys2Proof.Machine

/-- One of the eight rounds for a byte (R100). -/
def crcRound (acc : BitVec 16) : BitVec 16 :=
  if acc.getLsbD 0 then (acc >>> 1) ^^^ 0xA001#16 else acc >>> 1

/-- One input byte: XOR into the low eight bits, then eight rounds (R100). -/
def crcByte (acc : BitVec 16) (b : Byte) : BitVec 16 :=
  let x := acc ^^^ b.setWidth 16
  crcRound (crcRound (crcRound (crcRound (crcRound (crcRound (crcRound (crcRound x)))))))

/-- `crc16(s)`: the accumulator starts at 0xFFFF, and nothing is done to it at the end (R100, R104). -/
def crc16 (s : List Byte) : BitVec 16 :=
  s.foldl crcByte 0xFFFF#16

/-- CRC16 (R102). -/
def crc16Command (s : State) : Except Stop Effect := do
  checkLenRange s
  let f ← readIbuf s
  return { res := some ((crc16 f).setWidth 64) }

/-- CRC16 (40_checksum.md R102). -/
def execCrc16 (s : State) : Host.Outcome State Fault Refusal :=
  finish s (crc16Command s)

end Sys2Proof.Machine
end

