-- ==== Sys2Proof/Machine/Codec.lean ====
section
/-! DEFINITION. The frame codec: the request serializer, ENCODE (42_frame_codec.md R130 to R148). -/

namespace Sys2Proof.Machine

/-- The preamble of every ENCODE (R130). -/
def encodePreamble (n : FcName) (s : State) : Except Stop Unit := do
  checkImplemented n
  checkUnit s.a0

/-- `frame(pdu)` (R131): the serial frame where WRAP is set, the PDU alone where it is not. -/
def frame (wrap : Bool) (unit : Byte) (pdu : List Byte) : List Byte :=
  if wrap then (unit :: pdu) ++ le16 (crc16 (unit :: pdu)) else pdu

/-- The output of an ENCODE (R131, R132). -/
def encodeOutput (wrap : Bool) (pdu : List Byte) (s : State) : Except Stop Effect := do
  let f := frame wrap (s.a0.setWidth 8) pdu
  checkOut f.length s
  return { out := some f }

/-- The read requests RC, RDI, RHR and RIR (R134 to R137): function code, address, quantity. -/
def encodeRead (n : FcName) (qmax : Fin 65536) (wrap : Bool) (s : State) : Except Stop Effect := do
  encodePreamble n s
  checkAddr s.a1
  checkQty s.a2.toNat qmax
  encodeOutput wrap (s.params.fcode.byte n :: (be16 (s.a1.setWidth 16) ++ be16 (s.a2.setWidth 16))) s

/-- The wire value of a coil: 0xFF00 on, 0x0000 off (R138). -/
def coilValue (v : DWord) : BitVec 16 :=
  if v.toNat = 1 then 0xFF00 else 0x0000

/-- ENCODE.WSC (R138). -/
def encodeWriteCoil (wrap : Bool) (s : State) : Except Stop Effect := do
  encodePreamble .wsc s
  checkAddr s.a1
  checkValue s.a2 1
  encodeOutput wrap (s.params.fcode.byte .wsc :: (be16 (s.a1.setWidth 16) ++ be16 (coilValue s.a2))) s

/-- ENCODE.WSR (R139). -/
def encodeWriteRegister (wrap : Bool) (s : State) : Except Stop Effect := do
  encodePreamble .wsr s
  checkAddr s.a1
  checkValue s.a2 65535
  encodeOutput wrap (s.params.fcode.byte .wsr :: (be16 (s.a1.setWidth 16) ++ be16 (s.a2.setWidth 16))) s

/-- `prep_write(qmax)`: the write quantity and the write data (R147). -/
def prepWrite (qmax : Fin 65536) (w : BitVec 3) (c : Cond) (s : State) : Except Stop (Nat × List Byte) := do
  checkWidth w
  checkLenRange s
  checkLenAlign s.len.toNat w
  ensure (decide (2 ≤ s.len.toNat) && s.len.toNat % 2 == 0) .writeLen
  let q := s.len.toNat / 2
  checkQty q qmax
  ensure (decide (2 * q ≤ 255)) .byteCount
  let f ← readIbuf s
  return (q, eswap f (elemWidth w) (condTrue c s))

/-- The quantity, byte count and data fields of a write request (R141, R145). -/
def writeFields (q : Nat) (data : List Byte) : List Byte :=
  be16 (BitVec.ofNat 16 q) ++ (BitVec.ofNat 8 (2 * q) :: data)

/-- ENCODE.WMR (R141). -/
def encodeWriteRegisters (w : BitVec 3) (c : Cond) (wrap : Bool) (s : State) : Except Stop Effect := do
  encodePreamble .wmr s
  checkAddr s.a1
  let (q, data) ← prepWrite s.params.qmaxWriteRegs w c s
  encodeOutput wrap (s.params.fcode.byte .wmr :: (be16 (s.a1.setWidth 16) ++ writeFields q data)) s

/-- ENCODE.RWMR (R145). -/
def encodeReadWrite (w : BitVec 3) (c : Cond) (wrap : Bool) (s : State) : Except Stop Effect := do
  encodePreamble .rwmr s
  checkAddr s.a1
  checkQty s.a2.toNat s.params.qmaxRwRead
  checkAddr s.a3
  let (q, data) ← prepWrite s.params.qmaxRwWrite w c s
  encodeOutput wrap (s.params.fcode.byte .rwmr ::
    (be16 (s.a1.setWidth 16) ++ be16 (s.a2.setWidth 16) ++ be16 (s.a3.setWidth 16) ++ writeFields q data)) s

/-- An ENCODE whose function code is recognised but not implemented: no operand is looked at (R130, R140). -/
def encodeUnimplemented (n : FcName) (s : State) : Except Stop Effect := do
  encodePreamble n s
  raise .notImplemented

/-- ENCODE.RC (R134). -/
def execEncodeRC (wrap : Bool) (s : State) : Host.Outcome State Fault Refusal :=
  finish s (encodeRead .rc s.params.qmaxReadBits wrap s)

/-- ENCODE.RDI (R135). -/
def execEncodeRDI (wrap : Bool) (s : State) : Host.Outcome State Fault Refusal :=
  finish s (encodeRead .rdi s.params.qmaxReadBits wrap s)

/-- ENCODE.RHR (R136). -/
def execEncodeRHR (wrap : Bool) (s : State) : Host.Outcome State Fault Refusal :=
  finish s (encodeRead .rhr s.params.qmaxReadRegs wrap s)

/-- ENCODE.RIR (R137). -/
def execEncodeRIR (wrap : Bool) (s : State) : Host.Outcome State Fault Refusal :=
  finish s (encodeRead .rir s.params.qmaxReadRegs wrap s)

/-- ENCODE.WSC (R138). -/
def execEncodeWSC (wrap : Bool) (s : State) : Host.Outcome State Fault Refusal :=
  finish s (encodeWriteCoil wrap s)

/-- ENCODE.WSR (R139). -/
def execEncodeWSR (wrap : Bool) (s : State) : Host.Outcome State Fault Refusal :=
  finish s (encodeWriteRegister wrap s)

/-- ENCODE.WMC (R140). -/
def execEncodeWMC (_wrap : Bool) (s : State) : Host.Outcome State Fault Refusal :=
  finish s (encodeUnimplemented .wmc s)

/-- ENCODE.WMR (R141). -/
def execEncodeWMR (w : BitVec 3) (c : Cond) (wrap : Bool) (s : State) : Host.Outcome State Fault Refusal :=
  finish s (encodeWriteRegisters w c wrap s)

/-- ENCODE.RFR (R142). -/
def execEncodeRFR (_wrap : Bool) (s : State) : Host.Outcome State Fault Refusal :=
  finish s (encodeUnimplemented .rfr s)

/-- ENCODE.WFR (R143). -/
def execEncodeWFR (_wrap : Bool) (s : State) : Host.Outcome State Fault Refusal :=
  finish s (encodeUnimplemented .wfr s)

/-- ENCODE.MWR (R144). -/
def execEncodeMWR (_wrap : Bool) (s : State) : Host.Outcome State Fault Refusal :=
  finish s (encodeUnimplemented .mwr s)

/-- ENCODE.RWMR (R145). -/
def execEncodeRWMR (w : BitVec 3) (c : Cond) (wrap : Bool) (s : State) : Host.Outcome State Fault Refusal :=
  finish s (encodeReadWrite w c wrap s)

/-- ENCODE.RFQ (R146). -/
def execEncodeRFQ (_wrap : Bool) (s : State) : Host.Outcome State Fault Refusal :=
  finish s (encodeUnimplemented .rfq s)

end Sys2Proof.Machine
end

