-- ==== Sys2Proof/Machine/Marshaller.lean ====
section
/-! DEFINITION. The value marshaller's quantity command QSIZE (44_marshaller.md R185). Its checks are in
Operands, its swap in Bytes. -/

namespace Sys2Proof.Machine

/-- QSIZE (R185): the byte size is exact, so nothing wraps. -/
def qsizeCommand (w : BitVec 3) (s : State) : Except Stop Effect := do
  checkWidth w
  let size := s.a0.toNat * elemWidth w
  ensure (size % 2 == 0) .sizeOdd
  let q := size / 2
  checkQty q 65535
  return { res := some (BitVec.ofNat 64 q) }

/-- QSIZE (R185). -/
def execQsize (w : BitVec 3) (s : State) : Host.Outcome State Fault Refusal :=
  finish s (qsizeCommand w s)

end Sys2Proof.Machine
end

