-- ==== Sys2Proof/Machine/Validator.lean ====
section
/-! DEFINITION. The frame validator and the command VALIDATE (43_frame_validator.md R160 to R168). -/

namespace Sys2Proof.Machine

/-- The four checks of is_valid_frame, in order (R160 to R164): none where the frame is valid, else the reason.
The second arm of the match is not reached: five bytes have a third one. -/
def frameReason (wildcard uid : Byte) (f : List Byte) : Option FramingDetail :=
  if f.length < 5 then some .short
  else match f with
    | f0 :: f1 :: f2 :: _ =>
      if uid != wildcard && f0 != uid then some .unit
      else if !f1.getLsbD 7 && decide (f.length < f2.toNat + 5) then some .byteCount
      else if le16 (crc16 (f.take (f.length - 2))) != f.drop (f.length - 2) then some .crc
      else none
    | _ => some .short

/-- The reason number r of R160: 0 where the frame is valid. -/
def reasonCode (r : Option FramingDetail) : Byte :=
  match r with
  | none => 0
  | some d => d.code

/-- VALIDATE's result: RES[0] = valid, RES[15:8] = the reason (R165). -/
def validateResult (r : Option FramingDetail) : DWord :=
  ((reasonCode r).setWidth 64 <<< 8) ||| (if r.isNone then 1 else 0)

/-- The bytes VALIDATE reads: all of IBUF[0..LEN-1], or none where LEN < 5, since check (a) looks at no byte (R165,
corner cases; log entry 11). -/
def validateReason (s : State) : Except Stop (Option FramingDetail) :=
  if s.len.toNat < 5 then .ok (some .short)
  else do
    let f ← readIbuf s
    return frameReason s.params.wildcardUid (s.a0.setWidth 8) f

/-- VALIDATE (R165). -/
def validateCommand (s : State) : Except Stop Effect := do
  checkUnit s.a0
  checkLenRange s
  let r ← validateReason s
  return { res := some (validateResult r) }

/-- VALIDATE (R165). -/
def execValidate (s : State) : Host.Outcome State Fault Refusal :=
  finish s (validateCommand s)

end Sys2Proof.Machine
end

