-- ==== Sys2Proof/Machine/Parser.lean ====
section
/-! DEFINITION. The exception translator and the response parser: XLATE and PARSE (45_response_parser.md R200 to
R224). -/

namespace Sys2Proof.Machine

/-! ## Exception translator -/

/-- The message id of an illegal data value, refined by the function code (R201). -/
def illegalDataValueId (t : FcTable) (x : XcTable) (fc : Byte) : Byte :=
  if fc == t.wmr then 0x31
  else if fc == t.rhr || fc == t.rir then 0x32
  else if fc == t.rc || fc == t.rdi then 0x33
  else x.illegalDataValue

/-- `translate(fc, c)` (R200 to R202): the base message id of a known code is the code. -/
def translate (t : FcTable) (x : XcTable) (fc c : Byte) : Byte :=
  if c == x.illegalDataValue then illegalDataValueId t x fc
  else if x.bytes.contains c then c
  else 0xFF

/-- XLATE (R203). -/
def xlateCommand (fc : Byte) (s : State) : Except Stop Effect := do
  checkValue s.a0 255
  return { res := some ((translate s.params.fcode s.params.xcode fc (s.a0.setWidth 8)).setWidth 64) }

/-- XLATE (R203). -/
def execXlate (fc : Byte) (s : State) : Host.Outcome State Fault Refusal :=
  finish s (xlateCommand fc s)

/-! ## Response parser -/

/-- The data length a read request implies, checked (R204, R205): none for the write class, which has no data. -/
def neededLength (cls : RespClass) (w : BitVec 3) (s : State) : Except Stop (Option Nat) :=
  match cls with
  | .write => .ok none
  | .bits => do
    checkQty s.a2.toNat 65535
    checkWidth w
    checkLenAlign ((s.a2.toNat + 7) / 8) w
    return some ((s.a2.toNat + 7) / 8)
  | .regs => do
    checkQty s.a2.toNat 65535
    checkWidth w
    checkLenAlign (2 * s.a2.toNat) w
    return some (2 * s.a2.toNat)

/-- `serial_framing` (R206): the frame validator. -/
def serialReason (f : List Byte) (s : State) : Option FramingDetail :=
  frameReason s.params.wildcardUid (s.a0.setWidth 8) f

/-- `stream_framing` (R207): lengths only, and no byte count for the write class. -/
def streamReason (cls : RespClass) (f : List Byte) : Option FramingDetail :=
  match f with
  | _ :: f1 :: f2 :: _ =>
    if cls != .write && !f1.getLsbD 7 && decide (f.length < f2.toNat + 3) then some .byteCount else none
  | _ => some .short

/-- Framing by the SERIAL field (R205). -/
def framingReason (serial : Bool) (cls : RespClass) (f : List Byte) (s : State) : Option FramingDetail :=
  if serial then serialReason f s else streamReason cls f

/-- Raise a framing reason, or go on where there is none (R205 to R207). -/
def checkFraming (r : Option FramingDetail) : Except Stop Unit :=
  match r with
  | some d => raise (.framing d)
  | none => .ok ()

/-- `extract` (R210): `rest` is the frame from offset 3 on, `avail` the data bytes before the trailer. -/
def extract (bc : Byte) (rest : List Byte) (avail need : Nat) (w : BitVec 3) (c : Cond) (s : State) :
    Except Stop Effect :=
  if bc.toNat < need || avail < need then raise (.shape .shortPayload)
  else do
    checkOut need s
    return { out := some (eswap (rest.take need) (elemWidth w) (condTrue c s)) }

/-- What PARSE does with a frame that passed its framing (R205, R208 to R210). The second arm of the match is not
reached: a frame that passed has three bytes. -/
def interpret (fc : Byte) (need : Option Nat) (serial : Bool) (w : BitVec 3) (c : Cond) (f : List Byte) (s : State) :
    Except Stop Effect :=
  match f with
  | _ :: rfc :: f2 :: rest =>
    if rfc == (fc ||| 0x80) then
      raise (.protocolException f2 (translate s.params.fcode s.params.xcode fc f2))
    else if rfc != fc then raise (.shape .unexpectedFc)
    else match need with
      | none => .ok { out := some [] }
      | some k => extract f2 rest (f.length - 3 - (if serial then 2 else 0)) k w c s
  | _ => raise (.framing .short)

/-- `PARSE(fc)` for a class (R205). -/
def parseClass (n : FcName) (cls : RespClass) (w : BitVec 3) (c : Cond) (serial : Bool) (s : State) :
    Except Stop Effect := do
  checkUnit s.a0
  checkLenRange s
  let need ← neededLength cls w s
  let f ← readIbuf s
  checkFraming (framingReason serial cls f s)
  interpret (s.params.fcode.byte n) need serial w c f s

/-- `PARSE(fc)` (R205): NotImplemented before anything else where the function code has no class. -/
def parseCommand (n : FcName) (w : BitVec 3) (c : Cond) (serial : Bool) (s : State) : Except Stop Effect :=
  match respClass n with
  | none => raise .notImplemented
  | some cls => parseClass n cls w c serial s

/-- PARSE.RC (R211). -/
def execParseRC (w : BitVec 3) (c : Cond) (serial : Bool) (s : State) : Host.Outcome State Fault Refusal :=
  finish s (parseCommand .rc w c serial s)

/-- PARSE.RDI (R212). -/
def execParseRDI (w : BitVec 3) (c : Cond) (serial : Bool) (s : State) : Host.Outcome State Fault Refusal :=
  finish s (parseCommand .rdi w c serial s)

/-- PARSE.RHR (R213). -/
def execParseRHR (w : BitVec 3) (c : Cond) (serial : Bool) (s : State) : Host.Outcome State Fault Refusal :=
  finish s (parseCommand .rhr w c serial s)

/-- PARSE.RIR (R214). -/
def execParseRIR (w : BitVec 3) (c : Cond) (serial : Bool) (s : State) : Host.Outcome State Fault Refusal :=
  finish s (parseCommand .rir w c serial s)

/-- PARSE.WSC (R221). -/
def execParseWSC (serial : Bool) (s : State) : Host.Outcome State Fault Refusal :=
  finish s (parseCommand .wsc 0 .always serial s)

/-- PARSE.WSR (R222). -/
def execParseWSR (serial : Bool) (s : State) : Host.Outcome State Fault Refusal :=
  finish s (parseCommand .wsr 0 .always serial s)

/-- PARSE.WMC (R215). -/
def execParseWMC (serial : Bool) (s : State) : Host.Outcome State Fault Refusal :=
  finish s (parseCommand .wmc 0 .always serial s)

/-- PARSE.WMR (R223). -/
def execParseWMR (serial : Bool) (s : State) : Host.Outcome State Fault Refusal :=
  finish s (parseCommand .wmr 0 .always serial s)

/-- PARSE.RFR (R216). -/
def execParseRFR (serial : Bool) (s : State) : Host.Outcome State Fault Refusal :=
  finish s (parseCommand .rfr 0 .always serial s)

/-- PARSE.WFR (R217). -/
def execParseWFR (serial : Bool) (s : State) : Host.Outcome State Fault Refusal :=
  finish s (parseCommand .wfr 0 .always serial s)

/-- PARSE.MWR (R218). -/
def execParseMWR (serial : Bool) (s : State) : Host.Outcome State Fault Refusal :=
  finish s (parseCommand .mwr 0 .always serial s)

/-- PARSE.RWMR (R220). -/
def execParseRWMR (w : BitVec 3) (c : Cond) (serial : Bool) (s : State) : Host.Outcome State Fault Refusal :=
  finish s (parseCommand .rwmr w c serial s)

/-- PARSE.RFQ (R219). -/
def execParseRFQ (serial : Bool) (s : State) : Host.Outcome State Fault Refusal :=
  finish s (parseCommand .rfq 0 .always serial s)

end Sys2Proof.Machine
end

