-- ==== Sys2Proof/Machine/Dispatch.lean ====
section
/-! DEFINITION. One arm for each command: the completion step of the command (10_state.md R20). -/

namespace Sys2Proof.Machine

/-- The effect of a decoded command at its completion. -/
def exec (i : Instr) (s : State) : Host.Outcome State Fault Refusal :=
  match i with
  | .crc16 => Sys2Proof.Machine.execCrc16 s
  | .swap8 cond => Sys2Proof.Machine.execSwap8 cond s
  | .swap16 cond => Sys2Proof.Machine.execSwap16 cond s
  | .swap32 cond => Sys2Proof.Machine.execSwap32 cond s
  | .swap64 cond => Sys2Proof.Machine.execSwap64 cond s
  | .swapWide w cond => Sys2Proof.Machine.execSwapWide w cond s
  | .wpswap w => Sys2Proof.Machine.execWpswap w s
  | .swapbuf w cond dst => Sys2Proof.Machine.execSwapbuf w cond dst s
  | .encodeRC wrap => Sys2Proof.Machine.execEncodeRC wrap s
  | .encodeRDI wrap => Sys2Proof.Machine.execEncodeRDI wrap s
  | .encodeRHR wrap => Sys2Proof.Machine.execEncodeRHR wrap s
  | .encodeRIR wrap => Sys2Proof.Machine.execEncodeRIR wrap s
  | .encodeWSC wrap => Sys2Proof.Machine.execEncodeWSC wrap s
  | .encodeWSR wrap => Sys2Proof.Machine.execEncodeWSR wrap s
  | .encodeWMC wrap => Sys2Proof.Machine.execEncodeWMC wrap s
  | .encodeWMR w cond wrap => Sys2Proof.Machine.execEncodeWMR w cond wrap s
  | .encodeRFR wrap => Sys2Proof.Machine.execEncodeRFR wrap s
  | .encodeWFR wrap => Sys2Proof.Machine.execEncodeWFR wrap s
  | .encodeMWR wrap => Sys2Proof.Machine.execEncodeMWR wrap s
  | .encodeRWMR w cond wrap => Sys2Proof.Machine.execEncodeRWMR w cond wrap s
  | .encodeRFQ wrap => Sys2Proof.Machine.execEncodeRFQ wrap s
  | .validate => Sys2Proof.Machine.execValidate s
  | .qsize w => Sys2Proof.Machine.execQsize w s
  | .xlate fc => Sys2Proof.Machine.execXlate fc s
  | .parseRC w cond serial => Sys2Proof.Machine.execParseRC w cond serial s
  | .parseRDI w cond serial => Sys2Proof.Machine.execParseRDI w cond serial s
  | .parseRHR w cond serial => Sys2Proof.Machine.execParseRHR w cond serial s
  | .parseRIR w cond serial => Sys2Proof.Machine.execParseRIR w cond serial s
  | .parseWSC serial => Sys2Proof.Machine.execParseWSC serial s
  | .parseWSR serial => Sys2Proof.Machine.execParseWSR serial s
  | .parseWMC serial => Sys2Proof.Machine.execParseWMC serial s
  | .parseWMR serial => Sys2Proof.Machine.execParseWMR serial s
  | .parseRFR serial => Sys2Proof.Machine.execParseRFR serial s
  | .parseWFR serial => Sys2Proof.Machine.execParseWFR serial s
  | .parseMWR serial => Sys2Proof.Machine.execParseMWR serial s
  | .parseRWMR w cond serial => Sys2Proof.Machine.execParseRWMR w cond serial s
  | .parseRFQ serial => Sys2Proof.Machine.execParseRFQ serial s

end Sys2Proof.Machine
end

