-- ==== Sys2Proof/Machine/Engine.lean ====
section
/-! DEFINITION. The engine's completion step, what each event does, and how a command word is placed for the next
step (10_state.md R20, R22; 30_encoding.md R88). -/

namespace Sys2Proof.Machine

/-- The completion step: PEND decoded and executed; a word that is no command completes with CommandError (R88,
R240). -/
def completePending (s : State) : Host.Outcome State Fault Refusal :=
  match decode s.params.fcode s.pend with
  | .ok i => exec i s
  | .error d => .next (s.raiseOutcome (.command d))

/-- The engine's turn: the completion step while busy, no step while idle (R20). -/
def engineStep (s : State) : Host.Outcome State Fault Refusal :=
  if s.busy then completePending s else .next s

/-- One event at the block's ports. -/
def applyEvent (e : Event) (s : State) : Host.Outcome State Fault Refusal :=
  match e with
  | .read addr n => hostRead addr n s
  | .write addr n data => hostWrite addr n data s
  | .reset => .next (resetBlock s)
  | .complete => engineStep s

/-- The state in which the engine's turn is next and its pending command is this word: what a host write of the
word to CMD at an idle block leaves (R22), the completion coming next (log entry 5). -/
def placeCommand (s : State) (v : Word) : State :=
  { s.startCommand v with schedule := .complete :: s.schedule }

end Sys2Proof.Machine
end

