-- ==== Sys2Proof/Machine/Step.lean ====
section
/-! DEFINITION. One step of the machine: the next event of the schedule, or the engine's turn where none is left
(10_state.md R20, 70_reset_and_hazards.md R278). -/

namespace Sys2Proof.Machine

/-- One step. With no event left a pending command completes (the fairness of R278, log entry 4), and an idle block
stays as it is (log entry 15). -/
def step (s : State) : Host.Outcome State Fault Refusal :=
  match s.schedule with
  | [] => engineStep s
  | e :: rest => applyEvent e { s with schedule := rest }

/-- The state whose next step completes the command word w: the block fetches nothing, so the word goes where a
host write to CMD puts it, and the engine's turn comes next (log entry 5). -/
def State.withFetchWord (s : State) (nbits w : Nat) : State :=
  placeCommand s (BitVec.ofNat 32 (w % 2 ^ nbits))

end Sys2Proof.Machine
end

