-- ==== Sys2Proof/Machine/Assembler.lean ====
section
/-! DEFINITION. The assembler's syntax as data, its pseudo-commands, and the host macro RUN (30_encoding.md R93, R94).
Not part of the block; a line is given by its mnemonic and options, not by characters. -/

namespace Sys2Proof.Machine

/-- The mnemonics of R93, with their suffixes. -/
inductive Mnemonic
  | crc16
  | swap8
  | swap16
  | swap32
  | swap64
  | swap
  | wpswap
  | swapbuf
  | encode (n : FcName)
  | validate
  | qsize
  | xlate
  | parse (n : FcName)
  deriving DecidableEq, Repr

/-- The options of a line (R93). `w` is the width code that a width suffix, `w=` or `W=` gives. -/
structure AsmOptions where
  w : Option (BitVec 3) := none
  cond : Option Cond := none
  rtu : Bool := false
  ibuf : Bool := false
  fc : Option Byte := none
  deriving DecidableEq, Repr

/-- An option is absent (R93: an option a line does not allow). -/
def AsmOptions.lacks (o : AsmOptions) (w cond rtu ibuf fc : Bool) : Bool :=
  (!w || o.w.isNone) && (!cond || o.cond.isNone) && (!rtu || !o.rtu) && (!ibuf || !o.ibuf) && (!fc || o.fc.isNone)

/-- The width code w=1, 2, 4 or 8 stands for (R93). -/
def widthCode (w : Nat) : Option (BitVec 3) :=
  match w with
  | 1 => some 0
  | 2 => some 1
  | 4 => some 2
  | 8 => some 3
  | _ => none

/-- The command a line stands for; an absent option is 0, but for WPSWAP, whose W is 2; none where an option is
missing or not allowed (R93). -/
def assemble (m : Mnemonic) (o : AsmOptions) : Option Instr :=
  let w := o.w.getD 0
  let c := o.cond.getD .always
  match m with
  | .crc16 => if o.lacks true true true true true then some .crc16 else none
  | .swap8 => if o.lacks true false true true true then some (.swap8 c) else none
  | .swap16 => if o.lacks true false true true true then some (.swap16 c) else none
  | .swap32 => if o.lacks true false true true true then some (.swap32 c) else none
  | .swap64 => if o.lacks true false true true true then some (.swap64 c) else none
  | .swap => if o.lacks false false true true true && o.w.isSome then some (buildSwap w c) else none
  | .wpswap => if o.lacks false true true true true then some (.wpswap (o.w.getD 2)) else none
  | .swapbuf => if o.lacks false false true false true && o.w.isSome then some (.swapbuf w c o.ibuf) else none
  | .encode n =>
    if o.lacks (!n.carriesWriteData) (!n.carriesWriteData) false true true then some (buildEncode n w c o.rtu) else none
  | .validate => if o.lacks true true true true true then some .validate else none
  | .qsize => if o.lacks false true true true true && o.w.isSome then some (.qsize w) else none
  | .xlate => if o.lacks true true true true false then o.fc.map .xlate else none
  | .parse n =>
    if o.lacks (!n.returnsData) (!n.returnsData) false true true then some (buildParse n w c o.rtu) else none

/-- The pseudo-commands of R94; `w` is a width code. -/
inductive Pseudo
  | hton16
  | hton32
  | hton64
  | mswap (w : BitVec 3)
  | mswapin (w : BitVec 3)
  | rtu (n : FcName) (w : BitVec 3) (cond : Cond)
  | checkframe
  deriving DecidableEq, Repr

/-- The expansions of R94. -/
def expand : Pseudo → Instr
  | .hton16 => .swap16 .host
  | .hton32 => .swap32 .host
  | .hton64 => .swap64 .host
  | .mswap w => .swapbuf w .swap false
  | .mswapin w => .swapbuf w .swap true
  | .rtu n w c => buildEncode n w c true
  | .checkframe => .validate

/-- The host macro RUN (R94): write the word to CMD, then read STATUS until BUSY reads 0. `polls` reads come before the
completion, one after it. -/
def runMacro (p : Params) (v : Word) (polls : Nat) : List Event :=
  .write p.base 4 (v.setWidth 64) :: (List.replicate polls (.read (p.base + 4) 4) ++ [.complete, .read (p.base + 4) 4])

end Sys2Proof.Machine
end

