-- ==== Sys2Proof/Safety.lean ====
section
/-! DEFINITION. What counts as a safe run, in the terms claims use: runs, launch premises, the end of a run
(70_reset_and_hazards.md R272, R282, R284), and the invariant every step keeps. -/

namespace Sys2Proof.Machine

/-- k steps, stopping at the first fault or refusal. -/
def run : Nat → State → Host.Outcome State Fault Refusal
  | 0, s => .next s
  | k + 1, s =>
    match step s with
    | .next t => run k t
    | .fault f => .fault f
    | .refused r => .refused r

/-- No step of the run faults: no model fault is recorded (R255, R282). -/
def State.SafeRun (s : State) : Prop :=
  ∀ k, ∃ t, run k s = .next t

/-- The host wrote every byte of IBUF below LEN since the last reset (R272 item 4, R284). LEN may be over IBUF_BYTES
(10_state.md R26); IBUF has IBUF_BYTES bytes. -/
def State.InputReady (s : State) : Prop :=
  ∀ i, i < s.len.toNat → i < s.params.ibufBytes → (bufRead s.ibuf i).isSome = true

/-- A launch premise: nothing in flight, nothing dropped, the input bytes written (R284). -/
structure State.Launchable (s : State) : Prop where
  idle : s.busy = false
  notDropped : s.dropped = false
  inputReady : s.InputReady

/-- The end of a run: no access left and no command pending (R282). -/
def State.final (s : State) : Bool :=
  !s.busy && s.schedule.isEmpty

/-- The invariant of the block. Parameters are in range (R7); both buffers are in canonical form and inside their sizes
(R30, R31); KIND and DETAIL are a pair the block writes (R241 to R247); PEND and CMD agree (R32); OLEN counts
bytes of OBUF that are there (R27). -/
structure State.Inv (s : State) : Prop where
  paramsLegal : s.params.legal = true
  ibufWf : bufWf s.ibuf = true
  obufWf : bufWf s.obuf = true
  ibufBelow : bufBelow s.params.ibufBytes s.ibuf = true
  obufBelow : bufBelow s.params.obufBytes s.obuf = true
  outcome : outcomeLegal s.kind s.detail = true
  pendIsCmd : s.pend = s.cmd
  olenLe : s.olen.toNat ≤ s.params.obufBytes
  outputThere : ∀ i, i < s.olen.toNat → (bufRead s.obuf i).isSome = true

end Sys2Proof.Machine
end

