-- ==== Sys2Proof/Certificates/Slice0/Obligations.lean ====
section
/-! DEFINITION. The statements about the block, each a Prop, and the words they are written in (namespace
Sys2Proof.Claims). The words restate the spec on numbers and indexes, apart from the model's own forms, wherever
that is possible. -/

namespace Sys2Proof.Claims

open Sys2Proof.Machine

/-! ## Words -/

/-- The state with STATUS as an OK completion leaves it, everything else as it was. -/
def okState (s : State) : State :=
  { s with kind := 0, detail := 0, busy := false }

/-- The command completes with this KIND and DETAIL and changes nothing but STATUS. -/
def Raises (i : Instr) (s : State) (kind : BitVec 4) (detail : BitVec 8) : Prop :=
  exec i s = .next { s with kind := kind, detail := detail, busy := false }

/-- The command completes OK and writes this value to RES and nothing else but STATUS. -/
def ResultIs (i : Instr) (s : State) (v : DWord) : Prop :=
  exec i s = .next { okState s with res := v }

/-- LEN and IBUF hold this byte sequence, which fits in IBUF. -/
def InputIs (s : State) (f : List Byte) : Prop :=
  s.len.toNat = f.length ∧ f.length ≤ s.params.ibufBytes ∧ ∀ i, i < f.length → bufRead s.ibuf i = f[i]?

/-- The command completes OK and its output is this byte sequence: OBUF[0..len-1] and OLEN; every other byte of OBUF
and everything else but STATUS is as before. -/
def OutputIs (i : Instr) (s : State) (f : List Byte) : Prop :=
  ∃ t, exec i s = .next t ∧
    t = { okState s with obuf := t.obuf, olen := BitVec.ofNat 32 f.length } ∧
    ∀ j, bufRead t.obuf j = if j < f.length then f[j]? else bufRead s.obuf j

/-- Byte i of a sequence (0 past its end). -/
def at' (f : List Byte) (i : Nat) : Byte := f.getD i 0

/-- be16 of a number below 65536 (00_scope.md R9). -/
def hiLo (v : Nat) : List Byte := [BitVec.ofNat 8 (v / 256), BitVec.ofNat 8 v]

/-- le16 of a number below 65536 (R9). -/
def loHi (v : Nat) : List Byte := [BitVec.ofNat 8 v, BitVec.ofNat 8 (v / 256)]

/-- The condition of COND holds (41_byte_order.md R111). -/
def holds (c : Cond) (s : State) : Bool :=
  c == .always || (c == .host && s.hostLE) || (c == .swap && s.swap)

/-- `[u] ++ pdu ++ le16(crc16([u] ++ pdu))` with WRAP, else the PDU (42_frame_codec.md R131). -/
def wire (wrap : Bool) (u : Byte) (pdu : List Byte) : List Byte :=
  if wrap then [u] ++ pdu ++ loHi (crc16 ([u] ++ pdu)).toNat else pdu

/-- The command's output is the wire form of this PDU, or OUT_OVERFLOW where that does not fit (R131, R132). -/
def Sends (i : Instr) (s : State) (wrap : Bool) (pdu : List Byte) : Prop :=
  ((wire wrap (s.a0.setWidth 8) pdu).length ≤ s.params.obufBytes →
    OutputIs i s (wire wrap (s.a0.setWidth 8) pdu)) ∧
  (s.params.obufBytes < (wire wrap (s.a0.setWidth 8) pdu).length → Raises i s 1 9)

/-- is_valid_frame by indexes and numbers (43_frame_validator.md R160). -/
def reasonOf (wildcard uid : Byte) (f : List Byte) : Nat :=
  if f.length < 5 then 1
  else if uid ≠ wildcard ∧ at' f 0 ≠ uid then 2
  else if (at' f 1).getLsbD 7 = false ∧ f.length < (at' f 2).toNat + 5 then 3
  else if (crc16 (f.take (f.length - 2))).toNat ≠
      (at' f (f.length - 2)).toNat ||| ((at' f (f.length - 1)).toNat <<< 8) then 4
  else 0

/-- PARSE's framing by indexes and numbers: serial (45_response_parser.md R206) or stream (R207). -/
def framingOf (serial isWrite : Bool) (s : State) (f : List Byte) : Nat :=
  if serial then reasonOf s.params.wildcardUid (s.a0.setWidth 8) f
  else if f.length < 3 then 1
  else if isWrite = false ∧ (at' f 1).getLsbD 7 = false ∧ f.length < (at' f 2).toNat + 3 then 3
  else 0

/-- A PARSE that extracts data: its function-code byte and the data length the request implies (R204). -/
def parseReads (w : BitVec 3) (c : Cond) (serial : Bool) (s : State) : List (Instr × Byte × Nat) :=
  [(.parseRC w c serial, s.params.fcode.rc, (s.a2.toNat + 7) / 8),
   (.parseRDI w c serial, s.params.fcode.rdi, (s.a2.toNat + 7) / 8),
   (.parseRHR w c serial, s.params.fcode.rhr, 2 * s.a2.toNat),
   (.parseRIR w c serial, s.params.fcode.rir, 2 * s.a2.toNat),
   (.parseRWMR w c serial, s.params.fcode.rwmr, 2 * s.a2.toNat)]

/-- A PARSE of the write class and its function-code byte (R204). -/
def parseWrites (serial : Bool) (s : State) : List (Instr × Byte) :=
  [(.parseWSC serial, s.params.fcode.wsc), (.parseWSR serial, s.params.fcode.wsr),
   (.parseWMR serial, s.params.fcode.wmr)]

/-- The operands of a reading PARSE pass its checks (R205). -/
def ReadOperandsOk (w : BitVec 3) (need : Nat) (s : State) : Prop :=
  s.a0.toNat ≤ 255 ∧ s.a2.toNat ≤ 65535 ∧ w.toNat ≤ 3 ∧ need % 2 ^ w.toNat = 0

/-- The commands whose function code is recognised and not implemented (30_encoding.md R82). -/
def unimplemented (b : Bool) : List Instr :=
  [.encodeWMC b, .encodeRFR b, .encodeWFR b, .encodeMWR b, .encodeRFQ b,
   .parseWMC b, .parseRFR b, .parseWFR b, .parseMWR b, .parseRFQ b]

/-- The ENCODE commands of implemented function codes. -/
def encodes (w : BitVec 3) (c : Cond) (wrap : Bool) : List Instr :=
  [.encodeRC wrap, .encodeRDI wrap, .encodeRHR wrap, .encodeRIR wrap, .encodeWSC wrap, .encodeWSR wrap,
   .encodeWMR w c wrap, .encodeRWMR w c wrap]

/-- The first check of prep_write that fails, as a detail code; 0 where none does (42_frame_codec.md R147). -/
def prepDetail (qmax : Nat) (w : BitVec 3) (s : State) : BitVec 8 :=
  if 3 < w.toNat then 5
  else if s.params.ibufBytes < s.len.toNat then 6
  else if s.len.toNat % 2 ^ w.toNat ≠ 0 then 10
  else if s.len.toNat < 2 ∨ s.len.toNat % 2 ≠ 0 then 4
  else if qmax < s.len.toNat / 2 then 3
  else if 255 < s.len.toNat then 8
  else 0

/-- The operand checks of ENCODE.WMR and of ENCODE.RWMR before prep_write pass (R141, R145). -/
def WmrOperandsOk (s : State) : Prop := s.a0.toNat ≤ 255 ∧ s.a1.toNat ≤ 65535
def RwmrOperandsOk (s : State) : Prop :=
  s.a0.toNat ≤ 255 ∧ s.a1.toNat ≤ 65535 ∧ s.a2.toNat ≤ s.params.qmaxRwRead.val ∧ s.a3.toNat ≤ 65535

/-- The quantity, byte count and data of a write request (R141, R145). -/
def writePart (w : BitVec 3) (c : Cond) (s : State) (f : List Byte) : List Byte :=
  hiLo (f.length / 2) ++ [BitVec.ofNat 8 (f.length / 2 * 2)] ++ eswap f (2 ^ w.toNat) (holds c s)

/-- The two states agree on everything a completion reads: parameters, CFG, LEN, A0 to A3 and IBUF[0..LEN-1]
(70_reset_and_hazards.md R281). -/
def SameInputs (s s' : State) : Prop :=
  s.params = s'.params ∧ s.hostLE = s'.hostLE ∧ s.swap = s'.swap ∧ s.len = s'.len ∧ s.a0 = s'.a0 ∧ s.a1 = s'.a1 ∧
  s.a2 = s'.a2 ∧ s.a3 = s'.a3 ∧ ∀ i, i < s.len.toNat → bufRead s.ibuf i = bufRead s'.ibuf i

/-- The 32-bit registers that read their stored value in every state, by offset (20_memory.md R51). -/
def storedRegisters (s : State) : List (Nat × Word) :=
  [(0x000, s.cmd), (0x008, BitVec.ofNat 32 (s.hostLE.toNat + 2 * s.swap.toNat)), (0x00C, s.len),
   (0x020, BitVec.ofNat 32 s.a0.toNat), (0x024, BitVec.ofNat 32 (s.a0.toNat / 2 ^ 32)),
   (0x028, BitVec.ofNat 32 s.a1.toNat), (0x02C, BitVec.ofNat 32 (s.a1.toNat / 2 ^ 32)),
   (0x030, BitVec.ofNat 32 s.a2.toNat), (0x034, BitVec.ofNat 32 (s.a2.toNat / 2 ^ 32)),
   (0x038, BitVec.ofNat 32 s.a3.toNat), (0x03C, BitVec.ofNat 32 (s.a3.toNat / 2 ^ 32))]

/-- The registers whose value only an idle block gives (10_state.md R24, R36). -/
def resultRegisters (s : State) : List (Nat × Word) :=
  [(0x004, BitVec.ofNat 32 (2 * s.dropped.toNat + 16 * s.kind.toNat + 256 * s.detail.toNat)), (0x010, s.olen),
   (0x018, BitVec.ofNat 32 s.res.toNat), (0x01C, BitVec.ofNat 32 (s.res.toNat / 2 ^ 32))]

/-- Byte j of a word, on numbers. -/
def wordByte (v : Word) (j : Nat) : Nat := v.toNat / 2 ^ (8 * j) % 2 ^ 8

/-- A 64-bit register with its low or high word replaced. -/
def lowSet (old : DWord) (v : Word) : DWord := BitVec.ofNat 64 (old.toNat / 2 ^ 32 * 2 ^ 32 + v.toNat)
def highSet (old : DWord) (v : Word) : DWord := BitVec.ofNat 64 (v.toNat * 2 ^ 32 + old.toNat % 2 ^ 32)

/-- What a 32-bit write of v to a writable register does at an idle block, by offset (20_memory.md R51). -/
def writtenRegisters (s : State) (v : Word) : List (Nat × State) :=
  [(0x000, { s with cmd := v, pend := v, busy := true }),
   (0x008, { s with hostLE := v.getLsbD 0, swap := v.getLsbD 1 }), (0x00C, { s with len := v }),
   (0x020, { s with a0 := lowSet s.a0 v }), (0x024, { s with a0 := highSet s.a0 v }),
   (0x028, { s with a1 := lowSet s.a1 v }), (0x02C, { s with a1 := highSet s.a1 v }),
   (0x030, { s with a2 := lowSet s.a2 v }), (0x034, { s with a2 := highSet s.a2 v }),
   (0x038, { s with a3 := lowSet s.a3 v }), (0x03C, { s with a3 := highSet s.a3 v })]

/-- An offset of the window where nothing stands (R51, R54). -/
def ReservedOffset (p : Params) (off : Nat) : Prop :=
  off = 0x014 ∨ (0x040 ≤ off ∧ off < 0x1000) ∨ (0x1000 + p.ibufBytes ≤ off ∧ off < 0x2000) ∨
  (0x2000 + p.obufBytes ≤ off ∧ off < 0x3000)

/-- A legal access: aligned 32-bit in the window, or 8-bit in a buffer window (R52). -/
def LegalAccess (p : Params) (off n : Nat) : Prop :=
  (n = 4 ∧ off % 4 = 0 ∧ off < 0x3000) ∨
  (n = 1 ∧ ((0x1000 ≤ off ∧ off < 0x1000 + p.ibufBytes) ∨ (0x2000 ≤ off ∧ off < 0x2000 + p.obufBytes)))

/-- A host access, read or write, of n bytes at an offset of the window. -/
def AccessAt (e : Event) (s : State) (off n : Nat) : Prop :=
  e = .read (s.params.base + off) n ∨ ∃ v, e = .write (s.params.base + off) n v

/-- A legal host access. -/
def LegalEvent (s : State) (e : Event) : Prop :=
  ∃ off n, LegalAccess s.params off n ∧ AccessAt e s off n

/-- The command of a word uses COND, over the default FCODE (30_encoding.md R87). -/
def usesCond (op fc : Nat) : Bool :=
  decide (op ∈ [0x02, 0x04]) || (op == 0x05 && decide (fc ∈ [0x10, 0x17])) ||
    (op == 0x09 && decide (fc ∈ [0x01, 0x02, 0x03, 0x04, 0x17]))

/-- The first check of 30_encoding.md R88 a word fails, by the numbers in its fields, over the default FCODE. -/
def refusalOf (v : Word) : Option DecodeError :=
  let op := v.toNat % 2 ^ 8
  let fc := v.toNat / 2 ^ 8 % 2 ^ 8
  let w := v.toNat / 2 ^ 16 % 2 ^ 3
  let cond := v.toNat / 2 ^ 20 % 2 ^ 2
  let reserved := v.toNat / 2 ^ 19 % 2 ≠ 0 ∨ v.toNat / 2 ^ 22 % 2 ^ 2 ≠ 0 ∨ v.toNat / 2 ^ 27 ≠ 0
  if op = 0 ∨ 9 < op then some .unknownOp
  else if (op = 5 ∨ op = 9) ∧
      fc ∉ [0x01, 0x02, 0x03, 0x04, 0x05, 0x06, 0x0F, 0x10, 0x14, 0x15, 0x16, 0x17, 0x18] then some .unknownFc
  else if reserved ∨ (fc ≠ 0 ∧ op ∉ [5, 8, 9]) ∨ (w ≠ 0 ∧ usesCond op fc = false ∧ op ∉ [3, 7]) ∨
      (cond ≠ 0 ∧ usesCond op fc = false) ∨ (v.toNat / 2 ^ 24 % 2 = 1 ∧ op ≠ 5) ∨
      (v.toNat / 2 ^ 25 % 2 = 1 ∧ op ≠ 9) ∨ (v.toNat / 2 ^ 26 % 2 = 1 ∧ op ≠ 4) then some .reservedField
  else if usesCond op fc ∧ cond = 3 then some .badCond
  else none

/-- One round of the CRC on a number (40_checksum.md R100). -/
def roundNat (acc : Nat) : Nat := if acc % 2 = 1 then (acc / 2) ^^^ 0xA001 else acc / 2

/-- k rounds. -/
def roundsNat : Nat → Nat → Nat
  | 0, acc => acc
  | k + 1, acc => roundsNat k (roundNat acc)

/-- The accumulator after a byte sequence, on numbers, from 0xFFFF on (R100). -/
def crcNat (f : List Byte) : Nat := f.foldl (fun acc b => roundsNat 8 (acc ^^^ b.toNat)) 0xFFFF

/-- A sequence with one bit of byte i flipped. -/
def flipBit (f : List Byte) (i k : Nat) : List Byte := f.set i (at' f i ^^^ (1#8 <<< k))

/-- The message id of an exception code, over the default tables, by the literal values of 45_response_parser.md R202. -/
def messageIdDefault (fc c : Nat) : Nat :=
  if c = 0x03 then
    if fc = 0x10 then 0x31
    else if fc = 0x03 ∨ fc = 0x04 then 0x32
    else if fc = 0x01 ∨ fc = 0x02 then 0x33
    else 0x03
  else if c ∈ [0x01, 0x02, 0x04, 0x05, 0x06, 0x08, 0x0A, 0x0B] then c
  else 0xFF

end Sys2Proof.Claims

open Sys2Proof Sys2Proof.Machine Sys2Proof.Claims

/-! ## Reset and steps -/

/-- 10_state.md R34: the reset value of every piece of state. -/
def Obligations.ResetGivesEveryPieceItsValue : Prop :=
  let s := State.reset
  s.cmd = 0 ∧ s.pend = 0 ∧ s.busy = false ∧ s.dropped = false ∧ s.kind = 0 ∧ s.detail = 0 ∧ s.hostLE = false ∧
  s.swap = false ∧ s.len = 0 ∧ s.olen = 0 ∧ s.res = 0 ∧ s.a0 = 0 ∧ s.a1 = 0 ∧ s.a2 = 0 ∧ s.a3 = 0 ∧
  (∀ i, bufRead s.ibuf i = none) ∧ (∀ i, bufRead s.obuf i = none)

/-- 70_reset_and_hazards.md R270: the reset event, busy or not, gives every piece of state its reset value and abandons a
pending command. The model's own fields stay (log entry 16). -/
def Obligations.ResetEventRestoresAndAbandons : Prop :=
  ∀ (s : State) (rest : List Event), s.schedule = .reset :: rest →
    step s = .next { s with
      cmd := 0, pend := 0, busy := false, dropped := false, kind := 0, detail := 0, hostLE := false, swap := false,
      len := 0, olen := 0, res := 0, a0 := 0, a1 := 0, a2 := 0, a3 := 0, ibuf := [], obuf := [], schedule := rest }

/-- The engine's turn: a pending word that decodes to i runs exec of i (10_state.md R20; 30_encoding.md R88). The turn
comes where the schedule says so or holds nothing more (log entries 3 and 4). -/
def Obligations.StepRunsTheDecodedCommand : Prop :=
  ∀ (s : State) (i : Instr) (rest : List Event), s.busy = true →
    (s.schedule = [] ∧ rest = [] ∨ s.schedule = .complete :: rest) →
    decode s.params.fcode s.pend = .ok i →
    step s = exec i { s with schedule := rest }

/-- A pending word that is no command completes with CommandError and its detail, and changes nothing but STATUS
(30_encoding.md R88; 60_exceptions.md R247). -/
def Obligations.StepRaisesCommandErrorOnOtherWords : Prop :=
  ∀ (s : State) (e : DecodeError) (rest : List Event), s.busy = true →
    (s.schedule = [] ∧ rest = [] ∨ s.schedule = .complete :: rest) →
    decode s.params.fcode s.pend = .error e →
    step s = .next { s with
      schedule := rest, kind := 6, busy := false
      detail := (match e with
        | .unknownOp => 1
        | .unknownFc => 2
        | .reservedField => 3
        | .badCond => 4) }

/-- Nothing happens at an idle block with no event left, and an engine turn of an idle block does nothing (10_state.md
R20: while BUSY = 0 the engine has no step; log entry 15). -/
def Obligations.IdleEngineHasNoStep : Prop :=
  ∀ (s : State) (rest : List Event), s.busy = false →
    (s.schedule = [] → step s = .next s) ∧ (s.schedule = .complete :: rest → step s = .next { s with schedule := rest })

/-- The invariant holds after reset. -/
def Obligations.ResetMeetsTheInvariant : Prop := State.reset.Inv

/-- Every step keeps the invariant, from every state that meets it, and changes no parameter (00_scope.md R7,
10_state.md R21). -/
def Obligations.EveryStepKeepsTheInvariant : Prop :=
  ∀ s t : State, s.Inv → step s = .next t → t.Inv ∧ t.params = s.params

/-! ## Encoding -/

/-- Decode of encode gives every well-formed command back, for every legal function-code table. -/
def Obligations.DecodeOfEncodeIsTheCommand : Prop :=
  ∀ (t : FcTable) (i : Instr), t.legal = true → i.wf = true → decode t (encode t i) = .ok i

/-- A word that decodes is the encoding of what it decodes to, which is well formed: no two words name one command. -/
def Obligations.EncodeOfDecodeIsTheWord : Prop :=
  ∀ (t : FcTable) (v : Word) (i : Instr), decode t v = .ok i → encode t i = v ∧ i.wf = true

/-- 30_encoding.md R89: a word names exactly the row of its command in the opcode table, or no row where it does not
decode. -/
def Obligations.EveryWordNamesItsRowOrNone : Prop :=
  ∀ v : Word,
    (opcodeTable.filter (fun r => r.names v)).map (fun r => r.mnemonic) =
      match decode FcTable.default v with
      | .ok i => [i.mnemonic]
      | .error _ => []

/-- 30_encoding.md R88: a word is refused by the first check that fails, and by no other; the checks on the bits of the
word. -/
def Obligations.DecodeChecksInOrder : Prop :=
  ∀ v : Word,
    match decode FcTable.default v with
    | .ok _ => refusalOf v = none
    | .error e => refusalOf v = some e

/-- Words written out from the spec's encodings, one for each operation and a refusal of each kind. -/
def Obligations.SpecWordsDecode : Prop :=
  let d := decode FcTable.default
  d 0x00000001 = .ok .crc16 ∧ d 0x00110002 = .ok (.swap16 .host) ∧ d 0x00040002 = .ok (.swapWide 4 .always) ∧
  d 0x00020003 = .ok (.wpswap 2) ∧ d 0x04010004 = .ok (.swapbuf 1 .always true) ∧ d 0x01000305 = .ok (.encodeRHR true) ∧
  d 0x01211005 = .ok (.encodeWMR 1 .swap true) ∧ d 0x00000006 = .ok .validate ∧ d 0x00020007 = .ok (.qsize 2) ∧
  d 0x00009908 = .ok (.xlate 0x99) ∧ d 0x02210309 = .ok (.parseRHR 1 .swap true) ∧ d 0x02001809 = .ok (.parseRFQ true) ∧
  d 0x0000000A = .error .unknownOp ∧ d 0x00000705 = .error .unknownFc ∧ d 0x00390002 = .error .reservedField ∧
  d 0x00301709 = .error .badCond

/-! ## The checksum -/

/-- 40_checksum.md R100: crc16 by the rounds on numbers. -/
def Obligations.CrcFollowsTheRounds : Prop :=
  ∀ f : List Byte, (crc16 f).toNat = crcNat f

/-- 40_checksum.md R101 item 3: a sequence with its checksum appended, low byte first, has checksum 0. -/
def Obligations.CrcResidueIsZero : Prop :=
  ∀ f : List Byte, crc16 (f ++ loHi (crc16 f).toNat) = 0

/-- 40_checksum.md R101 item 4: two sequences of equal length that differ in exactly one byte have different
checksums. -/
def Obligations.CrcSeparatesOneByteChanges : Prop :=
  ∀ (p q : List Byte) (a b : Byte), a ≠ b → crc16 (p ++ a :: q) ≠ crc16 (p ++ b :: q)

/-- 40_checksum.md R102: CRC16. -/
def Obligations.Crc16WritesTheChecksum : Prop :=
  ∀ s : State,
    (∀ f, InputIs s f → ResultIs .crc16 s (BitVec.ofNat 64 (crc16 f).toNat)) ∧
    (s.params.ibufBytes < s.len.toNat → Raises .crc16 s 1 6)

/-! ## Byte order -/

/-- 41_byte_order.md R110: byte i of swap_n(v) is byte n-1-i of v. -/
def Obligations.SwapReversesTheBytes : Prop :=
  (∀ (v : BitVec 16) (i : Nat), i < 2 → byteOf (swap2 v) i = byteOf v (1 - i)) ∧
  (∀ (v : BitVec 32) (i : Nat), i < 4 → byteOf (swap4 v) i = byteOf v (3 - i)) ∧
  (∀ (v : BitVec 64) (i : Nat), i < 8 → byteOf (Machine.swap8 v) i = byteOf v (7 - i))

/-- 41_byte_order.md R112 to R116: the scalar swaps, with the condition of R111; SWAP.W4-7 always raises
ValidationError(WIDTH). -/
def Obligations.ScalarSwapsWriteRes : Prop :=
  ∀ (s : State) (w : BitVec 3) (c : Cond),
    ResultIs (.swap8 c) s ((s.a0.setWidth 8).setWidth 64) ∧
    ResultIs (.swap16 c) s ((if holds c s then swap2 (s.a0.setWidth 16) else s.a0.setWidth 16).setWidth 64) ∧
    ResultIs (.swap32 c) s ((if holds c s then swap4 (s.a0.setWidth 32) else s.a0.setWidth 32).setWidth 64) ∧
    ResultIs (.swap64 c) s (if holds c s then Machine.swap8 s.a0 else s.a0) ∧
    Raises (.swapWide w c) s 1 5

/-- 41_byte_order.md R117, R118: WPSWAP, a rotation by 16 of A0[31:0]; other widths raise WIDTH. -/
def Obligations.WordPairSwapRotates : Prop :=
  ∀ (s : State) (w : BitVec 3),
    (w = 2 → ResultIs (.wpswap w) s
      (BitVec.ofNat 64 (s.a0.toNat % 2 ^ 16 * 2 ^ 16 + s.a0.toNat / 2 ^ 16 % 2 ^ 16))) ∧
    (w ≠ 2 → Raises (.wpswap w) s 1 5)

/-- 41_byte_order.md R119: eswap by indexes. -/
def Obligations.ElementSwapByIndex : Prop :=
  ∀ (f : List Byte) (w : Nat), w ∈ [1, 2, 4, 8] → f.length % w = 0 →
    eswap f w false = f ∧ (eswap f w true).length = f.length ∧
    ∀ i, i < f.length → (eswap f w true)[i]? = f[i / w * w + (w - 1 - i % w)]?

/-- 41_byte_order.md R121: the involution laws, and the composite of swap_4 and wpswap. -/
def Obligations.SwapsAreInvolutions : Prop :=
  (∀ v : BitVec 16, swap2 (swap2 v) = v) ∧ (∀ v : BitVec 32, swap4 (swap4 v) = v) ∧
  (∀ v : BitVec 64, Machine.swap8 (Machine.swap8 v) = v) ∧ (∀ v : BitVec 32, Machine.wpswap (Machine.wpswap v) = v) ∧
  (∀ v : BitVec 32, swap4 (Machine.wpswap v) = Machine.wpswap (swap4 v)) ∧
  (∀ (f : List Byte) (w : Nat) (c : Bool), w ∈ [1, 2, 4, 8] → f.length % w = 0 → eswap (eswap f w c) w c = f)

/-- 41_byte_order.md R120: SWAPBUF, its errors in order, its output, and the bytes put back into IBUF. -/
def Obligations.SwapbufSwapsElements : Prop :=
  ∀ (s : State) (w : BitVec 3) (c : Cond) (dst : Bool),
    (3 < w.toNat → Raises (.swapbuf w c dst) s 1 5) ∧
    (w.toNat ≤ 3 → s.params.ibufBytes < s.len.toNat → Raises (.swapbuf w c dst) s 1 6) ∧
    (w.toNat ≤ 3 → s.len.toNat ≤ s.params.ibufBytes → s.len.toNat % 2 ^ w.toNat ≠ 0 →
      Raises (.swapbuf w c dst) s 1 10) ∧
    ∀ f, w.toNat ≤ 3 → InputIs s f → f.length % 2 ^ w.toNat = 0 →
      (dst = false → f.length ≤ s.params.obufBytes →
        OutputIs (.swapbuf w c dst) s (eswap f (2 ^ w.toNat) (holds c s))) ∧
      (dst = false → s.params.obufBytes < f.length → Raises (.swapbuf w c dst) s 1 9) ∧
      (dst = true → ∃ t, exec (.swapbuf w c dst) s = .next t ∧ t = { okState s with ibuf := t.ibuf } ∧
        ∀ j, bufRead t.ibuf j =
          if j < f.length then (eswap f (2 ^ w.toNat) (holds c s))[j]? else bufRead s.ibuf j)

/-- 41_byte_order.md R121, 70_reset_and_hazards.md R277: after a SWAPBUF with DST = 1 that completes OK, the same command
completes OK again and restores IBUF. -/
def Obligations.InPlaceSwapTwiceRestores : Prop :=
  ∀ (s t : State) (w : BitVec 3) (c : Cond), exec (.swapbuf w c true) s = .next t → t.kind = 0 →
    ∃ u, exec (.swapbuf w c true) t = .next u ∧ u.kind = 0 ∧ ∀ i, bufRead u.ibuf i = bufRead s.ibuf i

/-! ## ENCODE -/

/-- 42_frame_codec.md R134 to R137: the read requests. -/
def Obligations.ReadRequestsAreBuilt : Prop :=
  ∀ (s : State) (wrap : Bool), ∀ r ∈ [
      (Instr.encodeRC wrap, s.params.fcode.rc, s.params.qmaxReadBits),
      (Instr.encodeRDI wrap, s.params.fcode.rdi, s.params.qmaxReadBits),
      (Instr.encodeRHR wrap, s.params.fcode.rhr, s.params.qmaxReadRegs),
      (Instr.encodeRIR wrap, s.params.fcode.rir, s.params.qmaxReadRegs)],
    s.a0.toNat ≤ 255 → s.a1.toNat ≤ 65535 →
      (s.a2.toNat ≤ r.2.2.val → Sends r.1 s wrap ([r.2.1] ++ hiLo s.a1.toNat ++ hiLo s.a2.toNat)) ∧
      (r.2.2.val < s.a2.toNat → Raises r.1 s 1 3)

/-- 42_frame_codec.md R138, R139: the single writes. -/
def Obligations.SingleWriteRequestsAreBuilt : Prop :=
  ∀ (s : State) (wrap : Bool), s.a0.toNat ≤ 255 → s.a1.toNat ≤ 65535 →
    (s.a2.toNat = 0 → Sends (.encodeWSC wrap) s wrap ([s.params.fcode.wsc] ++ hiLo s.a1.toNat ++ [0x00, 0x00])) ∧
    (s.a2.toNat = 1 → Sends (.encodeWSC wrap) s wrap ([s.params.fcode.wsc] ++ hiLo s.a1.toNat ++ [0xFF, 0x00])) ∧
    (1 < s.a2.toNat → Raises (.encodeWSC wrap) s 1 11) ∧
    (s.a2.toNat ≤ 65535 →
      Sends (.encodeWSR wrap) s wrap ([s.params.fcode.wsr] ++ hiLo s.a1.toNat ++ hiLo s.a2.toNat)) ∧
    (65535 < s.a2.toNat → Raises (.encodeWSR wrap) s 1 11)

/-- 42_frame_codec.md R141, R147: the write of several registers, and prep_write's errors in order. -/
def Obligations.MultipleWriteRequestsAreBuilt : Prop :=
  ∀ (s : State) (w : BitVec 3) (c : Cond) (wrap : Bool), WmrOperandsOk s →
    (prepDetail s.params.qmaxWriteRegs.val w s ≠ 0 →
      Raises (.encodeWMR w c wrap) s 1 (prepDetail s.params.qmaxWriteRegs.val w s)) ∧
    (∀ f, InputIs s f → prepDetail s.params.qmaxWriteRegs.val w s = 0 →
      Sends (.encodeWMR w c wrap) s wrap ([s.params.fcode.wmr] ++ hiLo s.a1.toNat ++ writePart w c s f))

/-- 42_frame_codec.md R145, R147: the combined read and write request, and its errors in order. -/
def Obligations.ReadWriteRequestsAreBuilt : Prop :=
  ∀ (s : State) (w : BitVec 3) (c : Cond) (wrap : Bool), s.a0.toNat ≤ 255 → s.a1.toNat ≤ 65535 →
    (s.params.qmaxRwRead.val < s.a2.toNat → Raises (.encodeRWMR w c wrap) s 1 3) ∧
    (s.a2.toNat ≤ s.params.qmaxRwRead.val → 65535 < s.a3.toNat → Raises (.encodeRWMR w c wrap) s 1 2) ∧
    (RwmrOperandsOk s → prepDetail s.params.qmaxRwWrite.val w s ≠ 0 →
      Raises (.encodeRWMR w c wrap) s 1 (prepDetail s.params.qmaxRwWrite.val w s)) ∧
    (∀ f, InputIs s f → RwmrOperandsOk s → prepDetail s.params.qmaxRwWrite.val w s = 0 →
      Sends (.encodeRWMR w c wrap) s wrap ([s.params.fcode.rwmr] ++ hiLo s.a1.toNat ++ hiLo s.a2.toNat ++
        hiLo s.a3.toNat ++ writePart w c s f))

/-- 44_marshaller.md R180, R181: a unit identifier over 255, then an address over 65535, ends every ENCODE of an
implemented function code. -/
def Obligations.EncodeChecksUnitThenAddress : Prop :=
  ∀ (s : State) (w : BitVec 3) (c : Cond) (wrap : Bool), ∀ i ∈ encodes w c wrap,
    (255 < s.a0.toNat → Raises i s 1 1) ∧ (s.a0.toNat ≤ 255 → 65535 < s.a1.toNat → Raises i s 1 2)

/-- 60_exceptions.md R246: a recognised, unimplemented function code completes with NotImplemented, whatever the
operands, LEN and IBUF hold. -/
def Obligations.UnimplementedCodesRaiseNotImplemented : Prop :=
  ∀ (s : State) (b : Bool), ∀ i ∈ unimplemented b, Raises i s 5 0

/-- 42_frame_codec.md R131 with 40_checksum.md R101: every serial request the block builds has checksum 0 over all its
bytes, and its first byte is the unit identifier. -/
def Obligations.SerialRequestsCarryTheirChecksum : Prop :=
  ∀ (s t : State) (w : BitVec 3) (c : Cond) (f : List Byte), ∀ i ∈ encodes w c true,
    s.params.legal = true → exec i s = .next t → t.kind = 0 → bufReadList t.obuf 0 t.olen.toNat = some f →
    crc16 f = 0 ∧ f.head? = some (s.a0.setWidth 8)

/-- 44_marshaller.md R188: swapping in place first and encoding without a swap gives the same outcome and the same
output as encoding with the swap. -/
def Obligations.SwapThenEncodeIsEncodeWithSwap : Prop :=
  ∀ (s s1 : State) (w : BitVec 3) (c : Cond) (wrap : Bool), exec (.swapbuf w c true) s = .next s1 → s1.kind = 0 →
    ∀ p ∈ [(Instr.encodeWMR 0 .always wrap, Instr.encodeWMR w c wrap),
        (Instr.encodeRWMR 0 .always wrap, Instr.encodeRWMR w c wrap)],
    ∃ t u, exec p.1 s1 = .next t ∧ exec p.2 s = .next u ∧
      t.kind = u.kind ∧ t.detail = u.detail ∧ t.obuf = u.obuf ∧ t.olen = u.olen ∧ t.res = u.res

/-! ## VALIDATE -/

/-- 43_frame_validator.md R160 to R164: the four checks by indexes and numbers, in order. -/
def Obligations.ValidatorFollowsItsPolicy : Prop :=
  ∀ (wildcard uid : Byte) (f : List Byte),
    (reasonCode (frameReason wildcard uid f)).toNat = reasonOf wildcard uid f ∧
    (frameReason wildcard uid f = none ↔ reasonOf wildcard uid f = 0)

/-- 43_frame_validator.md R165: VALIDATE's result and its errors in order; fewer than five bytes need not be
written. -/
def Obligations.ValidateWritesTheReason : Prop :=
  ∀ s : State,
    (255 < s.a0.toNat → Raises .validate s 1 1) ∧
    (s.a0.toNat ≤ 255 → s.params.ibufBytes < s.len.toNat → Raises .validate s 1 6) ∧
    (s.a0.toNat ≤ 255 → s.len.toNat ≤ s.params.ibufBytes → s.len.toNat < 5 → ResultIs .validate s 0x100) ∧
    (∀ f, s.a0.toNat ≤ 255 → InputIs s f →
      let r := reasonOf s.params.wildcardUid (s.a0.setWidth 8) f
      ResultIs .validate s (BitVec.ofNat 64 (256 * r + if r = 0 then 1 else 0)))

/-- 43_frame_validator.md R168: changing exactly one bit of a valid frame makes it invalid. -/
def Obligations.OneBitErrorsAreRejected : Prop :=
  ∀ (wildcard uid : Byte) (f : List Byte) (i k : Nat), frameReason wildcard uid f = none → i < f.length → k < 8 →
    frameReason wildcard uid (flipBit f i k) ≠ none

/-! ## QSIZE and XLATE -/

/-- 44_marshaller.md R185: QSIZE, exact arithmetic, its errors in order. -/
def Obligations.QsizeWritesTheQuantity : Prop :=
  ∀ (s : State) (w : BitVec 3),
    let size := s.a0.toNat * 2 ^ w.toNat
    (3 < w.toNat → Raises (.qsize w) s 1 5) ∧
    (w.toNat ≤ 3 → size % 2 = 1 → Raises (.qsize w) s 1 7) ∧
    (w.toNat ≤ 3 → size % 2 = 0 → 65535 < size / 2 → Raises (.qsize w) s 1 3) ∧
    (w.toNat ≤ 3 → size % 2 = 0 → size / 2 ≤ 65535 → ResultIs (.qsize w) s (BitVec.ofNat 64 (size / 2)))

/-- 45_response_parser.md R201, R202: translate over the default tables, for every function code and exception code;
and 0xFF is the message id of the unrecognised codes and of no other, whatever legal tables are configured. -/
def Obligations.TranslateGivesTheMessageId : Prop :=
  (∀ fc c : Byte, (Machine.translate FcTable.default XcTable.default fc c).toNat = messageIdDefault fc.toNat c.toNat) ∧
  ∀ (t : FcTable) (x : XcTable) (fc c : Byte), x.legal = true → (Machine.translate t x fc c = 0xFF ↔ c ∉ x.bytes)

/-- 45_response_parser.md R203: XLATE. -/
def Obligations.XlateWritesTheMessageId : Prop :=
  ∀ (s : State) (fc : Byte),
    (s.a0.toNat ≤ 255 →
      ResultIs (.xlate fc) s ((Machine.translate s.params.fcode s.params.xcode fc (s.a0.setWidth 8)).setWidth 64)) ∧
    (255 < s.a0.toNat → Raises (.xlate fc) s 1 11)

/-! ## PARSE -/

/-- 45_response_parser.md R205, R210: a read response that passes its framing, names the request's function code and
declares enough bytes gives its data, swapped by element; a payload over OBUF raises OUT_OVERFLOW. R221 to R223: such a
write response completes with OLEN 0 and OBUF as it was. -/
def Obligations.ParseReturnsTheData : Prop :=
  ∀ (s : State) (w : BitVec 3) (c : Cond) (serial : Bool) (f : List Byte), s.params.legal = true → InputIs s f →
    (∀ r ∈ parseReads w c serial s, ReadOperandsOk w r.2.2 s → framingOf serial false s f = 0 → at' f 1 = r.2.1 →
      r.2.2 ≤ (at' f 2).toNat →
        (r.2.2 ≤ s.params.obufBytes →
          OutputIs r.1 s (eswap ((f.drop 3).take r.2.2) (2 ^ w.toNat) (holds c s))) ∧
        (s.params.obufBytes < r.2.2 → Raises r.1 s 1 9)) ∧
    (∀ r ∈ parseWrites serial s, s.a0.toNat ≤ 255 → framingOf serial true s f = 0 → at' f 1 = r.2 →
      exec r.1 s = .next { okState s with olen := 0 })

/-- 45_response_parser.md R208: an exception frame for the request's function code ends any PARSE with
ProtocolException, the raw code in DETAIL and the message id in RES. -/
def Obligations.ParseReportsTheException : Prop :=
  ∀ (s : State) (w : BitVec 3) (c : Cond) (serial : Bool) (f : List Byte), InputIs s f →
    (∀ r ∈ parseReads w c serial s, ReadOperandsOk w r.2.2 s → framingOf serial false s f = 0 →
      at' f 1 = (r.2.1 ||| 0x80) →
      exec r.1 s = .next { s with
        kind := 3, detail := at' f 2, busy := false
        res := (Machine.translate s.params.fcode s.params.xcode r.2.1 (at' f 2)).setWidth 64 }) ∧
    (∀ r ∈ parseWrites serial s, s.a0.toNat ≤ 255 → framingOf serial true s f = 0 → at' f 1 = (r.2 ||| 0x80) →
      exec r.1 s = .next { s with
        kind := 3, detail := at' f 2, busy := false
        res := (Machine.translate s.params.fcode s.params.xcode r.2 (at' f 2)).setWidth 64 })

/-- 45_response_parser.md R209, R210: another function code raises UNEXPECTED_FC; a declared byte count below the
length the request implies raises SHORT_PAYLOAD. -/
def Obligations.ParseRaisesShapeErrors : Prop :=
  ∀ (s : State) (w : BitVec 3) (c : Cond) (serial : Bool) (f : List Byte), InputIs s f → s.params.legal = true →
    (∀ r ∈ parseReads w c serial s, ReadOperandsOk w r.2.2 s → framingOf serial false s f = 0 →
      (at' f 1 ≠ r.2.1 → at' f 1 ≠ (r.2.1 ||| 0x80) → Raises r.1 s 4 2) ∧
      (at' f 1 = r.2.1 → (at' f 2).toNat < r.2.2 → Raises r.1 s 4 1)) ∧
    (∀ r ∈ parseWrites serial s, s.a0.toNat ≤ 255 → framingOf serial true s f = 0 →
      at' f 1 ≠ r.2 → at' f 1 ≠ (r.2 ||| 0x80) → Raises r.1 s 4 2)

/-- 45_response_parser.md R206, R207: a frame its framing rejects raises FramingError with the reason as detail. -/
def Obligations.ParseRaisesFramingErrors : Prop :=
  ∀ (s : State) (w : BitVec 3) (c : Cond) (serial : Bool) (f : List Byte), InputIs s f →
    (∀ r ∈ parseReads w c serial s, ReadOperandsOk w r.2.2 s → framingOf serial false s f ≠ 0 →
      Raises r.1 s 2 (BitVec.ofNat 8 (framingOf serial false s f))) ∧
    (∀ r ∈ parseWrites serial s, s.a0.toNat ≤ 255 → framingOf serial true s f ≠ 0 →
      Raises r.1 s 2 (BitVec.ofNat 8 (framingOf serial true s f)))

/-- 45_response_parser.md R205: the operand checks of PARSE, in order, before the frame is read. -/
def Obligations.ParseChecksItsOperandsFirst : Prop :=
  ∀ (s : State) (w : BitVec 3) (c : Cond) (serial : Bool),
    (∀ i ∈ (parseReads w c serial s).map Prod.fst ++ (parseWrites serial s).map Prod.fst,
      (255 < s.a0.toNat → Raises i s 1 1) ∧
      (s.a0.toNat ≤ 255 → s.params.ibufBytes < s.len.toNat → Raises i s 1 6)) ∧
    (∀ r ∈ parseReads w c serial s, s.a0.toNat ≤ 255 → s.len.toNat ≤ s.params.ibufBytes →
      (65535 < s.a2.toNat → Raises r.1 s 1 3) ∧
      (s.a2.toNat ≤ 65535 → 3 < w.toNat → Raises r.1 s 1 5) ∧
      (s.a2.toNat ≤ 65535 → w.toNat ≤ 3 → r.2.2 % 2 ^ w.toNat ≠ 0 → Raises r.1 s 1 10))

/-! ## What a completion changes -/

/-- 60_exceptions.md R240: a command whose input bytes are written (or whose LEN is out of range) completes, with one
legal outcome, and is no longer busy. -/
def Obligations.EveryCommandCompletes : Prop :=
  ∀ (i : Instr) (s : State), (s.len.toNat ≤ s.params.ibufBytes → s.InputReady) →
    ∃ t, exec i s = .next t ∧ t.busy = false ∧ outcomeLegal t.kind t.detail = true

/-- 10_state.md R35, 60_exceptions.md R255: a command faults only with UninitRead, and only where some byte below LEN
is UNINIT; it is never refused. Every command that reads IBUF does fault there, once its operand checks pass: CRC16,
SWAPBUF, VALIDATE of five bytes or more, ENCODE.WMR and RWMR, and every implemented PARSE (log entry 11). -/
def Obligations.CommandsFaultOnlyOnUninitBytes : Prop :=
  ∀ (i : Instr) (s : State),
    (∀ f, exec i s = .fault f →
      f = .uninitRead ∧ s.len.toNat ≤ s.params.ibufBytes ∧ ∃ j, j < s.len.toNat ∧ bufRead s.ibuf j = none) ∧
    (∀ r, exec i s ≠ .refused r) ∧
    ∀ (j : Nat) (w : BitVec 3) (c : Cond) (b : Bool),
      s.len.toNat ≤ s.params.ibufBytes → j < s.len.toNat → bufRead s.ibuf j = none →
      exec .crc16 s = .fault .uninitRead ∧
      (w.toNat ≤ 3 → s.len.toNat % 2 ^ w.toNat = 0 → exec (.swapbuf w c b) s = .fault .uninitRead) ∧
      (s.a0.toNat ≤ 255 → 5 ≤ s.len.toNat → exec .validate s = .fault .uninitRead) ∧
      (WmrOperandsOk s → prepDetail s.params.qmaxWriteRegs.val w s = 0 →
        exec (.encodeWMR w c b) s = .fault .uninitRead) ∧
      (RwmrOperandsOk s → prepDetail s.params.qmaxRwWrite.val w s = 0 →
        exec (.encodeRWMR w c b) s = .fault .uninitRead) ∧
      (∀ r ∈ parseReads w c b s, ReadOperandsOk w r.2.2 s → exec r.1 s = .fault .uninitRead) ∧
      (∀ r ∈ parseWrites b s, s.a0.toNat ≤ 255 → exec r.1 s = .fault .uninitRead)

/-- 20_memory.md R66: no command changes CMD, PEND, DROPPED, CFG, LEN, A0 to A3 or a field of the model's own; only
SWAPBUF with DST = 1 changes IBUF. -/
def Obligations.CommandsKeepTheirInputs : Prop :=
  ∀ (i : Instr) (s t : State), exec i s = .next t →
    t = { s with
      busy := false, kind := t.kind, detail := t.detail, res := t.res, olen := t.olen, ibuf := t.ibuf, obuf := t.obuf } ∧
    ((∀ w c, i ≠ .swapbuf w c true) → t.ibuf = s.ibuf)

/-- 60_exceptions.md R248: a completion with KIND 1, 2, 4, 5 or 6 changes STATUS only; one with KIND 3 also RES: of every
command, and of a pending word that is no command. -/
def Obligations.ErrorsChangeOnlyStatus : Prop :=
  ∀ (s t : State),
    ((∃ i, exec i s = .next t) ∨ (s.busy = true ∧ s.schedule = [] ∧ step s = .next t)) →
    (t.kind ≠ 0 → t.kind ≠ 3 → t = { s with kind := t.kind, detail := t.detail, busy := false }) ∧
    (t.kind = 3 → t = { s with kind := 3, detail := t.detail, busy := false, res := t.res })

/-- The commands with a result in RES leave OLEN and both buffers as they were (10_state.md R27, R31). -/
def Obligations.ResultCommandsKeepTheBuffers : Prop :=
  ∀ (s t : State) (w : BitVec 3) (c : Cond) (fc : Byte),
    ∀ i ∈ [Instr.crc16, .swap8 c, .swap16 c, .swap32 c, .swap64 c, .swapWide w c, .wpswap w, .validate, .qsize w,
      .xlate fc],
    exec i s = .next t →
      t = { s with kind := t.kind, detail := t.detail, busy := false, res := t.res }

/-- The commands with a byte output change STATUS, RES, OLEN and OBUF at most: RES only with ProtocolException, OLEN and OBUF
only with OK, and of OBUF no byte at index OLEN or above (10_state.md R28, R31). -/
def Obligations.OutputCommandsKeepTheRest : Prop :=
  ∀ (s t : State) (w : BitVec 3) (c : Cond) (b : Bool), s.params.legal = true →
    ∀ i ∈ encodes w c b ++ unimplemented b ++ [.swapbuf w c false] ++ (parseReads w c b s).map Prod.fst ++
      (parseWrites b s).map Prod.fst,
    exec i s = .next t →
      t = { s with
        kind := t.kind, detail := t.detail, busy := false, res := t.res, olen := t.olen, obuf := t.obuf } ∧
      (t.kind ≠ 3 → t.res = s.res) ∧
      (t.kind = 0 → ∀ j, t.olen.toNat ≤ j → bufRead t.obuf j = bufRead s.obuf j) ∧
      (t.kind ≠ 0 → t.olen = s.olen ∧ t.obuf = s.obuf)

/-- 70_reset_and_hazards.md R281: the outcome and everything a command writes are functions of the inputs; no other
state, an earlier result among it, reaches them. -/
def Obligations.OutcomeDependsOnInputsOnly : Prop :=
  ∀ (i : Instr) (s s' t : State), SameInputs s s' → exec i s = .next t →
    ∃ t', exec i s' = .next t' ∧ t'.kind = t.kind ∧ t'.detail = t.detail ∧
      (t'.res = t.res ∨ (t'.res = s'.res ∧ t.res = s.res)) ∧
      ((t'.olen = t.olen ∧ ∀ j, j < t.olen.toNat → bufRead t'.obuf j = bufRead t.obuf j) ∨
        (t'.olen = s'.olen ∧ t.olen = s.olen ∧ t'.obuf = s'.obuf ∧ t.obuf = s.obuf)) ∧
      ∀ j, j < s.len.toNat → bufRead t'.ibuf j = bufRead t.ibuf j

/-! ## The host's side -/

/-- 20_memory.md R51, 10_state.md R23, R27, R28, R36: a 32-bit read of CMD, CFG, LEN or an operand register returns its
stored value, busy or not; at an idle block STATUS, OLEN and RES read their values. -/
def Obligations.RegistersReadBack : Prop :=
  ∀ (s : State) (rest : List Event),
    ∀ r ∈ storedRegisters s ++ (if s.busy then [] else resultRegisters s),
    s.schedule = .read (s.params.base + r.1) 4 :: rest →
    step s = .next { s with schedule := rest, rdata := some r.2, draws := s.draws + 1 }

/-- 10_state.md R24: while busy a read of STATUS shows BUSY = 1 and the true DROPPED bit, and its reserved bits 0; of
KIND and DETAIL nothing is said. -/
def Obligations.StatusReadsBusyAndDropped : Prop :=
  ∀ (s : State) (rest : List Event), s.busy = true → s.schedule = .read (s.params.base + 0x004) 4 :: rest →
    ∃ v : Word, step s = .next { s with schedule := rest, rdata := some v, draws := s.draws + 1 } ∧
      v.getLsbD 0 = true ∧ v.getLsbD 1 = s.dropped ∧ v.getLsbD 2 = false ∧ v.getLsbD 3 = false ∧
      ∀ k, 16 ≤ k → v.getLsbD k = false

/-- 20_memory.md R55, R56, R61, 10_state.md R35, R36: a host read of a buffer, of one byte or of an aligned word, written or
not, busy or not, returns some word and changes nothing but the model's own fields. Of IBUF, and of OBUF at an idle block,
the word holds each written byte of the access in its place, little-endian, and 0 for the bytes past the access or past
the buffer's size; of an UNINIT byte nothing is said. -/
def Obligations.BufferReadsPackLittleEndian : Prop :=
  ∀ (s : State) (rest : List Event) (i n : Nat), s.params.legal = true →
    ∀ r ∈ [(0x1000, s.params.ibufBytes, s.ibuf), (0x2000, s.params.obufBytes, s.obuf)],
    i < r.2.1 → (n = 1 ∨ n = 4 ∧ i % 4 = 0) → s.schedule = .read (s.params.base + (r.1 + i)) n :: rest →
    ∃ v : Word, step s = .next { s with schedule := rest, rdata := some v, draws := s.draws + 1 } ∧
      (s.busy = false ∨ r.1 = 0x1000 →
        (∀ j b, j < n → i + j < r.2.1 → bufRead r.2.2 (i + j) = some b → wordByte v j = b.toNat) ∧
        ∀ j, j < 4 → n ≤ j ∨ r.2.1 ≤ i + j → wordByte v j = 0)

/-- 10_state.md R22, R25, R26, R29: a 32-bit write to a writable register of an idle block; a write to CMD starts the
command. -/
def Obligations.IdleWritesStore : Prop :=
  ∀ (s : State) (rest : List Event) (d : BitVec 64), s.busy = false →
    ∀ r ∈ writtenRegisters { s with schedule := rest } (BitVec.ofNat 32 d.toNat),
    s.schedule = .write (s.params.base + r.1) 4 d :: rest → step s = .next r.2

/-- 20_memory.md R55, R56: a write to the IBUF window of an idle block stores its byte, or its four bytes little-endian
where they lie inside the buffer, and changes no other byte and nothing else. -/
def Obligations.IdleWritesFillIbuf : Prop :=
  ∀ (s : State) (rest : List Event) (d : BitVec 64) (i n : Nat), s.busy = false → s.params.legal = true →
    i < s.params.ibufBytes → (n = 1 ∨ n = 4 ∧ i % 4 = 0) → s.schedule = .write (s.params.base + 0x1000 + i) n d :: rest →
    ∃ t, step s = .next t ∧ t = { s with schedule := rest, ibuf := t.ibuf } ∧
      ∀ j, bufRead t.ibuf j =
        if i ≤ j ∧ j < i + n ∧ j < s.params.ibufBytes then some (BitVec.ofNat 8 (d.toNat / 2 ^ (8 * (j - i))))
        else bufRead s.ibuf j

/-- 20_memory.md R63: while busy, a legal write to CMD, CFG, LEN, an operand register or the IBUF window changes nothing
but DROPPED, which it sets; a write to STATUS is not dropped; a write to a read-only or reserved offset does nothing. -/
def Obligations.BusyWritesAreDropped : Prop :=
  ∀ (s : State) (rest : List Event) (d : BitVec 64) (off n : Nat), s.busy = true → s.params.legal = true →
    LegalAccess s.params off n → s.schedule = .write (s.params.base + off) n d :: rest →
    ((off ∈ [0x000, 0x008, 0x00C, 0x020, 0x024, 0x028, 0x02C, 0x030, 0x034, 0x038, 0x03C] ∨
        (0x1000 ≤ off ∧ off < 0x1000 + s.params.ibufBytes)) →
      step s = .next { s with schedule := rest, dropped := true }) ∧
    (off = 0x004 → step s = .next { s with schedule := rest, dropped := (if d.getLsbD 1 then false else s.dropped) }) ∧
    ((ReservedOffset s.params off ∨ off ∈ [0x010, 0x018, 0x01C] ∨
        (0x2000 ≤ off ∧ off < 0x2000 + s.params.obufBytes)) →
      step s = .next { s with schedule := rest })

/-- 10_state.md R23: a write of STATUS, busy or not, clears DROPPED where bit 1 is set and does nothing else. -/
def Obligations.StatusWriteClearsDropped : Prop :=
  ∀ (s : State) (rest : List Event) (d : BitVec 64), s.schedule = .write (s.params.base + 0x004) 4 d :: rest →
    step s = .next { s with schedule := rest, dropped := (if d.getLsbD 1 then false else s.dropped) }

/-- 20_memory.md R54: a legal read of a reserved offset returns 0; a legal write to a reserved offset, a read-only
register (STATUS where bit 1 is not set) or the OBUF window changes nothing and does not set DROPPED. -/
def Obligations.ReservedReadsZeroIgnoresWrites : Prop :=
  ∀ (s : State) (rest : List Event) (d : BitVec 64) (off n : Nat), s.params.legal = true → LegalAccess s.params off n →
    (ReservedOffset s.params off → s.schedule = .read (s.params.base + off) n :: rest →
      step s = .next { s with schedule := rest, rdata := some 0, draws := s.draws + 1 }) ∧
    ((ReservedOffset s.params off ∨ off ∈ [0x010, 0x018, 0x01C] ∨ (off = 0x004 ∧ d.getLsbD 1 = false) ∨
        (0x2000 ≤ off ∧ off < 0x2000 + s.params.obufBytes)) →
      s.schedule = .write (s.params.base + off) n d :: rest → step s = .next { s with schedule := rest })

/-- 20_memory.md R50, R52, R53: an access of the window that is not legal is a BusError with its offset and width (the run
stops there: log entry 9); an access at a bus address outside the window is none of the block's (log entry 10). -/
def Obligations.IllegalAccessesAreBusErrors : Prop :=
  ∀ (s : State) (e : Event) (rest : List Event), s.params.legal = true → s.schedule = e :: rest →
    (∀ off n, AccessAt e s off n → off < 0x3000 → ¬ LegalAccess s.params off n → step s = .fault (.busError off n)) ∧
    (∀ addr n, (e = .read addr n ∨ ∃ v, e = .write addr n v) →
      (addr < s.params.base ∨ s.params.base + 0x3000 ≤ addr) → step s = .next { s with schedule := rest })

/-- 20_memory.md R61, R63, 00_scope.md R11: whatever a host access does while a command is pending, the command's inputs
and everything else but DROPPED and the model's own fields stay. -/
def Obligations.PendingInputsCannotChange : Prop :=
  ∀ (s t : State) (e : Event) (rest : List Event), s.busy = true → s.schedule = e :: rest → e ≠ .reset → e ≠ .complete →
    step s = .next t →
    t = { s with schedule := rest, dropped := t.dropped, draws := t.draws, rdata := t.rdata }

/-- 70_reset_and_hazards.md R278, 60_exceptions.md R240: whatever legal host accesses come before its completion, a pending
word, a command or not, ends as it would at once: with the same next state but for DROPPED and the model's own fields, or
with the same fault. It completes where LEN is out of range or its input is written. -/
def Obligations.PendingCommandCompletesAlike : Prop :=
  ∀ s : State, s.busy = true → s.params.legal = true → (∀ e ∈ s.schedule, LegalEvent s e) →
    (∀ u, step { s with schedule := [] } = .next u →
      ∃ t, run (s.schedule.length + 1) s = .next t ∧
        t = { u with dropped := t.dropped, draws := t.draws, rdata := t.rdata }) ∧
    (∀ f, step { s with schedule := [] } = .fault f → run (s.schedule.length + 1) s = .fault f) ∧
    ((s.len.toNat ≤ s.params.ibufBytes → s.InputReady) →
      ∃ t, run (s.schedule.length + 1) s = .next t ∧ t.busy = false)
end

