-- ==== Sys2Proof/Laws/Buffer.lean ====
section
/-! SUPPORT. What the buffer operations do: read after write, the bytes a sequence read gives, and that every write
keeps the canonical form and the bound. -/

namespace Sys2Proof.Machine

@[simp] theorem bufRead_nil (i : Nat) : bufRead [] i = none := rfl

/-- A read after a write of one byte. -/
theorem bufRead_bufWrite (m : List Host.Cell) (i j : Nat) (v : Byte) :
    bufRead (bufWrite m i v) j = if j = i then some v else bufRead m j := by
  induction m with
  | nil => simp [bufWrite, bufRead, eq_comm]
  | cons c m ih =>
    obtain ⟨k, b⟩ := c
    simp only [bufWrite]
    by_cases h1 : i < k
    · simp [h1, bufRead, eq_comm]
    · by_cases h2 : i = k
      · subst h2
        by_cases hj : j = i
        · simp [bufRead, hj]
        · have : ¬ i = j := fun h => hj h.symm
          simp [bufRead, hj, this]
      · simp only [h1, h2, if_false, bufRead, ih]
        by_cases hk : k = j
        · subst hk
          have : ¬ k = i := fun h => h2 h.symm
          simp [this]
        · simp [hk]

/-- A read after a byte sequence was stored. -/
theorem bufRead_bufWriteList (m : List Host.Cell) (i j : Nat) (f : List Byte) :
    bufRead (bufWriteList m i f) j = if i ≤ j ∧ j < i + f.length then f[j - i]? else bufRead m j := by
  induction f generalizing m i with
  | nil =>
    simp [bufWriteList]
  | cons b bs ih =>
    rw [bufWriteList, ih, bufRead_bufWrite]
    by_cases h : j = i
    · subst h
      simp
    · by_cases h2 : i + 1 ≤ j ∧ j < i + 1 + bs.length
      · have h3 : i ≤ j ∧ j < i + (b :: bs).length := by simp; omega
        have h4 : j - i = (j - (i + 1)) + 1 := by omega
        rw [if_pos h2, if_pos h3, h4, List.getElem?_cons_succ]
      · have h3 : ¬ (i ≤ j ∧ j < i + (b :: bs).length) := by simp; omega
        rw [if_neg h2, if_neg h3, if_neg h]

/-- Storing a sequence at the buffer's start: its bytes, and the rest as before. -/
theorem bufRead_bufWriteList_zero (m : List Host.Cell) (f : List Byte) (j : Nat) :
    bufRead (bufWriteList m 0 f) j = if j < f.length then f[j]? else bufRead m j := by
  simp [bufRead_bufWriteList]

/-- A sequence read succeeds exactly where every byte is there, and gives those bytes. -/
theorem bufReadList_eq_some {m : List Host.Cell} {i n : Nat} {f : List Byte} :
    bufReadList m i n = some f ↔ f.length = n ∧ ∀ j, j < n → bufRead m (i + j) = f[j]? := by
  induction n generalizing i f with
  | zero =>
    cases f <;> simp [bufReadList]
  | succ n ih =>
    simp only [bufReadList]
    cases hb : bufRead m i with
    | none =>
      simp only [reduceCtorEq, false_iff, not_and]
      intro hl h
      have := h 0 (by omega)
      cases f with
      | nil => simp at hl
      | cons b bs => simp [hb] at this
    | some b =>
      cases hr : bufReadList m (i + 1) n with
      | none =>
        simp only [reduceCtorEq, false_iff, not_and]
        intro hl h
        cases f with
        | nil => simp at hl
        | cons c cs =>
          have : bufReadList m (i + 1) n = some cs := by
            rw [ih]
            refine ⟨by simpa using hl, fun j hj => ?_⟩
            have := h (j + 1) (by omega)
            rw [show i + (j + 1) = i + 1 + j by omega] at this
            simpa using this
          simp [hr] at this
      | some bs =>
        rw [ih] at hr
        simp only [Option.some.injEq]
        constructor
        · rintro rfl
          refine ⟨by simp [hr.1], fun j hj => ?_⟩
          cases j with
          | zero => simpa using hb
          | succ j =>
            rw [show i + (j + 1) = i + 1 + j by omega, hr.2 j (by omega)]
            simp
        · rintro ⟨hl, h⟩
          cases f with
          | nil => simp at hl
          | cons c cs =>
            have h0 := h 0 (by omega)
            simp [hb] at h0
            subst h0
            congr 1
            apply List.ext_getElem?
            intro j
            by_cases hj : j < n
            · rw [← hr.2 j hj]
              have := h (j + 1) (by omega)
              rw [show i + (j + 1) = i + 1 + j by omega] at this
              simpa using this
            · have h1 : cs.length = n := by simpa using hl
              rw [List.getElem?_eq_none (by omega), List.getElem?_eq_none (by omega)]

/-- A sequence read fails only where some byte is UNINIT. -/
theorem bufReadList_eq_none {m : List Host.Cell} {i n : Nat} :
    bufReadList m i n = none ↔ ∃ j, j < n ∧ bufRead m (i + j) = none := by
  induction n generalizing i with
  | zero => simp [bufReadList]
  | succ n ih =>
    simp only [bufReadList]
    cases hb : bufRead m i with
    | none => simpa using ⟨0, by omega, by simpa using hb⟩
    | some b =>
      have key : (∃ j, j < n + 1 ∧ bufRead m (i + j) = none) ↔ ∃ j, j < n ∧ bufRead m (i + 1 + j) = none := by
        constructor
        · rintro ⟨j, hj, h⟩
          cases j with
          | zero => simp [hb] at h
          | succ j => exact ⟨j, by omega, by rw [← h]; congr 1; omega⟩
        · rintro ⟨j, hj, h⟩
          exact ⟨j + 1, by omega, by rw [← h]; congr 1; omega⟩
      rw [key, ← ih]
      cases bufReadList m (i + 1) n <;> simp

/-- A sequence read sees only the bytes it names. -/
theorem bufReadList_congr {m m' : List Host.Cell} {n : Nat} (h : ∀ i, i < n → bufRead m i = bufRead m' i) :
    bufReadList m 0 n = bufReadList m' 0 n := by
  cases hm : bufReadList m 0 n with
  | some f =>
    rw [bufReadList_eq_some] at hm
    symm
    rw [bufReadList_eq_some]
    exact ⟨hm.1, fun j hj => by rw [Nat.zero_add, ← h j hj, ← hm.2 j hj, Nat.zero_add]⟩
  | none =>
    obtain ⟨j, hj, h1⟩ := bufReadList_eq_none.1 hm
    symm
    rw [bufReadList_eq_none]
    exact ⟨j, hj, by rw [Nat.zero_add, ← h j hj, ← h1, Nat.zero_add]⟩

/-! ## The canonical form -/

/-- A buffer's indexes all lie above a bound. -/
def bufAbove (k : Nat) (m : List Host.Cell) : Prop := ∀ c ∈ m, k < c.1

theorem bufWf_cons {i : Nat} {b : Byte} {m : List Host.Cell} :
    bufWf ((i, b) :: m) = true ↔ bufAbove i m ∧ bufWf m = true := by
  induction m generalizing i b with
  | nil => simp [bufWf, bufAbove]
  | cons c m ih =>
    obtain ⟨j, d⟩ := c
    simp only [bufWf, Bool.and_eq_true, decide_eq_true_eq]
    constructor
    · rintro ⟨hij, h⟩
      refine ⟨?_, h⟩
      intro c hc
      rcases List.mem_cons.1 hc with rfl | hc
      · exact hij
      · exact Nat.lt_trans hij ((ih.1 h).1 c hc)
    · rintro ⟨ha, h⟩
      exact ⟨ha (j, d) (by simp), h⟩

theorem mem_bufWrite {m : List Host.Cell} {i : Nat} {v : Byte} {c : Host.Cell} (h : c ∈ bufWrite m i v) :
    c = (i, v) ∨ c ∈ m := by
  induction m with
  | nil => simpa [bufWrite] using h
  | cons d m ih =>
    obtain ⟨k, b⟩ := d
    simp only [bufWrite] at h
    split at h
    · simpa using h
    · split at h
      · rcases List.mem_cons.1 h with h | h
        · exact .inl h
        · exact .inr (by simp [h])
      · rcases List.mem_cons.1 h with h | h
        · exact .inr (by simp [h])
        · rcases ih h with h | h
          · exact .inl h
          · exact .inr (by simp [h])

/-- A write of one byte keeps the canonical form. -/
theorem bufWf_bufWrite {m : List Host.Cell} (h : bufWf m = true) (i : Nat) (v : Byte) :
    bufWf (bufWrite m i v) = true := by
  induction m with
  | nil => rfl
  | cons c m ih =>
    obtain ⟨k, b⟩ := c
    obtain ⟨ha, hm⟩ := bufWf_cons.1 h
    simp only [bufWrite]
    split
    · rename_i hik
      refine bufWf_cons.2 ⟨?_, h⟩
      intro c hc
      rcases List.mem_cons.1 hc with rfl | hc
      · exact hik
      · exact Nat.lt_trans hik (ha c hc)
    · split
      · rename_i hik
        subst hik
        exact bufWf_cons.2 ⟨ha, hm⟩
      · refine bufWf_cons.2 ⟨?_, ih hm⟩
        intro c hc
        rcases mem_bufWrite hc with rfl | hc
        · simp only; omega
        · exact ha c hc

/-- Storing a sequence keeps the canonical form. -/
theorem bufWf_bufWriteList {m : List Host.Cell} (h : bufWf m = true) (i : Nat) (f : List Byte) :
    bufWf (bufWriteList m i f) = true := by
  induction f generalizing m i with
  | nil => exact h
  | cons b bs ih => exact ih (bufWf_bufWrite h i b) (i + 1)

theorem bufBelow_iff {size : Nat} {m : List Host.Cell} : bufBelow size m = true ↔ ∀ c ∈ m, c.1 < size := by
  simp [bufBelow]

/-- A write inside the buffer keeps it inside its size. -/
theorem bufBelow_bufWrite {size : Nat} {m : List Host.Cell} (h : bufBelow size m = true) {i : Nat} (hi : i < size)
    (v : Byte) : bufBelow size (bufWrite m i v) = true := by
  rw [bufBelow_iff] at *
  intro c hc
  rcases mem_bufWrite hc with rfl | hc
  · exact hi
  · exact h c hc

/-- Storing a sequence inside the buffer keeps it inside its size. -/
theorem bufBelow_bufWriteList {size : Nat} {m : List Host.Cell} (h : bufBelow size m = true) {i : Nat} {f : List Byte}
    (hi : i + f.length ≤ size) : bufBelow size (bufWriteList m i f) = true := by
  induction f generalizing m i with
  | nil => exact h
  | cons b bs ih =>
    simp only [List.length_cons] at hi
    exact ih (bufBelow_bufWrite h (by omega) b) (by omega)

/-- In the canonical form, two buffers that read alike at every index are equal: equal buffers are equal data. -/
theorem bufWf_ext {m n : List Host.Cell} (hm : bufWf m = true) (hn : bufWf n = true)
    (h : ∀ i, bufRead m i = bufRead n i) : m = n := by
  have above_none : ∀ {k : Nat} {l : List Host.Cell}, bufAbove k l → ∀ j, j ≤ k → bufRead l j = none := by
    intro k l
    induction l with
    | nil => intros; rfl
    | cons c l ih =>
      intro ha j hj
      obtain ⟨a, b⟩ := c
      have h1 : k < a := ha (a, b) (by simp)
      have h2 : ¬ a = j := by omega
      simp only [bufRead, h2, if_false]
      exact ih (fun c hc => ha c (by simp [hc])) j hj
  induction m generalizing n with
  | nil =>
    cases n with
    | nil => rfl
    | cons c n =>
      obtain ⟨a, b⟩ := c
      have := h a
      simp [bufRead] at this
  | cons c m ih =>
    obtain ⟨a, b⟩ := c
    obtain ⟨ham, hm'⟩ := bufWf_cons.1 hm
    cases n with
    | nil =>
      have := h a
      simp [bufRead] at this
    | cons d n =>
      obtain ⟨a', b'⟩ := d
      obtain ⟨han, hn'⟩ := bufWf_cons.1 hn
      have haa : a = a' := by
        rcases Nat.lt_trichotomy a a' with hlt | heq | hgt
        · have h1 := h a
          have h2 : ¬ a' = a := by omega
          simp [bufRead, h2, above_none han a (by omega)] at h1
        · exact heq
        · have h1 := h a'
          have h2 : ¬ a = a' := by omega
          simp [bufRead, h2, above_none ham a' (by omega)] at h1
      subst haa
      have hbb : b = b' := by
        have := h a
        simpa [bufRead] using this
      subst hbb
      congr 1
      apply ih hm' hn'
      intro i
      by_cases hi : i ≤ a
      · rw [above_none ham i hi, above_none han i hi]
      · have := h i
        have hne : ¬ a = i := by omega
        simpa [bufRead, hne] using this

end Sys2Proof.Machine
end

