-- ==== Sys2Proof/Laws/Bytes.lean ====
section
/-! SUPPORT. Byte order on numbers, and the elements of a swapped sequence by their index. -/

namespace Sys2Proof.Machine

/-- be16 of the low 16 bits of an operand, by its number (R9). -/
theorem be16_setWidth (v : DWord) :
    be16 (v.setWidth 16) = [BitVec.ofNat 8 (v.toNat / 256), BitVec.ofNat 8 v.toNat] := by
  have h1 : (v.setWidth 16).extractLsb' 0 8 = BitVec.ofNat 8 v.toNat := by
    apply BitVec.eq_of_toNat_eq
    simp
  have h2 : (v.setWidth 16).extractLsb' 8 8 = BitVec.ofNat 8 (v.toNat / 256) := by
    apply BitVec.eq_of_toNat_eq
    simp [Nat.shiftRight_eq_div_pow]
    omega
  rw [be16, h1, h2]

/-- be16 of a number. -/
theorem be16_ofNat (q : Nat) : be16 (BitVec.ofNat 16 q) = [BitVec.ofNat 8 (q / 256), BitVec.ofNat 8 q] := by
  have h1 : (BitVec.ofNat 16 q).extractLsb' 0 8 = BitVec.ofNat 8 q := by
    apply BitVec.eq_of_toNat_eq
    simp
  have h2 : (BitVec.ofNat 16 q).extractLsb' 8 8 = BitVec.ofNat 8 (q / 256) := by
    apply BitVec.eq_of_toNat_eq
    simp [Nat.shiftRight_eq_div_pow]
    omega
  rw [be16, h1, h2]

/-- le16 by its number (R9). -/
theorem le16_eq (c : BitVec 16) : le16 c = [BitVec.ofNat 8 c.toNat, BitVec.ofNat 8 (c.toNat / 256)] := by
  have h1 : c.extractLsb' 0 8 = BitVec.ofNat 8 c.toNat := by
    apply BitVec.eq_of_toNat_eq
    simp
  have h2 : c.extractLsb' 8 8 = BitVec.ofNat 8 (c.toNat / 256) := by
    apply BitVec.eq_of_toNat_eq
    simp [Nat.shiftRight_eq_div_pow]
  rw [le16, h1, h2]

/-- Two bytes are le16 of exactly the value they spell, low byte first (43_frame_validator.md R164). -/
theorem le16_eq_iff (c : BitVec 16) (a b : Byte) : le16 c = [a, b] ↔ c.toNat = a.toNat ||| (b.toNat <<< 8) := by
  have hn : (b ++ a).toNat = a.toNat ||| (b.toNat <<< 8) := by rw [BitVec.toNat_append, Nat.or_comm]
  have hx : le16 (b ++ a) = [a, b] := by
    simp only [le16, List.cons.injEq, and_true]
    constructor <;>
    · apply BitVec.eq_of_getLsbD_eq
      intro i hi
      simp only [BitVec.getLsbD_extractLsb', BitVec.getLsbD_append]
      simp [hi]
  have inj : ∀ x y : BitVec 16, le16 x = le16 y → x = y := by
    intro x y h
    simp only [le16, List.cons.injEq, and_true] at h
    apply BitVec.eq_of_getLsbD_eq
    intro i hi
    by_cases hk : i < 8
    · have := congrArg (fun z => z.getLsbD i) h.1
      simpa [BitVec.getLsbD_extractLsb', hk] using this
    · have := congrArg (fun z => z.getLsbD (i - 8)) h.2
      simpa [BitVec.getLsbD_extractLsb', show i - 8 < 8 by omega, show 8 + (i - 8) = i by omega] using this
  rw [← hn]
  exact ⟨fun h => congrArg BitVec.toNat (inj _ _ (h.trans hx.symm)), fun h => by rw [BitVec.eq_of_toNat_eq h, hx]⟩

/-- Byte i of a sequence of reversed elements. -/
theorem reverseElements_getElem? (w k : Nat) (s : List Byte) (hw : 0 < w) (h : k * w ≤ s.length) (i : Nat)
    (hi : i < k * w) : (reverseElements w k s)[i]? = s[i / w * w + (w - 1 - i % w)]? := by
  induction k generalizing s i with
  | zero => omega
  | succ k ih =>
    rw [Nat.succ_mul] at h hi
    rw [reverseElements]
    have hl : (s.take w).reverse.length = w := by
      simp
      omega
    by_cases hc : i < w
    · rw [List.getElem?_append_left (by omega), List.getElem?_reverse (by simp; omega)]
      simp only [List.length_take, Nat.div_eq_of_lt hc, Nat.mod_eq_of_lt hc, Nat.zero_mul, Nat.zero_add]
      rw [Nat.min_eq_left (by omega), List.getElem?_take_of_lt (by omega)]
    · rw [List.getElem?_append_right (by omega), hl, ih (s.drop w) (by simp; omega) (i - w) (by omega),
        List.getElem?_drop]
      congr 1
      have e1 : i = (i - w) + w := by omega
      have e2 : i / w = (i - w) / w + 1 := by
        rw [e1, Nat.add_div_right _ hw]
        simp
      have e3 : i % w = (i - w) % w := by
        rw [e1, Nat.add_mod_right]
        simp
      rw [e2, e3, Nat.add_mul]
      omega

/-- wpswap on numbers: the halves change places (41_byte_order.md R117). -/
theorem wpswap_toNat (v : BitVec 32) : (wpswap v).toNat = v.toNat % 2 ^ 16 * 2 ^ 16 + v.toNat / 2 ^ 16 := by
  have h : v.toNat / 2 ^ 16 < 2 ^ 16 := by omega
  rw [wpswap, BitVec.toNat_append, Nat.shiftLeft_eq, Nat.mul_comm,
    ← Nat.two_pow_add_eq_or_of_lt (v.extractLsb' 16 16).isLt]
  simp [BitVec.extractLsb'_toNat, Nat.shiftRight_eq_div_pow]
  omega

/-- A word of four bytes as a number, the first byte lowest (20_memory.md R55). -/
theorem wordOfBytes_toNat (b0 b1 b2 b3 : Byte) :
    (wordOfBytes b0 b1 b2 b3).toNat = b0.toNat + 2 ^ 8 * b1.toNat + 2 ^ 16 * b2.toNat + 2 ^ 24 * b3.toNat := by
  have := b0.isLt
  have := b1.isLt
  have := b2.isLt
  simp only [wordOfBytes, BitVec.toNat_append]
  rw [← Nat.shiftLeft_add_eq_or_of_lt (by omega), ← Nat.shiftLeft_add_eq_or_of_lt (by omega),
    ← Nat.shiftLeft_add_eq_or_of_lt (by omega), Nat.shiftLeft_eq, Nat.shiftLeft_eq, Nat.shiftLeft_eq]
  omega

end Sys2Proof.Machine
end

