-- ==== Sys2Proof/Laws/State.lean ====
section
/-! SUPPORT. One lemma per field for each named update of State, so that no later proof unfolds a record update. -/

namespace Sys2Proof.Machine

/-! ## setOutcome -/

@[simp] theorem State.setOutcome_params (s : State) (k : BitVec 4) (d : BitVec 8) : (s.setOutcome k d).params = s.params := rfl
@[simp] theorem State.setOutcome_cmd (s : State) (k : BitVec 4) (d : BitVec 8) : (s.setOutcome k d).cmd = s.cmd := rfl
@[simp] theorem State.setOutcome_pend (s : State) (k : BitVec 4) (d : BitVec 8) : (s.setOutcome k d).pend = s.pend := rfl
@[simp] theorem State.setOutcome_busy (s : State) (k : BitVec 4) (d : BitVec 8) : (s.setOutcome k d).busy = false := rfl
@[simp] theorem State.setOutcome_dropped (s : State) (k : BitVec 4) (d : BitVec 8) : (s.setOutcome k d).dropped = s.dropped := rfl
@[simp] theorem State.setOutcome_kind (s : State) (k : BitVec 4) (d : BitVec 8) : (s.setOutcome k d).kind = k := rfl
@[simp] theorem State.setOutcome_detail (s : State) (k : BitVec 4) (d : BitVec 8) : (s.setOutcome k d).detail = d := rfl
@[simp] theorem State.setOutcome_hostLE (s : State) (k : BitVec 4) (d : BitVec 8) : (s.setOutcome k d).hostLE = s.hostLE := rfl
@[simp] theorem State.setOutcome_swap (s : State) (k : BitVec 4) (d : BitVec 8) : (s.setOutcome k d).swap = s.swap := rfl
@[simp] theorem State.setOutcome_len (s : State) (k : BitVec 4) (d : BitVec 8) : (s.setOutcome k d).len = s.len := rfl
@[simp] theorem State.setOutcome_olen (s : State) (k : BitVec 4) (d : BitVec 8) : (s.setOutcome k d).olen = s.olen := rfl
@[simp] theorem State.setOutcome_res (s : State) (k : BitVec 4) (d : BitVec 8) : (s.setOutcome k d).res = s.res := rfl
@[simp] theorem State.setOutcome_a0 (s : State) (k : BitVec 4) (d : BitVec 8) : (s.setOutcome k d).a0 = s.a0 := rfl
@[simp] theorem State.setOutcome_a1 (s : State) (k : BitVec 4) (d : BitVec 8) : (s.setOutcome k d).a1 = s.a1 := rfl
@[simp] theorem State.setOutcome_a2 (s : State) (k : BitVec 4) (d : BitVec 8) : (s.setOutcome k d).a2 = s.a2 := rfl
@[simp] theorem State.setOutcome_a3 (s : State) (k : BitVec 4) (d : BitVec 8) : (s.setOutcome k d).a3 = s.a3 := rfl
@[simp] theorem State.setOutcome_ibuf (s : State) (k : BitVec 4) (d : BitVec 8) : (s.setOutcome k d).ibuf = s.ibuf := rfl
@[simp] theorem State.setOutcome_obuf (s : State) (k : BitVec 4) (d : BitVec 8) : (s.setOutcome k d).obuf = s.obuf := rfl
@[simp] theorem State.setOutcome_schedule (s : State) (k : BitVec 4) (d : BitVec 8) : (s.setOutcome k d).schedule = s.schedule := rfl
@[simp] theorem State.setOutcome_draws (s : State) (k : BitVec 4) (d : BitVec 8) : (s.setOutcome k d).draws = s.draws := rfl
@[simp] theorem State.setOutcome_rdata (s : State) (k : BitVec 4) (d : BitVec 8) : (s.setOutcome k d).rdata = s.rdata := rfl

/-! ## putRes -/

@[simp] theorem State.putRes_params (s : State) (v : Option DWord) : (s.putRes v).params = s.params := rfl
@[simp] theorem State.putRes_cmd (s : State) (v : Option DWord) : (s.putRes v).cmd = s.cmd := rfl
@[simp] theorem State.putRes_pend (s : State) (v : Option DWord) : (s.putRes v).pend = s.pend := rfl
@[simp] theorem State.putRes_busy (s : State) (v : Option DWord) : (s.putRes v).busy = s.busy := rfl
@[simp] theorem State.putRes_dropped (s : State) (v : Option DWord) : (s.putRes v).dropped = s.dropped := rfl
@[simp] theorem State.putRes_kind (s : State) (v : Option DWord) : (s.putRes v).kind = s.kind := rfl
@[simp] theorem State.putRes_detail (s : State) (v : Option DWord) : (s.putRes v).detail = s.detail := rfl
@[simp] theorem State.putRes_hostLE (s : State) (v : Option DWord) : (s.putRes v).hostLE = s.hostLE := rfl
@[simp] theorem State.putRes_swap (s : State) (v : Option DWord) : (s.putRes v).swap = s.swap := rfl
@[simp] theorem State.putRes_len (s : State) (v : Option DWord) : (s.putRes v).len = s.len := rfl
@[simp] theorem State.putRes_olen (s : State) (v : Option DWord) : (s.putRes v).olen = s.olen := rfl
@[simp] theorem State.putRes_res (s : State) (v : Option DWord) : (s.putRes v).res = v.getD s.res := rfl
@[simp] theorem State.putRes_a0 (s : State) (v : Option DWord) : (s.putRes v).a0 = s.a0 := rfl
@[simp] theorem State.putRes_a1 (s : State) (v : Option DWord) : (s.putRes v).a1 = s.a1 := rfl
@[simp] theorem State.putRes_a2 (s : State) (v : Option DWord) : (s.putRes v).a2 = s.a2 := rfl
@[simp] theorem State.putRes_a3 (s : State) (v : Option DWord) : (s.putRes v).a3 = s.a3 := rfl
@[simp] theorem State.putRes_ibuf (s : State) (v : Option DWord) : (s.putRes v).ibuf = s.ibuf := rfl
@[simp] theorem State.putRes_obuf (s : State) (v : Option DWord) : (s.putRes v).obuf = s.obuf := rfl
@[simp] theorem State.putRes_schedule (s : State) (v : Option DWord) : (s.putRes v).schedule = s.schedule := rfl
@[simp] theorem State.putRes_draws (s : State) (v : Option DWord) : (s.putRes v).draws = s.draws := rfl
@[simp] theorem State.putRes_rdata (s : State) (v : Option DWord) : (s.putRes v).rdata = s.rdata := rfl

/-! ## putOut -/

@[simp] theorem State.putOut_params (s : State) (o : Option (List Byte)) : (s.putOut o).params = s.params := rfl
@[simp] theorem State.putOut_cmd (s : State) (o : Option (List Byte)) : (s.putOut o).cmd = s.cmd := rfl
@[simp] theorem State.putOut_pend (s : State) (o : Option (List Byte)) : (s.putOut o).pend = s.pend := rfl
@[simp] theorem State.putOut_busy (s : State) (o : Option (List Byte)) : (s.putOut o).busy = s.busy := rfl
@[simp] theorem State.putOut_dropped (s : State) (o : Option (List Byte)) : (s.putOut o).dropped = s.dropped := rfl
@[simp] theorem State.putOut_kind (s : State) (o : Option (List Byte)) : (s.putOut o).kind = s.kind := rfl
@[simp] theorem State.putOut_detail (s : State) (o : Option (List Byte)) : (s.putOut o).detail = s.detail := rfl
@[simp] theorem State.putOut_hostLE (s : State) (o : Option (List Byte)) : (s.putOut o).hostLE = s.hostLE := rfl
@[simp] theorem State.putOut_swap (s : State) (o : Option (List Byte)) : (s.putOut o).swap = s.swap := rfl
@[simp] theorem State.putOut_len (s : State) (o : Option (List Byte)) : (s.putOut o).len = s.len := rfl
@[simp] theorem State.putOut_res (s : State) (o : Option (List Byte)) : (s.putOut o).res = s.res := rfl
@[simp] theorem State.putOut_a0 (s : State) (o : Option (List Byte)) : (s.putOut o).a0 = s.a0 := rfl
@[simp] theorem State.putOut_a1 (s : State) (o : Option (List Byte)) : (s.putOut o).a1 = s.a1 := rfl
@[simp] theorem State.putOut_a2 (s : State) (o : Option (List Byte)) : (s.putOut o).a2 = s.a2 := rfl
@[simp] theorem State.putOut_a3 (s : State) (o : Option (List Byte)) : (s.putOut o).a3 = s.a3 := rfl
@[simp] theorem State.putOut_ibuf (s : State) (o : Option (List Byte)) : (s.putOut o).ibuf = s.ibuf := rfl
@[simp] theorem State.putOut_schedule (s : State) (o : Option (List Byte)) : (s.putOut o).schedule = s.schedule := rfl
@[simp] theorem State.putOut_draws (s : State) (o : Option (List Byte)) : (s.putOut o).draws = s.draws := rfl
@[simp] theorem State.putOut_rdata (s : State) (o : Option (List Byte)) : (s.putOut o).rdata = s.rdata := rfl

/-! ## putIn -/

@[simp] theorem State.putIn_params (s : State) (o : Option (List Byte)) : (s.putIn o).params = s.params := rfl
@[simp] theorem State.putIn_cmd (s : State) (o : Option (List Byte)) : (s.putIn o).cmd = s.cmd := rfl
@[simp] theorem State.putIn_pend (s : State) (o : Option (List Byte)) : (s.putIn o).pend = s.pend := rfl
@[simp] theorem State.putIn_busy (s : State) (o : Option (List Byte)) : (s.putIn o).busy = s.busy := rfl
@[simp] theorem State.putIn_dropped (s : State) (o : Option (List Byte)) : (s.putIn o).dropped = s.dropped := rfl
@[simp] theorem State.putIn_kind (s : State) (o : Option (List Byte)) : (s.putIn o).kind = s.kind := rfl
@[simp] theorem State.putIn_detail (s : State) (o : Option (List Byte)) : (s.putIn o).detail = s.detail := rfl
@[simp] theorem State.putIn_hostLE (s : State) (o : Option (List Byte)) : (s.putIn o).hostLE = s.hostLE := rfl
@[simp] theorem State.putIn_swap (s : State) (o : Option (List Byte)) : (s.putIn o).swap = s.swap := rfl
@[simp] theorem State.putIn_len (s : State) (o : Option (List Byte)) : (s.putIn o).len = s.len := rfl
@[simp] theorem State.putIn_olen (s : State) (o : Option (List Byte)) : (s.putIn o).olen = s.olen := rfl
@[simp] theorem State.putIn_res (s : State) (o : Option (List Byte)) : (s.putIn o).res = s.res := rfl
@[simp] theorem State.putIn_a0 (s : State) (o : Option (List Byte)) : (s.putIn o).a0 = s.a0 := rfl
@[simp] theorem State.putIn_a1 (s : State) (o : Option (List Byte)) : (s.putIn o).a1 = s.a1 := rfl
@[simp] theorem State.putIn_a2 (s : State) (o : Option (List Byte)) : (s.putIn o).a2 = s.a2 := rfl
@[simp] theorem State.putIn_a3 (s : State) (o : Option (List Byte)) : (s.putIn o).a3 = s.a3 := rfl
@[simp] theorem State.putIn_obuf (s : State) (o : Option (List Byte)) : (s.putIn o).obuf = s.obuf := rfl
@[simp] theorem State.putIn_schedule (s : State) (o : Option (List Byte)) : (s.putIn o).schedule = s.schedule := rfl
@[simp] theorem State.putIn_draws (s : State) (o : Option (List Byte)) : (s.putIn o).draws = s.draws := rfl
@[simp] theorem State.putIn_rdata (s : State) (o : Option (List Byte)) : (s.putIn o).rdata = s.rdata := rfl

/-! ## completeOk -/

@[simp] theorem State.completeOk_params (s : State) (e : Effect) : (s.completeOk e).params = s.params := rfl
@[simp] theorem State.completeOk_cmd (s : State) (e : Effect) : (s.completeOk e).cmd = s.cmd := rfl
@[simp] theorem State.completeOk_pend (s : State) (e : Effect) : (s.completeOk e).pend = s.pend := rfl
@[simp] theorem State.completeOk_busy (s : State) (e : Effect) : (s.completeOk e).busy = false := rfl
@[simp] theorem State.completeOk_dropped (s : State) (e : Effect) : (s.completeOk e).dropped = s.dropped := rfl
@[simp] theorem State.completeOk_kind (s : State) (e : Effect) : (s.completeOk e).kind = 0 := rfl
@[simp] theorem State.completeOk_detail (s : State) (e : Effect) : (s.completeOk e).detail = 0 := rfl
@[simp] theorem State.completeOk_hostLE (s : State) (e : Effect) : (s.completeOk e).hostLE = s.hostLE := rfl
@[simp] theorem State.completeOk_swap (s : State) (e : Effect) : (s.completeOk e).swap = s.swap := rfl
@[simp] theorem State.completeOk_len (s : State) (e : Effect) : (s.completeOk e).len = s.len := rfl
@[simp] theorem State.completeOk_olen (s : State) (e : Effect) : (s.completeOk e).olen = (s.putOut e.out).olen := rfl
@[simp] theorem State.completeOk_res (s : State) (e : Effect) : (s.completeOk e).res = e.res.getD s.res := rfl
@[simp] theorem State.completeOk_a0 (s : State) (e : Effect) : (s.completeOk e).a0 = s.a0 := rfl
@[simp] theorem State.completeOk_a1 (s : State) (e : Effect) : (s.completeOk e).a1 = s.a1 := rfl
@[simp] theorem State.completeOk_a2 (s : State) (e : Effect) : (s.completeOk e).a2 = s.a2 := rfl
@[simp] theorem State.completeOk_a3 (s : State) (e : Effect) : (s.completeOk e).a3 = s.a3 := rfl
@[simp] theorem State.completeOk_ibuf (s : State) (e : Effect) : (s.completeOk e).ibuf = (s.putIn e.inPlace).ibuf := rfl
@[simp] theorem State.completeOk_obuf (s : State) (e : Effect) : (s.completeOk e).obuf = (s.putOut e.out).obuf := rfl
@[simp] theorem State.completeOk_schedule (s : State) (e : Effect) : (s.completeOk e).schedule = s.schedule := rfl
@[simp] theorem State.completeOk_draws (s : State) (e : Effect) : (s.completeOk e).draws = s.draws := rfl
@[simp] theorem State.completeOk_rdata (s : State) (e : Effect) : (s.completeOk e).rdata = s.rdata := rfl

/-! ## raiseOutcome -/

@[simp] theorem State.raiseOutcome_params (s : State) (e : Err) : (s.raiseOutcome e).params = s.params := rfl
@[simp] theorem State.raiseOutcome_cmd (s : State) (e : Err) : (s.raiseOutcome e).cmd = s.cmd := rfl
@[simp] theorem State.raiseOutcome_pend (s : State) (e : Err) : (s.raiseOutcome e).pend = s.pend := rfl
@[simp] theorem State.raiseOutcome_busy (s : State) (e : Err) : (s.raiseOutcome e).busy = false := rfl
@[simp] theorem State.raiseOutcome_dropped (s : State) (e : Err) : (s.raiseOutcome e).dropped = s.dropped := rfl
@[simp] theorem State.raiseOutcome_kind (s : State) (e : Err) : (s.raiseOutcome e).kind = e.kind := rfl
@[simp] theorem State.raiseOutcome_detail (s : State) (e : Err) : (s.raiseOutcome e).detail = e.detail := rfl
@[simp] theorem State.raiseOutcome_hostLE (s : State) (e : Err) : (s.raiseOutcome e).hostLE = s.hostLE := rfl
@[simp] theorem State.raiseOutcome_swap (s : State) (e : Err) : (s.raiseOutcome e).swap = s.swap := rfl
@[simp] theorem State.raiseOutcome_len (s : State) (e : Err) : (s.raiseOutcome e).len = s.len := rfl
@[simp] theorem State.raiseOutcome_olen (s : State) (e : Err) : (s.raiseOutcome e).olen = s.olen := rfl
@[simp] theorem State.raiseOutcome_res (s : State) (e : Err) : (s.raiseOutcome e).res = e.res.getD s.res := rfl
@[simp] theorem State.raiseOutcome_a0 (s : State) (e : Err) : (s.raiseOutcome e).a0 = s.a0 := rfl
@[simp] theorem State.raiseOutcome_a1 (s : State) (e : Err) : (s.raiseOutcome e).a1 = s.a1 := rfl
@[simp] theorem State.raiseOutcome_a2 (s : State) (e : Err) : (s.raiseOutcome e).a2 = s.a2 := rfl
@[simp] theorem State.raiseOutcome_a3 (s : State) (e : Err) : (s.raiseOutcome e).a3 = s.a3 := rfl
@[simp] theorem State.raiseOutcome_ibuf (s : State) (e : Err) : (s.raiseOutcome e).ibuf = s.ibuf := rfl
@[simp] theorem State.raiseOutcome_obuf (s : State) (e : Err) : (s.raiseOutcome e).obuf = s.obuf := rfl
@[simp] theorem State.raiseOutcome_schedule (s : State) (e : Err) : (s.raiseOutcome e).schedule = s.schedule := rfl
@[simp] theorem State.raiseOutcome_draws (s : State) (e : Err) : (s.raiseOutcome e).draws = s.draws := rfl
@[simp] theorem State.raiseOutcome_rdata (s : State) (e : Err) : (s.raiseOutcome e).rdata = s.rdata := rfl

/-! ## startCommand -/

@[simp] theorem State.startCommand_params (s : State) (v : Word) : (s.startCommand v).params = s.params := rfl
@[simp] theorem State.startCommand_cmd (s : State) (v : Word) : (s.startCommand v).cmd = v := rfl
@[simp] theorem State.startCommand_pend (s : State) (v : Word) : (s.startCommand v).pend = v := rfl
@[simp] theorem State.startCommand_busy (s : State) (v : Word) : (s.startCommand v).busy = true := rfl
@[simp] theorem State.startCommand_dropped (s : State) (v : Word) : (s.startCommand v).dropped = s.dropped := rfl
@[simp] theorem State.startCommand_kind (s : State) (v : Word) : (s.startCommand v).kind = s.kind := rfl
@[simp] theorem State.startCommand_detail (s : State) (v : Word) : (s.startCommand v).detail = s.detail := rfl
@[simp] theorem State.startCommand_hostLE (s : State) (v : Word) : (s.startCommand v).hostLE = s.hostLE := rfl
@[simp] theorem State.startCommand_swap (s : State) (v : Word) : (s.startCommand v).swap = s.swap := rfl
@[simp] theorem State.startCommand_len (s : State) (v : Word) : (s.startCommand v).len = s.len := rfl
@[simp] theorem State.startCommand_olen (s : State) (v : Word) : (s.startCommand v).olen = s.olen := rfl
@[simp] theorem State.startCommand_res (s : State) (v : Word) : (s.startCommand v).res = s.res := rfl
@[simp] theorem State.startCommand_a0 (s : State) (v : Word) : (s.startCommand v).a0 = s.a0 := rfl
@[simp] theorem State.startCommand_a1 (s : State) (v : Word) : (s.startCommand v).a1 = s.a1 := rfl
@[simp] theorem State.startCommand_a2 (s : State) (v : Word) : (s.startCommand v).a2 = s.a2 := rfl
@[simp] theorem State.startCommand_a3 (s : State) (v : Word) : (s.startCommand v).a3 = s.a3 := rfl
@[simp] theorem State.startCommand_ibuf (s : State) (v : Word) : (s.startCommand v).ibuf = s.ibuf := rfl
@[simp] theorem State.startCommand_obuf (s : State) (v : Word) : (s.startCommand v).obuf = s.obuf := rfl
@[simp] theorem State.startCommand_schedule (s : State) (v : Word) : (s.startCommand v).schedule = s.schedule := rfl
@[simp] theorem State.startCommand_draws (s : State) (v : Word) : (s.startCommand v).draws = s.draws := rfl
@[simp] theorem State.startCommand_rdata (s : State) (v : Word) : (s.startCommand v).rdata = s.rdata := rfl

/-! ## writeStatus -/

@[simp] theorem State.writeStatus_params (s : State) (v : Word) : (s.writeStatus v).params = s.params := rfl
@[simp] theorem State.writeStatus_cmd (s : State) (v : Word) : (s.writeStatus v).cmd = s.cmd := rfl
@[simp] theorem State.writeStatus_pend (s : State) (v : Word) : (s.writeStatus v).pend = s.pend := rfl
@[simp] theorem State.writeStatus_busy (s : State) (v : Word) : (s.writeStatus v).busy = s.busy := rfl
@[simp] theorem State.writeStatus_dropped (s : State) (v : Word) : (s.writeStatus v).dropped = (s.dropped && !v.getLsbD 1) := rfl
@[simp] theorem State.writeStatus_kind (s : State) (v : Word) : (s.writeStatus v).kind = s.kind := rfl
@[simp] theorem State.writeStatus_detail (s : State) (v : Word) : (s.writeStatus v).detail = s.detail := rfl
@[simp] theorem State.writeStatus_hostLE (s : State) (v : Word) : (s.writeStatus v).hostLE = s.hostLE := rfl
@[simp] theorem State.writeStatus_swap (s : State) (v : Word) : (s.writeStatus v).swap = s.swap := rfl
@[simp] theorem State.writeStatus_len (s : State) (v : Word) : (s.writeStatus v).len = s.len := rfl
@[simp] theorem State.writeStatus_olen (s : State) (v : Word) : (s.writeStatus v).olen = s.olen := rfl
@[simp] theorem State.writeStatus_res (s : State) (v : Word) : (s.writeStatus v).res = s.res := rfl
@[simp] theorem State.writeStatus_a0 (s : State) (v : Word) : (s.writeStatus v).a0 = s.a0 := rfl
@[simp] theorem State.writeStatus_a1 (s : State) (v : Word) : (s.writeStatus v).a1 = s.a1 := rfl
@[simp] theorem State.writeStatus_a2 (s : State) (v : Word) : (s.writeStatus v).a2 = s.a2 := rfl
@[simp] theorem State.writeStatus_a3 (s : State) (v : Word) : (s.writeStatus v).a3 = s.a3 := rfl
@[simp] theorem State.writeStatus_ibuf (s : State) (v : Word) : (s.writeStatus v).ibuf = s.ibuf := rfl
@[simp] theorem State.writeStatus_obuf (s : State) (v : Word) : (s.writeStatus v).obuf = s.obuf := rfl
@[simp] theorem State.writeStatus_schedule (s : State) (v : Word) : (s.writeStatus v).schedule = s.schedule := rfl
@[simp] theorem State.writeStatus_draws (s : State) (v : Word) : (s.writeStatus v).draws = s.draws := rfl
@[simp] theorem State.writeStatus_rdata (s : State) (v : Word) : (s.writeStatus v).rdata = s.rdata := rfl

/-! ## giveData -/

@[simp] theorem State.giveData_params (s : State) (v : Word) : (s.giveData v).params = s.params := rfl
@[simp] theorem State.giveData_cmd (s : State) (v : Word) : (s.giveData v).cmd = s.cmd := rfl
@[simp] theorem State.giveData_pend (s : State) (v : Word) : (s.giveData v).pend = s.pend := rfl
@[simp] theorem State.giveData_busy (s : State) (v : Word) : (s.giveData v).busy = s.busy := rfl
@[simp] theorem State.giveData_dropped (s : State) (v : Word) : (s.giveData v).dropped = s.dropped := rfl
@[simp] theorem State.giveData_kind (s : State) (v : Word) : (s.giveData v).kind = s.kind := rfl
@[simp] theorem State.giveData_detail (s : State) (v : Word) : (s.giveData v).detail = s.detail := rfl
@[simp] theorem State.giveData_hostLE (s : State) (v : Word) : (s.giveData v).hostLE = s.hostLE := rfl
@[simp] theorem State.giveData_swap (s : State) (v : Word) : (s.giveData v).swap = s.swap := rfl
@[simp] theorem State.giveData_len (s : State) (v : Word) : (s.giveData v).len = s.len := rfl
@[simp] theorem State.giveData_olen (s : State) (v : Word) : (s.giveData v).olen = s.olen := rfl
@[simp] theorem State.giveData_res (s : State) (v : Word) : (s.giveData v).res = s.res := rfl
@[simp] theorem State.giveData_a0 (s : State) (v : Word) : (s.giveData v).a0 = s.a0 := rfl
@[simp] theorem State.giveData_a1 (s : State) (v : Word) : (s.giveData v).a1 = s.a1 := rfl
@[simp] theorem State.giveData_a2 (s : State) (v : Word) : (s.giveData v).a2 = s.a2 := rfl
@[simp] theorem State.giveData_a3 (s : State) (v : Word) : (s.giveData v).a3 = s.a3 := rfl
@[simp] theorem State.giveData_ibuf (s : State) (v : Word) : (s.giveData v).ibuf = s.ibuf := rfl
@[simp] theorem State.giveData_obuf (s : State) (v : Word) : (s.giveData v).obuf = s.obuf := rfl
@[simp] theorem State.giveData_schedule (s : State) (v : Word) : (s.giveData v).schedule = s.schedule := rfl
@[simp] theorem State.giveData_draws (s : State) (v : Word) : (s.giveData v).draws = s.draws + 1 := rfl
@[simp] theorem State.giveData_rdata (s : State) (v : Word) : (s.giveData v).rdata = some v := rfl

@[simp] theorem State.putOut_some_obuf (s : State) (f : List Byte) : (s.putOut (some f)).obuf = bufWriteList s.obuf 0 f := rfl
@[simp] theorem State.putOut_none_obuf (s : State) : (s.putOut none).obuf = s.obuf := rfl
@[simp] theorem State.putOut_some_olen (s : State) (f : List Byte) : (s.putOut (some f)).olen = BitVec.ofNat 32 f.length := rfl
@[simp] theorem State.putOut_none_olen (s : State) : (s.putOut none).olen = s.olen := rfl
@[simp] theorem State.putIn_some_ibuf (s : State) (f : List Byte) : (s.putIn (some f)).ibuf = bufWriteList s.ibuf 0 f := rfl
@[simp] theorem State.putIn_none_ibuf (s : State) : (s.putIn none).ibuf = s.ibuf := rfl

/-! ## setOperand and storeIdle -/

@[simp] theorem State.setOperand_params (s : State) (r : OperandReg) (v : DWord) : (s.setOperand r v).params = s.params := by cases r <;> rfl
@[simp] theorem State.setOperand_cmd (s : State) (r : OperandReg) (v : DWord) : (s.setOperand r v).cmd = s.cmd := by cases r <;> rfl
@[simp] theorem State.setOperand_pend (s : State) (r : OperandReg) (v : DWord) : (s.setOperand r v).pend = s.pend := by cases r <;> rfl
@[simp] theorem State.setOperand_busy (s : State) (r : OperandReg) (v : DWord) : (s.setOperand r v).busy = s.busy := by cases r <;> rfl
@[simp] theorem State.setOperand_dropped (s : State) (r : OperandReg) (v : DWord) : (s.setOperand r v).dropped = s.dropped := by cases r <;> rfl
@[simp] theorem State.setOperand_kind (s : State) (r : OperandReg) (v : DWord) : (s.setOperand r v).kind = s.kind := by cases r <;> rfl
@[simp] theorem State.setOperand_detail (s : State) (r : OperandReg) (v : DWord) : (s.setOperand r v).detail = s.detail := by cases r <;> rfl
@[simp] theorem State.setOperand_hostLE (s : State) (r : OperandReg) (v : DWord) : (s.setOperand r v).hostLE = s.hostLE := by cases r <;> rfl
@[simp] theorem State.setOperand_swap (s : State) (r : OperandReg) (v : DWord) : (s.setOperand r v).swap = s.swap := by cases r <;> rfl
@[simp] theorem State.setOperand_len (s : State) (r : OperandReg) (v : DWord) : (s.setOperand r v).len = s.len := by cases r <;> rfl
@[simp] theorem State.setOperand_olen (s : State) (r : OperandReg) (v : DWord) : (s.setOperand r v).olen = s.olen := by cases r <;> rfl
@[simp] theorem State.setOperand_res (s : State) (r : OperandReg) (v : DWord) : (s.setOperand r v).res = s.res := by cases r <;> rfl
@[simp] theorem State.setOperand_ibuf (s : State) (r : OperandReg) (v : DWord) : (s.setOperand r v).ibuf = s.ibuf := by cases r <;> rfl
@[simp] theorem State.setOperand_obuf (s : State) (r : OperandReg) (v : DWord) : (s.setOperand r v).obuf = s.obuf := by cases r <;> rfl
@[simp] theorem State.setOperand_schedule (s : State) (r : OperandReg) (v : DWord) : (s.setOperand r v).schedule = s.schedule := by cases r <;> rfl
@[simp] theorem State.setOperand_draws (s : State) (r : OperandReg) (v : DWord) : (s.setOperand r v).draws = s.draws := by cases r <;> rfl
@[simp] theorem State.setOperand_rdata (s : State) (r : OperandReg) (v : DWord) : (s.setOperand r v).rdata = s.rdata := by cases r <;> rfl
@[simp] theorem operand_setOperand (s : State) (r q : OperandReg) (v : DWord) :
    operand (s.setOperand r v) q = if q = r then v else operand s q := by cases r <;> cases q <;> rfl

theorem storeIdle_busy {s stored : State} (h : s.busy = true) : storeIdle s stored = { s with dropped := true } := by
  simp [storeIdle, h]

theorem storeIdle_idle {s stored : State} (h : s.busy = false) : storeIdle s stored = stored := by
  simp [storeIdle, h]

end Sys2Proof.Machine
end

