-- ==== Sys2Proof/Laws/Ops.lean ====
section
/-! SUPPORT. What the shared operations can do: finish, the checks, the input read, sequencing. -/

namespace Sys2Proof.Machine

/-! ## Sequencing -/

@[simp] theorem ok_bind {α β : Type} (a : α) (k : α → Except Stop β) : ((Except.ok a : Except Stop α) >>= k) = k a := rfl

@[simp] theorem error_bind {α β : Type} (e : Stop) (k : α → Except Stop β) :
    ((Except.error e : Except Stop α) >>= k) = .error e := rfl

@[simp] theorem raise_bind {α β : Type} (e : Err) (k : α → Except Stop β) :
    ((raise e : Except Stop α) >>= k) = raise e := rfl

@[simp] theorem pure_eq_ok {α : Type} (a : α) : (pure a : Except Stop α) = .ok a := rfl

theorem bind_eq_ok {α β : Type} {x : Except Stop α} {k : α → Except Stop β} {b : β} :
    (x >>= k) = .ok b ↔ ∃ a, x = .ok a ∧ k a = .ok b := by
  cases x <;> simp

theorem bind_eq_error {α β : Type} {x : Except Stop α} {k : α → Except Stop β} {e : Stop} :
    (x >>= k) = .error e ↔ x = .error e ∨ ∃ a, x = .ok a ∧ k a = .error e := by
  cases x <;> simp

@[simp] theorem raise_ne_ok {α : Type} (e : Err) (a : α) : (raise e : Except Stop α) ≠ .ok a := nofun

@[simp] theorem raise_eq_error {α : Type} (e : Err) (x : Stop) : (raise e : Except Stop α) = .error x ↔ x = .raised e := by
  simp [raise, eq_comm]

/-! ## Checks -/

theorem ensure_true (d : ValidationDetail) : ensure true d = .ok () := rfl

theorem ensure_false (d : ValidationDetail) : ensure false d = raise (.validation d) := rfl

@[simp] theorem ensure_eq_ok {ok : Bool} {d : ValidationDetail} {u : Unit} : ensure ok d = .ok u ↔ ok = true := by
  cases ok <;> simp [ensure, raise]

@[simp] theorem ensure_eq_error {ok : Bool} {d : ValidationDetail} {x : Stop} :
    ensure ok d = .error x ↔ ok = false ∧ x = .raised (.validation d) := by
  cases ok <;> simp [ensure, raise, eq_comm]

theorem ensure_pos {p : Prop} [Decidable p] (h : p) (d : ValidationDetail) : ensure (decide p) d = .ok () := by
  simp [h]

theorem ensure_neg {p : Prop} [Decidable p] (h : ¬ p) (d : ValidationDetail) :
    ensure (decide p) d = raise (.validation d) := by
  simp [h, ensure]

theorem elemWidth_pos (w : BitVec 3) : 0 < elemWidth w := Nat.two_pow_pos _

/-- The supported widths are the codes 0 to 3. -/
theorem widthOk_iff {w : BitVec 3} : widthOk w = true ↔ w.toNat ≤ 3 := by
  revert w; decide

/-! ## The input bytes -/

theorem readIbuf_eq_ok {s : State} {f : List Byte} :
    readIbuf s = .ok f ↔ f.length = s.len.toNat ∧ ∀ j, j < s.len.toNat → bufRead s.ibuf j = f[j]? := by
  have := @bufReadList_eq_some s.ibuf 0 s.len.toNat f
  simp only [Nat.zero_add] at this
  rw [← this]
  simp only [readIbuf]
  cases bufReadList s.ibuf 0 s.len.toNat <;> simp

theorem readIbuf_eq_error {s : State} {x : Stop} :
    readIbuf s = .error x ↔ x = .fault .uninitRead ∧ ∃ j, j < s.len.toNat ∧ bufRead s.ibuf j = none := by
  have := @bufReadList_eq_none s.ibuf 0 s.len.toNat
  simp only [Nat.zero_add] at this
  rw [← this]
  simp only [readIbuf]
  cases bufReadList s.ibuf 0 s.len.toNat <;> simp [eq_comm]

/-! ## How a command ends -/

/-- A command that gives a next state ran to its end or raised an outcome. -/
theorem finish_eq_next {s t : State} {r : Except Stop Effect} :
    finish s r = .next t ↔
      (∃ e, r = .ok e ∧ t = s.completeOk e) ∨ (∃ e, r = .error (.raised e) ∧ t = s.raiseOutcome e) := by
  rcases r with (_ | _) | e <;> simp [finish, eq_comm]

theorem finish_eq_fault {s : State} {r : Except Stop Effect} {f : Fault} :
    finish s r = .fault f ↔ r = .error (.fault f) := by
  rcases r with (_ | _) | e <;> simp [finish]

theorem finish_ne_refused {s : State} {r : Except Stop Effect} {x : Refusal} : finish s r ≠ .refused x := by
  rcases r with (_ | _) | e <;> simp [finish]

@[simp] theorem finish_ok (s : State) (e : Effect) : finish s (.ok e) = .next (s.completeOk e) := rfl

@[simp] theorem finish_raise (s : State) (e : Err) : finish s (raise e) = .next (s.raiseOutcome e) := rfl

@[simp] theorem finish_fault (s : State) (f : Fault) : finish s (.error (.fault f)) = .fault f := rfl

/-- No outcome writes KIND 0, and each writes a legal pair of KIND and DETAIL. -/
theorem err_kind_ne_zero (e : Err) : e.kind ≠ 0 := by
  cases e <;> simp [Err.kind]

theorem err_outcomeLegal (e : Err) : outcomeLegal e.kind e.detail = true := by
  cases e with
  | validation d => cases d <;> decide
  | framing d => cases d <;> decide
  | protocolException c m => rfl
  | shape d => cases d <;> decide
  | notImplemented => decide
  | command d => cases d <;> decide

end Sys2Proof.Machine
end

