-- ==== Sys2Proof/Laws/Bus.lean ====
section
/-! SUPPORT. The host's accesses: what stands at an offset of the window, and what a step does with an access. -/

namespace Sys2Proof.Machine

/-! ## Parameters -/

theorem params_legal_iff {p : Params} : p.legal = true ↔
    (1 ≤ p.ibufBytes ∧ p.ibufBytes ≤ 4096) ∧ (1 ≤ p.obufBytes ∧ p.obufBytes ≤ 4096) ∧
    p.fcode.legal = true ∧ p.xcode.legal = true := by
  simp [Params.legal, and_assoc]

/-! ## The register map -/

theorem inIbuf_iff {p : Params} {off : Nat} : inIbuf p off = true ↔ 0x1000 ≤ off ∧ off < 0x1000 + p.ibufBytes := by
  simp [inIbuf]

theorem inObuf_iff {p : Params} {off : Nat} : inObuf p off = true ↔ 0x2000 ≤ off ∧ off < 0x2000 + p.obufBytes := by
  simp [inObuf]

/-! The registers, one lemma each (R51). -/

theorem locate_cmd (p : Params) : locate p 0x000 = .cmd := rfl
theorem locate_status (p : Params) : locate p 0x004 = .status := rfl
theorem locate_cfg (p : Params) : locate p 0x008 = .cfg := rfl
theorem locate_len (p : Params) : locate p 0x00C = .len := rfl
theorem locate_olen (p : Params) : locate p 0x010 = .olen := rfl
theorem locate_resLo (p : Params) : locate p 0x018 = .resLo := rfl
theorem locate_resHi (p : Params) : locate p 0x01C = .resHi := rfl
theorem locate_a0Lo (p : Params) : locate p 0x020 = .operandLo .a0 := rfl
theorem locate_a0Hi (p : Params) : locate p 0x024 = .operandHi .a0 := rfl
theorem locate_a1Lo (p : Params) : locate p 0x028 = .operandLo .a1 := rfl
theorem locate_a1Hi (p : Params) : locate p 0x02C = .operandHi .a1 := rfl
theorem locate_a2Lo (p : Params) : locate p 0x030 = .operandLo .a2 := rfl
theorem locate_a2Hi (p : Params) : locate p 0x034 = .operandHi .a2 := rfl
theorem locate_a3Lo (p : Params) : locate p 0x038 = .operandLo .a3 := rfl
theorem locate_a3Hi (p : Params) : locate p 0x03C = .operandHi .a3 := rfl

/-- An offset of the register page or above it that is no register. -/
theorem locate_of_ge {p : Params} {off : Nat} (h : 0x040 ≤ off) :
    locate p off =
      if inIbuf p off then .ibuf (off - 0x1000) else if inObuf p off then .obuf (off - 0x2000) else .reserved := by
  unfold locate
  split <;> first | omega | rfl

/-- The IBUF window. -/
theorem locate_of_ibuf {p : Params} {off : Nat} (h1 : 0x1000 ≤ off) (h2 : off < 0x1000 + p.ibufBytes) :
    locate p off = .ibuf (off - 0x1000) := by
  rw [locate_of_ge (by omega), if_pos (inIbuf_iff.2 ⟨h1, h2⟩)]

/-- The OBUF window, which begins above the largest IBUF. -/
theorem locate_of_obuf {p : Params} (hp : p.legal = true) {off : Nat} (h1 : 0x2000 ≤ off)
    (h2 : off < 0x2000 + p.obufBytes) : locate p off = .obuf (off - 0x2000) := by
  have := params_legal_iff.1 hp
  have hn : ¬ inIbuf p off = true := by rw [inIbuf_iff]; omega
  rw [locate_of_ge (by omega), if_neg hn, if_pos (inObuf_iff.2 ⟨h1, h2⟩)]

/-- Everything at 0x040 or above that is no buffer byte. -/
theorem locate_of_gap {p : Params} {off : Nat} (h : 0x040 ≤ off) (hi : ¬ (0x1000 ≤ off ∧ off < 0x1000 + p.ibufBytes))
    (ho : ¬ (0x2000 ≤ off ∧ off < 0x2000 + p.obufBytes)) : locate p off = .reserved := by
  rw [locate_of_ge h, if_neg (by rw [inIbuf_iff]; exact hi), if_neg (by rw [inObuf_iff]; exact ho)]

/-- A buffer byte's index is inside its buffer. -/
theorem locate_eq_ibuf {p : Params} {off i : Nat} (h : locate p off = .ibuf i) : i < p.ibufBytes := by
  unfold locate at h
  split at h <;> try cases h
  split at h
  · rename_i hb
    rw [inIbuf_iff] at hb
    rw [Location.ibuf.injEq] at h
    omega
  · split at h <;> cases h

theorem locate_eq_obuf {p : Params} {off i : Nat} (h : locate p off = .obuf i) : i < p.obufBytes := by
  unfold locate at h
  split at h <;> try cases h
  split at h
  · cases h
  · split at h
    · rename_i hb
      rw [inObuf_iff] at hb
      rw [Location.obuf.injEq] at h
      omega
    · cases h

/-! ## One step on an access -/

theorem selected_base_add {p : Params} {off : Nat} : selected p (p.base + off) = true ↔ off < 0x3000 := by
  simp [selected]

/-- A legal write at the head of the schedule. -/
theorem step_write {s : State} {rest : List Event} {off n : Nat} {d : BitVec 64}
    (h : s.schedule = .write (s.params.base + off) n d :: rest) (hs : off < 0x3000)
    (hl : accessLegal s.params off n = true) :
    step s = .next (writeValue { s with schedule := rest } off n d) := by
  simp only [step, h, applyEvent, hostWrite, selected_base_add.2 hs, if_true, Nat.add_sub_cancel_left, hl]

/-- A legal read at the head of the schedule. -/
theorem step_read {s : State} {rest : List Event} {off n : Nat}
    (h : s.schedule = .read (s.params.base + off) n :: rest) (hs : off < 0x3000)
    (hl : accessLegal s.params off n = true) :
    step s = .next { s with
      schedule := rest, draws := s.draws + 1
      rdata := some (readValue { s with schedule := rest } off n (Config.freeWord s.draws)) } := by
  simp only [step, h, applyEvent, hostRead, selected_base_add.2 hs, if_true, Nat.add_sub_cancel_left, hl, State.giveData]

/-- An aligned 32-bit access is legal. -/
theorem accessLegal_word {p : Params} {off : Nat} (h : off % 4 = 0) : accessLegal p off 4 = true := by
  simp [accessLegal, h]

/-- An 8-bit access of a buffer window is legal. -/
theorem accessLegal_byte {p : Params} {off : Nat} (h : inIbuf p off = true ∨ inObuf p off = true) :
    accessLegal p off 1 = true := by
  simpa [accessLegal] using h

/-! ## What a write changes -/

/-- While busy a legal write changes at most DROPPED. -/
theorem writeValue_busy {s : State} (hb : s.busy = true) (off n : Nat) (d : BitVec 64) :
    ∃ b, writeValue s off n d = { s with dropped := b } := by
  unfold writeValue
  split <;> first
    | exact ⟨true, by rw [storeIdle, if_pos hb]⟩
    | exact ⟨s.dropped, rfl⟩
    | exact ⟨_, rfl⟩

/-- Byte j of a buffer read, on numbers: the byte at its index where the access covers it, else 0 (20_memory.md R55,
R56). -/
theorem bufferValue_byte (byteAt : Nat → Byte → Byte) (i : Nat) (free : Word) {n : Nat} (hn : n = 1 ∨ n = 4) {j : Nat}
    (hj : j < 4) :
    (bufferValue byteAt i n free).toNat / 2 ^ (8 * j) % 2 ^ 8 =
      if j < n then (byteAt (i + j) (byteOf free j)).toNat else 0 := by
  have := (byteAt i (byteOf free 0)).isLt
  rcases hn with rfl | rfl
  · simp only [bufferValue, if_true]
    interval_cases j <;> simp <;> omega
  · have := (byteAt (i + 1) (byteOf free 1)).isLt
    have := (byteAt (i + 2) (byteOf free 2)).isLt
    have := (byteAt (i + 3) (byteOf free 3)).isLt
    simp only [bufferValue, if_neg (show ¬ 4 = 1 by decide), wordOfBytes_toNat, hj, if_true]
    interval_cases j <;> simp <;> omega

end Sys2Proof.Machine
end

