-- ==== Sys2Proof/Laws/Checksum.lean ====
section
/-! SUPPORT. The checksum: its rounds and byte steps are injective (40_checksum.md R101 item 4), and what two trailer
bytes do to it. -/

namespace Sys2Proof.Machine

/-- The eight rounds for a byte. -/
def crcRounds (x : BitVec 16) : BitVec 16 :=
  crcRound (crcRound (crcRound (crcRound (crcRound (crcRound (crcRound (crcRound x)))))))

theorem crcByte_eq (acc : BitVec 16) (b : Byte) : crcByte acc b = crcRounds (acc ^^^ b.setWidth 16) := rfl

/-- Bit 15 of a round's result is the bit shifted out. -/
theorem crcRound_bit15 (x : BitVec 16) : (crcRound x).getLsbD 15 = x.getLsbD 0 := by
  unfold crcRound
  cases h : x.getLsbD 0 <;> simp

theorem crcRound_injective {x y : BitVec 16} (h : crcRound x = crcRound y) : x = y := by
  have h0 : x.getLsbD 0 = y.getLsbD 0 := by rw [← crcRound_bit15, ← crcRound_bit15, h]
  have hs : x >>> 1 = y >>> 1 := by
    unfold crcRound at h
    rw [h0] at h
    split at h
    · exact (BitVec.xor_left_inj _).1 h
    · exact h
  apply BitVec.eq_of_getLsbD_eq
  intro i hi
  cases i with
  | zero => exact h0
  | succ i =>
    have := congrArg (fun z => z.getLsbD i) hs
    simpa [Nat.add_comm 1 i] using this

theorem crcRounds_injective {x y : BitVec 16} (h : crcRounds x = crcRounds y) : x = y :=
  crcRound_injective (crcRound_injective (crcRound_injective (crcRound_injective (crcRound_injective
    (crcRound_injective (crcRound_injective (crcRound_injective h)))))))

/-- A byte step separates accumulators. -/
theorem crcByte_injective {a a' : BitVec 16} {b : Byte} (h : crcByte a b = crcByte a' b) : a = a' :=
  (BitVec.xor_left_inj _).1 (crcRounds_injective h)

/-- A byte step separates bytes. -/
theorem crcByte_injective_byte {a : BitVec 16} {b b' : Byte} (h : crcByte a b = crcByte a b') : b = b' := by
  have h1 : b.setWidth 16 = b'.setWidth 16 := (BitVec.xor_right_inj _).1 (crcRounds_injective h)
  have h2 := congrArg BitVec.toNat h1
  apply BitVec.eq_of_toNat_eq
  simpa [Nat.mod_eq_of_lt (show b.toNat < 65536 by omega), Nat.mod_eq_of_lt (show b'.toNat < 65536 by omega)] using h2

theorem crcFold_injective {f : List Byte} {a a' : BitVec 16} (h : f.foldl crcByte a = f.foldl crcByte a') : a = a' := by
  induction f generalizing a a' with
  | nil => exact h
  | cons b f ih => exact crcByte_injective (ih h)

theorem crc16_append (f g : List Byte) : crc16 (f ++ g) = g.foldl crcByte (crc16 f) := by
  simp [crc16]

/-- The rounds move a high byte down when the low byte is 0. -/
theorem crcRounds_high (h : Byte) : crcRounds (h.setWidth 16 <<< 8) = h.setWidth 16 := by
  revert h
  decide +kernel

/-- The two bytes of the accumulator, low byte first, bring it to 0 (R101 item 3). -/
theorem crc_trailer (c : BitVec 16) : (le16 c).foldl crcByte c = 0 := by
  have h1 : c ^^^ (c.extractLsb' 0 8).setWidth 16 = (c.extractLsb' 8 8).setWidth 16 <<< 8 := by
    apply BitVec.eq_of_getLsbD_eq
    intro i hi
    interval_cases i <;> simp
  simp only [le16, List.foldl_cons, List.foldl_nil, crcByte_eq, h1, crcRounds_high, BitVec.xor_self]
  decide

/-- The value of a round as a number. -/
theorem crcRound_toNat (x : BitVec 16) :
    (crcRound x).toNat = if x.toNat % 2 = 1 then (x.toNat / 2) ^^^ 0xA001 else x.toNat / 2 := by
  have h0 : x.getLsbD 0 = decide (x.toNat % 2 = 1) := by simp [BitVec.getLsbD, Nat.testBit_zero]
  unfold crcRound
  rw [h0]
  by_cases h : x.toNat % 2 = 1 <;> simp [h, Nat.shiftRight_one]

end Sys2Proof.Machine
end

