-- ==== Sys2Proof/Laws/Commands.lean ====
section
/-! SUPPORT. Every command is finish of its own pseudocode; what that pseudocode can give: the sizes of its
writes, and the one fault. -/

namespace Sys2Proof.Machine

/-- The pseudocode of a command, before finish. -/
def commandOf (i : Instr) (s : State) : Except Stop Effect :=
  match i with
  | .crc16 => crc16Command s
  | .swap8 c => scalarSwap (n := 8) (fun v => v) c s
  | .swap16 c => scalarSwap (n := 16) swap2 c s
  | .swap32 c => scalarSwap (n := 32) swap4 c s
  | .swap64 c => scalarSwap (n := 64) swap8 c s
  | .swapWide _ _ => raise (.validation .width)
  | .wpswap w => wpswapCommand w s
  | .swapbuf w c dst => swapbufCommand w c dst s
  | .encodeRC wrap => encodeRead .rc s.params.qmaxReadBits wrap s
  | .encodeRDI wrap => encodeRead .rdi s.params.qmaxReadBits wrap s
  | .encodeRHR wrap => encodeRead .rhr s.params.qmaxReadRegs wrap s
  | .encodeRIR wrap => encodeRead .rir s.params.qmaxReadRegs wrap s
  | .encodeWSC wrap => encodeWriteCoil wrap s
  | .encodeWSR wrap => encodeWriteRegister wrap s
  | .encodeWMC _ => encodeUnimplemented .wmc s
  | .encodeWMR w c wrap => encodeWriteRegisters w c wrap s
  | .encodeRFR _ => encodeUnimplemented .rfr s
  | .encodeWFR _ => encodeUnimplemented .wfr s
  | .encodeMWR _ => encodeUnimplemented .mwr s
  | .encodeRWMR w c wrap => encodeReadWrite w c wrap s
  | .encodeRFQ _ => encodeUnimplemented .rfq s
  | .validate => validateCommand s
  | .qsize w => qsizeCommand w s
  | .xlate fc => xlateCommand fc s
  | .parseRC w c serial => parseCommand .rc w c serial s
  | .parseRDI w c serial => parseCommand .rdi w c serial s
  | .parseRHR w c serial => parseCommand .rhr w c serial s
  | .parseRIR w c serial => parseCommand .rir w c serial s
  | .parseWSC serial => parseCommand .wsc 0 .always serial s
  | .parseWSR serial => parseCommand .wsr 0 .always serial s
  | .parseWMC serial => parseCommand .wmc 0 .always serial s
  | .parseWMR serial => parseCommand .wmr 0 .always serial s
  | .parseRFR serial => parseCommand .rfr 0 .always serial s
  | .parseWFR serial => parseCommand .wfr 0 .always serial s
  | .parseMWR serial => parseCommand .mwr 0 .always serial s
  | .parseRWMR w c serial => parseCommand .rwmr w c serial s
  | .parseRFQ serial => parseCommand .rfq 0 .always serial s

theorem exec_eq_finish (i : Instr) (s : State) : exec i s = finish s (commandOf i s) := by
  cases i <;> rfl

/-! ## Reversing elements keeps the length -/

theorem reverseElements_length (w k : Nat) (s : List Byte) (h : k * w ≤ s.length) :
    (reverseElements w k s).length = k * w := by
  induction k generalizing s with
  | zero => simp [reverseElements]
  | succ k ih =>
    rw [Nat.succ_mul] at h
    rw [reverseElements, List.length_append, List.length_reverse, List.length_take, ih _ (by simp; omega), Nat.succ_mul]
    omega

theorem eswap_length {s : List Byte} {w : Nat} (h : s.length % w = 0) (c : Bool) : (eswap s w c).length = s.length := by
  cases c with
  | false => rfl
  | true =>
    have : s.length / w * w = s.length := Nat.div_mul_cancel (Nat.dvd_of_mod_eq_zero h)
    rw [eswap, if_pos rfl, reverseElements_length _ _ _ (by omega), this]

/-! ## What a command's pseudocode gives -/

/-- The sizes of what a command writes: an output fits in OBUF, and the bytes put back into IBUF are LEN many, no
more than IBUF holds. -/
def Effect.Fits (e : Effect) (s : State) : Prop :=
  (∀ f, e.out = some f → f.length ≤ s.params.obufBytes) ∧
  (∀ f, e.inPlace = some f → f.length = s.len.toNat ∧ s.len.toNat ≤ s.params.ibufBytes)

theorem fits_res (s : State) (v : DWord) : ({ res := some v } : Effect).Fits s := by
  constructor <;> simp

theorem encodeOutput_eq_ok {wrap : Bool} {pdu : List Byte} {s : State} {e : Effect} :
    encodeOutput wrap pdu s = .ok e ↔
      (frame wrap (s.a0.setWidth 8) pdu).length ≤ s.params.obufBytes ∧
      e = { out := some (frame wrap (s.a0.setWidth 8) pdu) } := by
  simp only [encodeOutput, checkOut, bind_eq_ok, ensure_eq_ok, decide_eq_true_eq, pure_eq_ok, Except.ok.injEq]
  constructor
  · rintro ⟨_, h, rfl⟩; exact ⟨h, rfl⟩
  · rintro ⟨h, rfl⟩; exact ⟨(), h, rfl⟩

theorem encodeOutput_eq_error {wrap : Bool} {pdu : List Byte} {s : State} {x : Stop} :
    encodeOutput wrap pdu s = .error x ↔
      ¬ (frame wrap (s.a0.setWidth 8) pdu).length ≤ s.params.obufBytes ∧ x = .raised (.validation .outOverflow) := by
  simp [encodeOutput, checkOut, bind_eq_error]

theorem encodeOutput_fits {wrap : Bool} {pdu : List Byte} {s : State} {e : Effect}
    (h : encodeOutput wrap pdu s = .ok e) : e.Fits s := by
  obtain ⟨h1, rfl⟩ := encodeOutput_eq_ok.1 h
  constructor <;> simp [h1]

theorem extract_fits {bc : Byte} {rest : List Byte} {avail need : Nat} {w : BitVec 3} {c : Cond} {s : State} {e : Effect}
    (hw : need % elemWidth w = 0) (hav : avail ≤ rest.length)
    (h : extract bc rest avail need w c s = .ok e) : e.Fits s := by
  simp only [extract] at h
  split at h
  · simp at h
  · rename_i hs
    simp only [Bool.or_eq_true, decide_eq_true_eq, not_or, Nat.not_lt] at hs
    simp only [pure_eq_ok, checkOut, bind_eq_ok, ensure_eq_ok, decide_eq_true_eq, Except.ok.injEq] at h
    obtain ⟨_, h1, rfl⟩ := h
    have hl : (rest.take need).length = need := by simp; omega
    constructor
    · intro f hf
      simp only [Option.some.injEq] at hf
      rw [← hf, eswap_length (by rw [hl]; exact hw), hl]
      exact h1
    · simp

theorem neededLength_mod {cls : RespClass} {w : BitVec 3} {s : State} {k : Nat}
    (h : neededLength cls w s = .ok (some k)) : k % elemWidth w = 0 := by
  cases cls <;>
    simp [neededLength, checkQty, checkWidth, checkLenAlign, bind_eq_ok] at h <;>
    (try (obtain ⟨_, _, h1, rfl⟩ := h; exact h1))

theorem interpret_fits {fc : Byte} {need : Option Nat} {serial : Bool} {w : BitVec 3} {c : Cond} {f : List Byte}
    {s : State} {e : Effect} (hn : ∀ k, need = some k → k % elemWidth w = 0)
    (h : interpret fc need serial w c f s = .ok e) : e.Fits s := by
  simp only [interpret] at h
  split at h
  · split at h
    · simp at h
    · split at h
      · simp at h
      · split at h
        · cases h; constructor <;> simp
        · refine extract_fits (hn _ rfl) ?_ h
          simp
  · simp at h

theorem parseCommand_fits {n : FcName} {w : BitVec 3} {c : Cond} {serial : Bool} {s : State} {e : Effect}
    (h : parseCommand n w c serial s = .ok e) : e.Fits s := by
  simp only [parseCommand] at h
  split at h
  · simp at h
  · simp only [parseClass, bind_eq_ok] at h
    obtain ⟨_, _, _, _, need, hneed, f, _, _, _, h⟩ := h
    refine interpret_fits ?_ h
    rintro k rfl
    exact neededLength_mod hneed

theorem swapbufCommand_fits {w : BitVec 3} {c : Cond} {dst : Bool} {s : State} {e : Effect}
    (h : swapbufCommand w c dst s = .ok e) : e.Fits s := by
  simp only [swapbufCommand, checkWidth, checkLenRange, checkLenAlign, bind_eq_ok, ensure_eq_ok, decide_eq_true_eq,
    beq_iff_eq] at h
  obtain ⟨_, _, _, hr, _, hm, f, hf, h⟩ := h
  obtain ⟨hl, _⟩ := readIbuf_eq_ok.1 hf
  have hlen : (eswap f (elemWidth w) (condTrue c s)).length = s.len.toNat := by
    rw [eswap_length (by rw [hl]; exact hm), hl]
  cases dst with
  | true =>
    cases h
    constructor
    · simp
    · intro g hg
      simp only [Option.some.injEq] at hg
      exact ⟨by rw [← hg, hlen], hr⟩
  | false =>
    simp only [Bool.false_eq_true, if_false, checkOut, bind_eq_ok, ensure_eq_ok, decide_eq_true_eq, pure_eq_ok,
      Except.ok.injEq] at h
    obtain ⟨_, h1, rfl⟩ := h
    constructor
    · intro g hg
      simp only [Option.some.injEq] at hg
      rw [← hg, hlen]
      exact h1
    · simp

/-- Whatever a command writes fits. -/
theorem commandOf_fits {i : Instr} {s : State} {e : Effect} (h : commandOf i s = .ok e) : e.Fits s := by
  cases i <;> simp only [commandOf] at h
  case crc16 => simp only [crc16Command, bind_eq_ok, pure_eq_ok, Except.ok.injEq] at h; obtain ⟨_, _, _, _, rfl⟩ := h; exact fits_res s _
  case swap8 => cases h; exact fits_res s _
  case swap16 => cases h; exact fits_res s _
  case swap32 => cases h; exact fits_res s _
  case swap64 => cases h; exact fits_res s _
  case swapWide => simp at h
  case wpswap => simp only [wpswapCommand, bind_eq_ok, pure_eq_ok, Except.ok.injEq] at h; obtain ⟨_, _, rfl⟩ := h; exact fits_res s _
  case swapbuf => exact swapbufCommand_fits h
  case validate => simp only [validateCommand, bind_eq_ok, pure_eq_ok, Except.ok.injEq] at h; obtain ⟨_, _, _, _, _, _, rfl⟩ := h; exact fits_res s _
  case qsize => simp only [qsizeCommand, bind_eq_ok, pure_eq_ok, Except.ok.injEq] at h; obtain ⟨_, _, _, _, _, _, rfl⟩ := h; exact fits_res s _
  case xlate => simp only [xlateCommand, bind_eq_ok, pure_eq_ok, Except.ok.injEq] at h; obtain ⟨_, _, rfl⟩ := h; exact fits_res s _
  all_goals first
    | exact parseCommand_fits h
    | (simp only [encodeUnimplemented, bind_eq_ok, raise_ne_ok, and_false, exists_false] at h)
    | (simp only [encodeRead, encodeWriteCoil, encodeWriteRegister, encodeWriteRegisters, encodeReadWrite, bind_eq_ok] at h
       first
       | (obtain ⟨_, _, _, _, _, _, h⟩ := h; exact encodeOutput_fits h)
       | (obtain ⟨_, _, _, _, _, _, _, _, _, _, h⟩ := h; exact encodeOutput_fits h))

/-! ## What kind of write a command makes -/

/-- Only RES. -/
def Effect.ResOnly (e : Effect) : Prop := e.out = none ∧ e.inPlace = none

/-- Only an output sequence. -/
def Effect.OutOnly (e : Effect) : Prop := e.res = none ∧ e.inPlace = none ∧ e.out.isSome = true

theorem encodeOutput_outOnly {wrap : Bool} {pdu : List Byte} {s : State} {e : Effect}
    (h : encodeOutput wrap pdu s = .ok e) : e.OutOnly := by
  obtain ⟨_, rfl⟩ := encodeOutput_eq_ok.1 h
  exact ⟨rfl, rfl, rfl⟩

theorem extract_outOnly {bc : Byte} {rest : List Byte} {avail need : Nat} {w : BitVec 3} {c : Cond} {s : State}
    {e : Effect} (h : extract bc rest avail need w c s = .ok e) : e.OutOnly := by
  simp only [extract] at h
  split at h
  · simp at h
  · simp only [bind_eq_ok, pure_eq_ok, Except.ok.injEq] at h
    obtain ⟨_, _, rfl⟩ := h
    exact ⟨rfl, rfl, rfl⟩

theorem interpret_outOnly {fc : Byte} {need : Option Nat} {serial : Bool} {w : BitVec 3} {c : Cond} {f : List Byte}
    {s : State} {e : Effect} (h : interpret fc need serial w c f s = .ok e) : e.OutOnly := by
  simp only [interpret] at h
  split at h
  · split at h
    · simp at h
    · split at h
      · simp at h
      · split at h
        · cases h
          exact ⟨rfl, rfl, rfl⟩
        · exact extract_outOnly h
  · simp at h

theorem parseCommand_outOnly {n : FcName} {w : BitVec 3} {c : Cond} {serial : Bool} {s : State} {e : Effect}
    (h : parseCommand n w c serial s = .ok e) : e.OutOnly := by
  simp only [parseCommand] at h
  split at h
  · simp at h
  · simp only [parseClass, bind_eq_ok] at h
    obtain ⟨_, _, _, _, _, _, _, _, _, _, h⟩ := h
    exact interpret_outOnly h

/-- What a command that runs to its end writes, by its name. -/
theorem commandOf_shape {i : Instr} {s : State} {e : Effect} (h : commandOf i s = .ok e) :
    match i with
    | .crc16 => e.ResOnly
    | .swap8 _ => e.ResOnly
    | .swap16 _ => e.ResOnly
    | .swap32 _ => e.ResOnly
    | .swap64 _ => e.ResOnly
    | .swapWide _ _ => e.ResOnly
    | .wpswap _ => e.ResOnly
    | .swapbuf _ _ dst => if dst then e.res = none ∧ e.out = none ∧ e.inPlace.isSome = true else e.OutOnly
    | .validate => e.ResOnly
    | .qsize _ => e.ResOnly
    | .xlate _ => e.ResOnly
    | _ => e.OutOnly := by
  cases i <;> simp only [commandOf] at h
  case swap8 => cases h; exact ⟨rfl, rfl⟩
  case swap16 => cases h; exact ⟨rfl, rfl⟩
  case swap32 => cases h; exact ⟨rfl, rfl⟩
  case swap64 => cases h; exact ⟨rfl, rfl⟩
  case swapWide => simp at h
  case crc16 =>
    simp only [crc16Command, bind_eq_ok, pure_eq_ok, Except.ok.injEq] at h
    obtain ⟨_, _, _, _, rfl⟩ := h
    exact ⟨rfl, rfl⟩
  case wpswap =>
    simp only [wpswapCommand, bind_eq_ok, pure_eq_ok, Except.ok.injEq] at h
    obtain ⟨_, _, rfl⟩ := h
    exact ⟨rfl, rfl⟩
  case validate =>
    simp only [validateCommand, bind_eq_ok, pure_eq_ok, Except.ok.injEq] at h
    obtain ⟨_, _, _, _, _, _, rfl⟩ := h
    exact ⟨rfl, rfl⟩
  case qsize =>
    simp only [qsizeCommand, bind_eq_ok, pure_eq_ok, Except.ok.injEq] at h
    obtain ⟨_, _, _, _, _, _, rfl⟩ := h
    exact ⟨rfl, rfl⟩
  case xlate =>
    simp only [xlateCommand, bind_eq_ok, pure_eq_ok, Except.ok.injEq] at h
    obtain ⟨_, _, rfl⟩ := h
    exact ⟨rfl, rfl⟩
  case swapbuf w c dst =>
    simp only [swapbufCommand, bind_eq_ok] at h
    obtain ⟨_, _, _, _, _, _, f, _, h⟩ := h
    cases dst with
    | true =>
      cases h
      exact ⟨rfl, rfl, rfl⟩
    | false =>
      simp only [Bool.false_eq_true, if_false, bind_eq_ok, pure_eq_ok, Except.ok.injEq] at h
      obtain ⟨_, _, rfl⟩ := h
      exact ⟨rfl, rfl, rfl⟩
  all_goals first
    | exact parseCommand_outOnly h
    | (simp only [encodeUnimplemented, bind_eq_ok, raise_ne_ok, and_false, exists_false] at h)
    | (simp only [encodeRead, encodeWriteCoil, encodeWriteRegister, encodeWriteRegisters, encodeReadWrite, bind_eq_ok] at h
       first
       | (obtain ⟨_, _, _, _, _, _, h⟩ := h; exact encodeOutput_outOnly h)
       | (obtain ⟨_, _, _, _, _, _, _, _, _, _, h⟩ := h; exact encodeOutput_outOnly h))

/-! ## The one fault -/

/-- A fault is UninitRead, some byte below LEN is then UNINIT, and LEN is in range. -/
def FaultIsUninit {α : Type} (s : State) (r : Except Stop α) : Prop :=
  ∀ f, r = .error (.fault f) →
    f = .uninitRead ∧ s.len.toNat ≤ s.params.ibufBytes ∧ ∃ j, j < s.len.toNat ∧ bufRead s.ibuf j = none

theorem faultIsUninit_ok {α : Type} (s : State) (a : α) : FaultIsUninit s (.ok a : Except Stop α) := nofun

theorem faultIsUninit_raise {α : Type} (s : State) (e : Err) : FaultIsUninit s (raise e : Except Stop α) := nofun

theorem faultIsUninit_bind {α β : Type} {s : State} {x : Except Stop α} {k : α → Except Stop β}
    (hx : FaultIsUninit s x) (hk : ∀ a, x = .ok a → FaultIsUninit s (k a)) : FaultIsUninit s (x >>= k) := by
  cases x with
  | ok a => exact hk a rfl
  | error e => intro f h; exact hx f (by simpa using h)

theorem faultIsUninit_ensure (s : State) (ok : Bool) (d : ValidationDetail) : FaultIsUninit s (ensure ok d) := by
  cases ok <;> nofun

theorem faultIsUninit_readIbuf {s : State} (h : s.len.toNat ≤ s.params.ibufBytes) : FaultIsUninit s (readIbuf s) := by
  intro f hf
  obtain ⟨h1, h2⟩ := readIbuf_eq_error.1 hf
  cases h1
  exact ⟨rfl, h, h2⟩

theorem faultIsUninit_checkImplemented (s : State) (n : FcName) : FaultIsUninit s (checkImplemented n) := by
  cases n <;> nofun

theorem faultIsUninit_encodePreamble (s : State) (n : FcName) : FaultIsUninit s (encodePreamble n s) :=
  faultIsUninit_bind (faultIsUninit_checkImplemented s n) fun _ _ => faultIsUninit_ensure s _ _

theorem faultIsUninit_encodeOutput (s : State) (wrap : Bool) (pdu : List Byte) :
    FaultIsUninit s (encodeOutput wrap pdu s) :=
  faultIsUninit_bind (faultIsUninit_ensure s _ _) fun _ _ => faultIsUninit_ok s _

theorem faultIsUninit_prepWrite (s : State) (qmax : Fin 65536) (w : BitVec 3) (c : Cond) :
    FaultIsUninit s (prepWrite qmax w c s) := by
  refine faultIsUninit_bind (faultIsUninit_ensure s _ _) fun _ _ => ?_
  refine faultIsUninit_bind (faultIsUninit_ensure s _ _) fun _ hlen => ?_
  refine faultIsUninit_bind (faultIsUninit_ensure s _ _) fun _ _ => ?_
  refine faultIsUninit_bind (faultIsUninit_ensure s _ _) fun _ _ => ?_
  refine faultIsUninit_bind (faultIsUninit_ensure s _ _) fun _ _ => ?_
  refine faultIsUninit_bind (faultIsUninit_ensure s _ _) fun _ _ => ?_
  have hlen' : s.len.toNat ≤ s.params.ibufBytes := by simpa [checkLenRange] using hlen
  exact faultIsUninit_bind (faultIsUninit_readIbuf hlen') fun _ _ => faultIsUninit_ok s _

theorem faultIsUninit_neededLength (s : State) (cls : RespClass) (w : BitVec 3) :
    FaultIsUninit s (neededLength cls w s) := by
  cases cls
  case write => exact faultIsUninit_ok s _
  all_goals
    refine faultIsUninit_bind (faultIsUninit_ensure s _ _) fun _ _ => ?_
    refine faultIsUninit_bind (faultIsUninit_ensure s _ _) fun _ _ => ?_
    exact faultIsUninit_bind (faultIsUninit_ensure s _ _) fun _ _ => faultIsUninit_ok s _

theorem faultIsUninit_extract (s : State) (bc : Byte) (rest : List Byte) (avail need : Nat) (w : BitVec 3) (c : Cond) :
    FaultIsUninit s (extract bc rest avail need w c s) := by
  simp only [extract]
  split
  · exact faultIsUninit_raise s _
  · exact faultIsUninit_bind (faultIsUninit_ensure s _ _) fun _ _ => faultIsUninit_ok s _

theorem faultIsUninit_interpret (s : State) (fc : Byte) (need : Option Nat) (serial : Bool) (w : BitVec 3) (c : Cond)
    (f : List Byte) : FaultIsUninit s (interpret fc need serial w c f s) := by
  simp only [interpret]
  split
  · split
    · exact faultIsUninit_raise s _
    · split
      · exact faultIsUninit_raise s _
      · split
        · exact faultIsUninit_ok s _
        · exact faultIsUninit_extract s _ _ _ _ w c
  · exact faultIsUninit_raise s _

theorem faultIsUninit_parseCommand (s : State) (n : FcName) (w : BitVec 3) (c : Cond) (serial : Bool) :
    FaultIsUninit s (parseCommand n w c serial s) := by
  simp only [parseCommand]
  split
  · exact faultIsUninit_raise s _
  · refine faultIsUninit_bind (faultIsUninit_ensure s _ _) fun _ _ => ?_
    refine faultIsUninit_bind (faultIsUninit_ensure s _ _) fun _ hlen => ?_
    refine faultIsUninit_bind (faultIsUninit_neededLength s _ w) fun _ _ => ?_
    have hlen' : s.len.toNat ≤ s.params.ibufBytes := by simpa [checkLenRange] using hlen
    refine faultIsUninit_bind (faultIsUninit_readIbuf hlen') fun f _ => ?_
    refine faultIsUninit_bind ?_ fun _ _ => faultIsUninit_interpret s _ _ serial w c f
    simp only [checkFraming]
    split
    · exact faultIsUninit_raise s _
    · exact faultIsUninit_ok s _

theorem faultIsUninit_commandOf (s : State) (i : Instr) : FaultIsUninit s (commandOf i s) := by
  have read : ∀ {u : Unit}, checkLenRange s = .ok u → FaultIsUninit s (readIbuf s) := fun h =>
    faultIsUninit_readIbuf (by simpa [checkLenRange] using h)
  cases i <;> simp only [commandOf]
  case crc16 =>
    refine faultIsUninit_bind (faultIsUninit_ensure s _ _) fun _ h => ?_
    exact faultIsUninit_bind (read h) fun _ _ => faultIsUninit_ok s _
  case swap8 => exact faultIsUninit_ok s _
  case swap16 => exact faultIsUninit_ok s _
  case swap32 => exact faultIsUninit_ok s _
  case swap64 => exact faultIsUninit_ok s _
  case swapWide => exact faultIsUninit_raise s _
  case wpswap => exact faultIsUninit_bind (faultIsUninit_ensure s _ _) fun _ _ => faultIsUninit_ok s _
  case swapbuf w c dst =>
    refine faultIsUninit_bind (faultIsUninit_ensure s _ _) fun _ _ => ?_
    refine faultIsUninit_bind (faultIsUninit_ensure s _ _) fun _ h => ?_
    refine faultIsUninit_bind (faultIsUninit_ensure s _ _) fun _ _ => ?_
    refine faultIsUninit_bind (read h) fun _ _ => ?_
    cases dst
    · exact faultIsUninit_bind (faultIsUninit_ensure s _ _) fun _ _ => faultIsUninit_ok s _
    · exact faultIsUninit_ok s _
  case validate =>
    refine faultIsUninit_bind (faultIsUninit_ensure s _ _) fun _ _ => ?_
    refine faultIsUninit_bind (faultIsUninit_ensure s _ _) fun _ h => ?_
    refine faultIsUninit_bind ?_ fun _ _ => faultIsUninit_ok s _
    simp only [validateReason]
    split
    · exact faultIsUninit_ok s _
    · exact faultIsUninit_bind (read h) fun _ _ => faultIsUninit_ok s _
  case qsize =>
    refine faultIsUninit_bind (faultIsUninit_ensure s _ _) fun _ _ => ?_
    refine faultIsUninit_bind (faultIsUninit_ensure s _ _) fun _ _ => ?_
    exact faultIsUninit_bind (faultIsUninit_ensure s _ _) fun _ _ => faultIsUninit_ok s _
  case xlate => exact faultIsUninit_bind (faultIsUninit_ensure s _ _) fun _ _ => faultIsUninit_ok s _
  case encodeWMR w c wrap =>
    refine faultIsUninit_bind (faultIsUninit_encodePreamble s _) fun _ _ => ?_
    refine faultIsUninit_bind (faultIsUninit_ensure s _ _) fun _ _ => ?_
    exact faultIsUninit_bind (faultIsUninit_prepWrite s _ w c) fun _ _ => faultIsUninit_encodeOutput s wrap _
  case encodeRWMR w c wrap =>
    refine faultIsUninit_bind (faultIsUninit_encodePreamble s _) fun _ _ => ?_
    refine faultIsUninit_bind (faultIsUninit_ensure s _ _) fun _ _ => ?_
    refine faultIsUninit_bind (faultIsUninit_ensure s _ _) fun _ _ => ?_
    refine faultIsUninit_bind (faultIsUninit_ensure s _ _) fun _ _ => ?_
    exact faultIsUninit_bind (faultIsUninit_prepWrite s _ w c) fun _ _ => faultIsUninit_encodeOutput s wrap _
  all_goals first
    | exact faultIsUninit_parseCommand s _ _ _ _
    | exact faultIsUninit_bind (faultIsUninit_encodePreamble s _) fun _ _ => faultIsUninit_raise s _
    | (refine faultIsUninit_bind (faultIsUninit_encodePreamble s _) fun _ _ => ?_
       refine faultIsUninit_bind (faultIsUninit_ensure s _ _) fun _ _ => ?_
       refine faultIsUninit_bind (faultIsUninit_ensure s _ _) fun _ _ => ?_
       exact faultIsUninit_encodeOutput s _ _)

/-! ## What a command reads -/

/-- A command reads the parameters, CFG, LEN, A0 to A3 and the bytes of IBUF below LEN, and nothing else. -/
theorem commandOf_congr {s s' : State} (hp : s.params = s'.params) (hh : s.hostLE = s'.hostLE) (hw : s.swap = s'.swap)
    (hl : s.len = s'.len) (h0 : s.a0 = s'.a0) (h1 : s.a1 = s'.a1) (h2 : s.a2 = s'.a2) (h3 : s.a3 = s'.a3)
    (hr : readIbuf s = readIbuf s') (i : Instr) : commandOf i s = commandOf i s' := by
  have hc : ∀ c, condTrue c s = condTrue c s' := fun c => by cases c <;> simp [condTrue, hh, hw]
  have hpre : ∀ n, encodePreamble n s = encodePreamble n s' := fun n => by simp only [encodePreamble, h0]
  have hlen : checkLenRange s = checkLenRange s' := by simp only [checkLenRange, hl, hp]
  have hout : ∀ n, checkOut n s = checkOut n s' := fun n => by simp only [checkOut, hp]
  have heo : ∀ wrap pdu, encodeOutput wrap pdu s = encodeOutput wrap pdu s' := fun wrap pdu => by
    simp only [encodeOutput, h0, hout]
  have hprep : ∀ q w c, prepWrite q w c s = prepWrite q w c s' := fun q w c => by
    simp only [prepWrite, hl, hlen, hr, hc]
  have hneed : ∀ cls w, neededLength cls w s = neededLength cls w s' := fun cls w => by
    cases cls <;> simp only [neededLength, h2]
  have hfr : ∀ serial cls f, framingReason serial cls f s = framingReason serial cls f s' := fun serial cls f => by
    simp only [framingReason, serialReason, hp, h0]
  have hint : ∀ fc need serial w c f, interpret fc need serial w c f s = interpret fc need serial w c f s' :=
    fun fc need serial w c f => by simp only [interpret, extract, hp, hc, hout]
  have hpc : ∀ n w c serial, parseCommand n w c serial s = parseCommand n w c serial s' := fun n w c serial => by
    simp only [parseCommand, parseClass, h0, hlen, hneed, hr, hfr, hint, hp]
  cases i <;> simp only [commandOf, crc16Command, scalarSwap, wpswapCommand, swapbufCommand, encodeRead,
    encodeWriteCoil, encodeWriteRegister, encodeUnimplemented, encodeWriteRegisters, encodeReadWrite, validateCommand, validateReason,
    qsizeCommand, xlateCommand, hp, hl, h0, h1, h2, h3, hr, hc, hpre, hlen, hout, heo, hprep, hpc]

end Sys2Proof.Machine
end

