-- ==== Sys2Proof/Laws/Decode.lean ====
section
/-! SUPPORT. The fields of packed words, function-code names, and what a word that decodes looks like. -/

namespace Sys2Proof

/-! ## Fields -/

/-- The fields of a packed word are the fields packed (R80). -/
theorem fieldsOf_packWord (op fc : Byte) (w : BitVec 3) (cond : BitVec 2) (wrap serial dst : Bool) :
    fieldsOf (packWord op fc w cond wrap serial dst) = ⟨op, fc, w, 0, cond, 0, wrap, serial, dst, 0⟩ := by
  simp only [fieldsOf, Fields.mk.injEq]
  refine ⟨?_, ?_, ?_, ?_, ?_, ?_, ?_, ?_, ?_, ?_⟩
  all_goals try (apply BitVec.eq_of_getLsbD_eq; intro i hi; interval_cases i)
  all_goals simp [packWord, flagBit]

/-- A word whose reserved bits are 0 is its fields packed. -/
theorem packWord_fieldsOf {v : Word} (h19 : (fieldsOf v).r19 = 0) (h22 : (fieldsOf v).r22 = 0)
    (h27 : (fieldsOf v).r27 = 0) :
    packWord (fieldsOf v).op (fieldsOf v).fc (fieldsOf v).w (fieldsOf v).cond (fieldsOf v).wrap (fieldsOf v).serial
      (fieldsOf v).dst = v := by
  have bit : ∀ {k n : Nat}, v.extractLsb' k n = 0 → ∀ i, i < n → v.getLsbD (k + i) = false := by
    intro k n h i hi
    have := congrArg (fun x => x.getLsbD i) h
    simpa [BitVec.getLsbD_extractLsb', hi] using this
  have b19 : v[19] = false := by simpa using bit h19 0 (by decide)
  have b22 : v[22] = false := by simpa using bit h22 0 (by decide)
  have b23 : v[23] = false := by simpa using bit h22 1 (by decide)
  have b27 : v[27] = false := by simpa using bit h27 0 (by decide)
  have b28 : v[28] = false := by simpa using bit h27 1 (by decide)
  have b29 : v[29] = false := by simpa using bit h27 2 (by decide)
  have b30 : v[30] = false := by simpa using bit h27 3 (by decide)
  have b31 : v[31] = false := by simpa using bit h27 4 (by decide)
  apply BitVec.eq_of_getLsbD_eq
  intro i hi
  interval_cases i <;> simp [packWord, flagBit, fieldsOf, b19, b22, b23, b27, b28, b29, b30, b31]

/-! ## Function codes -/

theorem name?_eq_some {t : FcTable} {b : Byte} {n : FcName} (h : t.name? b = some n) : t.byte n = b := by
  simpa using List.find?_some h

/-- A legal table gives each byte back its name. -/
theorem name?_byte {t : FcTable} (ht : t.legal = true) (n : FcName) : t.name? (t.byte n) = some n := by
  have hd : t.bytes.Nodup := by
    simp only [FcTable.legal, Bool.and_eq_true, decide_eq_true_eq] at ht
    exact ht.1
  simp only [FcTable.bytes, List.nodup_cons, List.mem_cons, List.not_mem_nil, or_false, not_or] at hd
  have inj : ∀ m, t.byte m = t.byte n → m = n := by
    intro m hm
    cases m <;> cases n <;> first | rfl | (simp only [FcTable.byte] at hm; simp_all)
  cases hf : t.name? (t.byte n) with
  | some m => rw [inj m (name?_eq_some hf)]
  | none =>
    have := List.find?_eq_none.1 hf n (by cases n <;> decide)
    simp at this

theorem condOf_code (c : Cond) : condOf c.code = some c := by
  cases c <;> rfl

theorem condOf_eq_some {b : BitVec 2} {c : Cond} (h : condOf b = some c) : c.code = b := by
  revert b c; decide

/-! ## What a word that decodes has passed -/

/-- The operation a word selects, by its OP byte and, for ENCODE and PARSE, its FC byte (R81, R82). -/
theorem select_cases {t : FcTable} {op fc : Byte} {sel : Selected} (h : select t op fc = .ok sel) :
    (sel = .crc16 ∧ op = 1) ∨ (sel = .swap ∧ op = 2) ∨ (sel = .wpswap ∧ op = 3) ∨ (sel = .swapbuf ∧ op = 4) ∨
    (∃ n, sel = .encode n ∧ op = 5 ∧ t.byte n = fc) ∨ (sel = .validate ∧ op = 6) ∨ (sel = .qsize ∧ op = 7) ∨
    (sel = .xlate ∧ op = 8) ∨ (∃ n, sel = .parse n ∧ op = 9 ∧ t.byte n = fc) := by
  have hop : ∀ k, op.toNat = k → op = BitVec.ofNat 8 k := by
    rintro k rfl
    simp
  unfold select at h
  split at h
  · cases h; simp [hop _ ‹_›]
  · cases h; simp [hop _ ‹_›]
  · cases h; simp [hop _ ‹_›]
  · cases h; simp [hop _ ‹_›]
  · split at h
    · cases h; simp [hop _ ‹_›, name?_eq_some ‹_›]
    · cases h
  · cases h; simp [hop _ ‹_›]
  · cases h; simp [hop _ ‹_›]
  · cases h; simp [hop _ ‹_›]
  · split at h
    · cases h; simp [hop _ ‹_›, name?_eq_some ‹_›]
    · cases h
  · cases h

/-- A word that decodes passed the four checks of R88. -/
theorem decode_eq_ok {t : FcTable} {v : Word} {i : Instr} (h : decode t v = .ok i) :
    ∃ sel c, select t (fieldsOf v).op (fieldsOf v).fc = .ok sel ∧ (fieldsOf v).unusedAreZero sel.usage = true ∧
      c.code = (fieldsOf v).cond ∧ i = sel.build (fieldsOf v) c := by
  simp only [decode, decodeFields] at h
  split at h
  · cases h
  · rename_i sel hs
    split at h
    · split at h
      · cases h
        exact ⟨sel, _, hs, ‹_›, condOf_eq_some ‹_›, rfl⟩
      · cases h
    · cases h

end Sys2Proof
end

