-- ==== Sys2Proof/Laws/Flags.lean ====
section
/-! SUPPORT. The STATUS and CFG words as numbers and by their bits. -/

namespace Sys2Proof.Machine

theorem cfgWord_eq (s : State) : cfgWord s = BitVec.ofNat 32 (s.hostLE.toNat + 2 * s.swap.toNat) := by
  unfold cfgWord
  cases s.hostLE <;> cases s.swap <;> rfl

/-- STATUS of an idle block as a number. -/
theorem packStatus_idle (d : Bool) (k : BitVec 4) (e : Byte) :
    packStatus false d k e = BitVec.ofNat 32 (2 * d.toNat + 16 * k.toNat + 256 * e.toNat) := by
  revert d k e
  decide +kernel

/-- The four low bits of STATUS. -/
theorem packStatus_low (b d : Bool) (k : BitVec 4) (e : Byte) :
    (packStatus b d k e).getLsbD 0 = b ∧ (packStatus b d k e).getLsbD 1 = d ∧
    (packStatus b d k e).getLsbD 2 = false ∧ (packStatus b d k e).getLsbD 3 = false := by
  revert b d k e
  decide +kernel

/-- Bits 31:16 of STATUS read as 0. -/
theorem packStatus_high (b d : Bool) (k : BitVec 4) (e : Byte) {i : Nat} (hi : 16 ≤ i) :
    (packStatus b d k e).getLsbD i = false := by
  simp only [packStatus, BitVec.getLsbD_append]
  rw [if_neg (by omega), if_neg (by omega), if_neg (by omega), if_neg (by omega), if_neg (by omega)]
  simp

end Sys2Proof.Machine
end

