-- ==== Sys2Proof/Laws/Operands.lean ====
section
/-! SUPPORT. The checks of the commands, passed and failed, and what the two long shared operations, prepWrite and
interpret, can answer. -/

namespace Sys2Proof.Machine

/-! ## The checks -/

theorem checkWidth_of_le {w : BitVec 3} (h : w.toNat ≤ 3) : checkWidth w = .ok () := by
  rw [checkWidth, widthOk_iff.2 h, ensure_true]

theorem checkWidth_of_gt {w : BitVec 3} (h : 3 < w.toNat) : checkWidth w = raise (.validation .width) := by
  have hw : widthOk w = false := by
    rw [← Bool.not_eq_true, widthOk_iff]
    omega
  rw [checkWidth, hw, ensure_false]

theorem checkLenAlign_of_dvd {n : Nat} {w : BitVec 3} (h : n % 2 ^ w.toNat = 0) : checkLenAlign n w = .ok () := by
  have hw : (n % elemWidth w == 0) = true := by simpa [elemWidth] using h
  rw [checkLenAlign, hw, ensure_true]

theorem checkLenAlign_of_ne {n : Nat} {w : BitVec 3} (h : n % 2 ^ w.toNat ≠ 0) :
    checkLenAlign n w = raise (.validation .lenAlign) := by
  have hw : (n % elemWidth w == 0) = false := by simpa [elemWidth] using h
  rw [checkLenAlign, hw, ensure_false]

theorem checkLenRange_of_le {s : State} (h : s.len.toNat ≤ s.params.ibufBytes) : checkLenRange s = .ok () :=
  ensure_pos h _

theorem checkLenRange_of_gt {s : State} (h : s.params.ibufBytes < s.len.toNat) :
    checkLenRange s = raise (.validation .lenRange) :=
  ensure_neg (Nat.not_le.2 h) _

/-- A legal function-code byte has bit 7 clear, so it differs from its exception form (30_encoding.md R82). -/
theorem fcByte_bit7 {t : FcTable} (h : t.legal = true) (n : FcName) :
    (t.byte n).getLsbD 7 = false ∧ t.byte n ≠ t.byte n ||| 0x80 := by
  have key : ∀ b : Byte, b.toNat < 0x80 → b.getLsbD 7 = false ∧ b ≠ b ||| 0x80 := by decide
  simp only [FcTable.legal, Bool.and_eq_true, List.all_eq_true] at h
  have hm : t.byte n ∈ t.bytes := by cases n <;> simp [FcTable.byte, FcTable.bytes]
  exact key _ (by simpa using h.2 _ hm)

/-! ## prep_write -/

/-- Everything prep_write needs to go on, and what it then gives (42_frame_codec.md R147). -/
theorem prepWrite_eq_ok {qmax : Fin 65536} {w : BitVec 3} {c : Cond} {s : State} {r : Nat × List Byte} :
    prepWrite qmax w c s = .ok r ↔
      w.toNat ≤ 3 ∧ s.len.toNat ≤ s.params.ibufBytes ∧ s.len.toNat % 2 ^ w.toNat = 0 ∧
      (2 ≤ s.len.toNat ∧ s.len.toNat % 2 = 0) ∧ s.len.toNat / 2 ≤ qmax.val ∧ 2 * (s.len.toNat / 2) ≤ 255 ∧
      ∃ f, readIbuf s = .ok f ∧ r = (s.len.toNat / 2, eswap f (2 ^ w.toNat) (condTrue c s)) := by
  simp only [prepWrite, checkWidth, checkLenRange, checkLenAlign, checkQty, bind_eq_ok, ensure_eq_ok, widthOk_iff,
    decide_eq_true_eq, beq_iff_eq, Bool.and_eq_true, pure_eq_ok, Except.ok.injEq, elemWidth]
  constructor
  · rintro ⟨_, h1, _, h2, _, h3, _, h4, _, h5, _, h6, f, h7, rfl⟩
    exact ⟨h1, h2, h3, h4, h5, h6, f, h7, rfl⟩
  · rintro ⟨h1, h2, h3, h4, h5, h6, f, h7, rfl⟩
    exact ⟨(), h1, (), h2, (), h3, (), h4, (), h5, (), h6, f, h7, rfl⟩

/-! ## The parser -/

/-- Everything PARSE answers about a frame of three bytes or more (45_response_parser.md R205, R208 to R210). -/
theorem interpret_cons (fc : Byte) (need : Option Nat) (serial : Bool) (w : BitVec 3) (c : Cond) (f0 f1 f2 : Byte)
    (rest : List Byte) (s : State) :
    interpret fc need serial w c (f0 :: f1 :: f2 :: rest) s =
      if f1 = fc ||| 0x80 then raise (.protocolException f2 (translate s.params.fcode s.params.xcode fc f2))
      else if f1 ≠ fc then raise (.shape .unexpectedFc)
      else match need with
        | none => .ok { out := some [] }
        | some k => extract f2 rest (rest.length - (if serial then 2 else 0)) k w c s := by
  have hl : (f0 :: f1 :: f2 :: rest).length - 3 = rest.length := by simp
  cases need <;> simp only [interpret, beq_iff_eq, bne_iff_ne, hl]

/-- A frame that passes stream framing has three bytes; one that passes serial framing has five (R206, R207). -/
theorem length_of_framing {serial : Bool} {cls : RespClass} {f : List Byte} {s : State}
    (h : framingReason serial cls f s = none) : (if serial then 5 else 3) ≤ f.length := by
  cases serial with
  | true =>
    simp only [framingReason, if_true, serialReason, frameReason] at h ⊢
    split at h
    · cases h
    · omega
  | false =>
    simp only [framingReason, Bool.false_eq_true, if_false] at h ⊢
    match f, h with
    | _ :: _ :: _ :: _, _ => simp
    | [], h => cases h
    | [_], h => cases h
    | [_, _], h => cases h

end Sys2Proof.Machine
end

