-- ==== Sys2Proof/Laws/PerInstr.lean ====
section
/-! SUPPORT. Per-command statements. OpcodeRow: the encoding of a well-formed command names a row of
spec/opcode_table.json that carries the command's mnemonic (30_encoding.md R89). -/

namespace Sys2Proof.Laws.OpcodeRow

/-- The command's word names a row of the opcode table with the command's mnemonic. -/
def Statement (i : Instr) : Prop :=
  i.wf = true → ∃ r ∈ opcodeTable, r.mnemonic = i.mnemonic ∧ r.names (encode FcTable.default i) = true

/-- The row at an index of the table, where it has the mnemonic and its match accepts the word. -/
theorem of_row {i : Instr} (k : Nat) (r : Row) (hk : opcodeTable[k]? = some r) (hm : r.mnemonic = i.mnemonic)
    (hn : i.wf = true → r.names (encode FcTable.default i) = true) : Statement i :=
  fun hw => ⟨r, List.mem_of_getElem? hk, hm, hn hw⟩

theorem crc16 : Statement (.crc16) :=
  of_row 0 _ rfl rfl (by decide)

theorem swap8 (cond : Cond) : Statement (.swap8 cond) :=
  of_row 1 _ rfl rfl (by cases cond <;> decide)

theorem swap16 (cond : Cond) : Statement (.swap16 cond) :=
  of_row 2 _ rfl rfl (by cases cond <;> decide)

theorem swap32 (cond : Cond) : Statement (.swap32 cond) :=
  of_row 3 _ rfl rfl (by cases cond <;> decide)

theorem swap64 (cond : Cond) : Statement (.swap64 cond) :=
  of_row 4 _ rfl rfl (by cases cond <;> decide)

theorem swapWide (w : BitVec 3) (cond : Cond) : Statement (.swapWide w cond) :=
  of_row 5 _ rfl rfl (by cases cond <;> revert w <;> decide)

theorem wpswap (w : BitVec 3) : Statement (.wpswap w) :=
  of_row 6 _ rfl rfl (by revert w; decide)

theorem swapbuf (w : BitVec 3) (cond : Cond) (dst : Bool) : Statement (.swapbuf w cond dst) :=
  of_row 7 _ rfl rfl (by cases cond <;> cases dst <;> revert w <;> decide)

theorem encodeRC (wrap : Bool) : Statement (.encodeRC wrap) :=
  of_row 8 _ rfl rfl (by cases wrap <;> decide)

theorem encodeRDI (wrap : Bool) : Statement (.encodeRDI wrap) :=
  of_row 9 _ rfl rfl (by cases wrap <;> decide)

theorem encodeRHR (wrap : Bool) : Statement (.encodeRHR wrap) :=
  of_row 10 _ rfl rfl (by cases wrap <;> decide)

theorem encodeRIR (wrap : Bool) : Statement (.encodeRIR wrap) :=
  of_row 11 _ rfl rfl (by cases wrap <;> decide)

theorem encodeWSC (wrap : Bool) : Statement (.encodeWSC wrap) :=
  of_row 12 _ rfl rfl (by cases wrap <;> decide)

theorem encodeWSR (wrap : Bool) : Statement (.encodeWSR wrap) :=
  of_row 13 _ rfl rfl (by cases wrap <;> decide)

theorem encodeWMC (wrap : Bool) : Statement (.encodeWMC wrap) :=
  of_row 14 _ rfl rfl (by cases wrap <;> decide)

theorem encodeWMR (w : BitVec 3) (cond : Cond) (wrap : Bool) : Statement (.encodeWMR w cond wrap) :=
  of_row 15 _ rfl rfl (by cases cond <;> cases wrap <;> revert w <;> decide)

theorem encodeRFR (wrap : Bool) : Statement (.encodeRFR wrap) :=
  of_row 16 _ rfl rfl (by cases wrap <;> decide)

theorem encodeWFR (wrap : Bool) : Statement (.encodeWFR wrap) :=
  of_row 17 _ rfl rfl (by cases wrap <;> decide)

theorem encodeMWR (wrap : Bool) : Statement (.encodeMWR wrap) :=
  of_row 18 _ rfl rfl (by cases wrap <;> decide)

theorem encodeRWMR (w : BitVec 3) (cond : Cond) (wrap : Bool) : Statement (.encodeRWMR w cond wrap) :=
  of_row 19 _ rfl rfl (by cases cond <;> cases wrap <;> revert w <;> decide)

theorem encodeRFQ (wrap : Bool) : Statement (.encodeRFQ wrap) :=
  of_row 20 _ rfl rfl (by cases wrap <;> decide)

theorem validate : Statement (.validate) :=
  of_row 21 _ rfl rfl (by decide)

theorem qsize (w : BitVec 3) : Statement (.qsize w) :=
  of_row 22 _ rfl rfl (by revert w; decide)

theorem xlate (fc : Byte) : Statement (.xlate fc) :=
  of_row 23 _ rfl rfl (by revert fc; decide)

theorem parseRC (w : BitVec 3) (cond : Cond) (serial : Bool) : Statement (.parseRC w cond serial) :=
  of_row 24 _ rfl rfl (by cases cond <;> cases serial <;> revert w <;> decide)

theorem parseRDI (w : BitVec 3) (cond : Cond) (serial : Bool) : Statement (.parseRDI w cond serial) :=
  of_row 25 _ rfl rfl (by cases cond <;> cases serial <;> revert w <;> decide)

theorem parseRHR (w : BitVec 3) (cond : Cond) (serial : Bool) : Statement (.parseRHR w cond serial) :=
  of_row 26 _ rfl rfl (by cases cond <;> cases serial <;> revert w <;> decide)

theorem parseRIR (w : BitVec 3) (cond : Cond) (serial : Bool) : Statement (.parseRIR w cond serial) :=
  of_row 27 _ rfl rfl (by cases cond <;> cases serial <;> revert w <;> decide)

theorem parseWSC (serial : Bool) : Statement (.parseWSC serial) :=
  of_row 28 _ rfl rfl (by cases serial <;> decide)

theorem parseWSR (serial : Bool) : Statement (.parseWSR serial) :=
  of_row 29 _ rfl rfl (by cases serial <;> decide)

theorem parseWMC (serial : Bool) : Statement (.parseWMC serial) :=
  of_row 30 _ rfl rfl (by cases serial <;> decide)

theorem parseWMR (serial : Bool) : Statement (.parseWMR serial) :=
  of_row 31 _ rfl rfl (by cases serial <;> decide)

theorem parseRFR (serial : Bool) : Statement (.parseRFR serial) :=
  of_row 32 _ rfl rfl (by cases serial <;> decide)

theorem parseWFR (serial : Bool) : Statement (.parseWFR serial) :=
  of_row 33 _ rfl rfl (by cases serial <;> decide)

theorem parseMWR (serial : Bool) : Statement (.parseMWR serial) :=
  of_row 34 _ rfl rfl (by cases serial <;> decide)

theorem parseRWMR (w : BitVec 3) (cond : Cond) (serial : Bool) : Statement (.parseRWMR w cond serial) :=
  of_row 35 _ rfl rfl (by cases cond <;> cases serial <;> revert w <;> decide)

theorem parseRFQ (serial : Bool) : Statement (.parseRFQ serial) :=
  of_row 36 _ rfl rfl (by cases serial <;> decide)

end Sys2Proof.Laws.OpcodeRow
end

