-- ==== Sys2Proof/Laws/Step.lean ====
section
/-! SUPPORT. What a step does, case by case, and runs of several steps. -/

namespace Sys2Proof.Machine

/-! ## The engine's turn -/

theorem engineStep_of_busy {s : State} (h : s.busy = true) : engineStep s = completePending s := if_pos h

theorem engineStep_of_idle {s : State} (h : s.busy = false) : engineStep s = .next s := by
  simp [engineStep, h]

theorem completePending_of_ok {s : State} {i : Instr} (h : decode s.params.fcode s.pend = .ok i) :
    completePending s = exec i s := by
  simp [completePending, h]

theorem completePending_of_error {s : State} {d : DecodeError} (h : decode s.params.fcode s.pend = .error d) :
    completePending s = .next (s.raiseOutcome (.command d)) := by
  simp [completePending, h]

theorem step_of_nil {s : State} (h : s.schedule = []) : step s = engineStep s := by
  simp [step, h]

theorem step_of_cons {s : State} {e : Event} {rest : List Event} (h : s.schedule = e :: rest) :
    step s = applyEvent e { s with schedule := rest } := by
  simp [step, h]

/-! ## Every next state -/

/-- A completion's next state: the command ran to its end, or an outcome was raised. -/
theorem completePending_eq_next {s t : State} (h : completePending s = .next t) :
    (∃ e, e.Fits s ∧ t = s.completeOk e) ∨ ∃ e, t = s.raiseOutcome e := by
  cases hd : decode s.params.fcode s.pend with
  | error d =>
    rw [completePending_of_error hd] at h
    cases h
    exact .inr ⟨_, rfl⟩
  | ok i =>
    rw [completePending_of_ok hd, exec_eq_finish] at h
    rcases finish_eq_next.1 h with ⟨e, he, rfl⟩ | ⟨e, _, rfl⟩
    · exact .inl ⟨e, commandOf_fits he, rfl⟩
    · exact .inr ⟨e, rfl⟩

/-- A host read's next state: nothing but the model's own fields changes. -/
theorem hostRead_eq_next {s t : State} {addr n : Nat} (h : hostRead addr n s = .next t) :
    t = s ∨ ∃ v, t = s.giveData v := by
  simp only [hostRead] at h
  split at h
  · split at h <;> cases h
    exact .inr ⟨_, rfl⟩
  · cases h
    exact .inl rfl

/-- A host write's next state: no access to the block, or the write of a legal access. -/
theorem hostWrite_eq_next {s t : State} {addr n : Nat} {d : BitVec 64} (h : hostWrite addr n d s = .next t) :
    t = s ∨ ∃ off, off < 0x3000 ∧ accessLegal s.params off n = true ∧ t = writeValue s off n d := by
  simp only [hostWrite] at h
  split at h
  · rename_i hs
    split at h <;> cases h
    rename_i hl
    simp only [selected, Bool.and_eq_true, decide_eq_true_eq] at hs
    exact .inr ⟨_, by omega, hl, rfl⟩
  · cases h
    exact .inl rfl

/-- A write changes one group of fields. -/
theorem writeValue_cases (s : State) (off n : Nat) (d : BitVec 64) :
    (∃ b, writeValue s off n d = { s with dropped := b }) ∨
    (∃ v, writeValue s off n d = s.startCommand v) ∨
    (∃ a b, writeValue s off n d = { s with hostLE := a, swap := b }) ∨
    (∃ v, writeValue s off n d = { s with len := v }) ∨
    (∃ r v, writeValue s off n d = s.setOperand r v) ∨
    (∃ i, i < s.params.ibufBytes ∧ writeValue s off n d = ibufWrite s i n d) := by
  rcases Bool.eq_false_or_eq_true s.busy with hb | hb
  · exact .inl (writeValue_busy hb off n d)
  · have idle : ∀ x, storeIdle s x = x := fun x => by rw [storeIdle, hb]; rfl
    unfold writeValue
    split <;> (try rw [idle])
    · exact .inr (.inl ⟨_, rfl⟩)
    · exact .inl ⟨_, rfl⟩
    · exact .inr (.inr (.inl ⟨_, _, rfl⟩))
    · exact .inr (.inr (.inr (.inl ⟨_, rfl⟩)))
    · exact .inl ⟨s.dropped, rfl⟩
    · exact .inl ⟨s.dropped, rfl⟩
    · exact .inl ⟨s.dropped, rfl⟩
    · exact .inr (.inr (.inr (.inr (.inl ⟨_, _, rfl⟩))))
    · exact .inr (.inr (.inr (.inr (.inl ⟨_, _, rfl⟩))))
    · exact .inr (.inr (.inr (.inr (.inr ⟨_, locate_eq_ibuf ‹_›, rfl⟩))))
    · exact .inl ⟨s.dropped, rfl⟩
    · exact .inl ⟨s.dropped, rfl⟩

/-- Everything a step that gives a next state can do: it takes the head of the schedule, where there is one, and then
does nothing, or a completion, a reset, a read, or a legal write. -/
theorem step_cases {s t : State} (h : step s = .next t) :
    ∃ s₀ l, s₀ = { s with schedule := l } ∧
      (t = s₀ ∨ (s₀.busy = true ∧ completePending s₀ = .next t) ∨ t = resetBlock s₀ ∨ (∃ v, t = s₀.giveData v) ∨
        ∃ off n d, off < 0x3000 ∧ accessLegal s₀.params off n = true ∧ t = writeValue s₀ off n d) := by
  have engine : ∀ s₀ : State, engineStep s₀ = .next t → t = s₀ ∨ (s₀.busy = true ∧ completePending s₀ = .next t) := by
    intro s₀ h
    rcases Bool.eq_false_or_eq_true s₀.busy with hb | hb
    · exact .inr ⟨hb, by rwa [engineStep_of_busy hb] at h⟩
    · rw [engineStep_of_idle hb] at h
      cases h
      exact .inl rfl
  cases hs : s.schedule with
  | nil =>
    rw [step_of_nil hs] at h
    refine ⟨s, [], by rw [← hs], ?_⟩
    exact (engine s h).imp_right .inl
  | cons e rest =>
    rw [step_of_cons hs] at h
    refine ⟨{ s with schedule := rest }, rest, rfl, ?_⟩
    cases e with
    | complete => exact (engine _ h).imp_right .inl
    | reset => cases h; exact .inr (.inr (.inl rfl))
    | read addr n => exact (hostRead_eq_next h).imp_right fun h => .inr (.inr (.inl h))
    | write addr n d =>
      exact (hostWrite_eq_next h).imp_right fun ⟨off, h1, h2, h3⟩ => .inr (.inr (.inr ⟨off, n, d, h1, h2, h3⟩))

/-! ## Runs -/

/-- A run of a + b steps goes on from where its first a steps ended. -/
theorem run_add {a : Nat} {s t : State} (h : run a s = .next t) (b : Nat) : run (a + b) s = run b t := by
  induction a generalizing s with
  | zero =>
    cases h
    rw [Nat.zero_add]
  | succ a ih =>
    rw [Nat.succ_add]
    simp only [run] at *
    split at h <;> first | exact ih h | cases h

/-! ## The fields a command does not read -/

/-- A command reads none of DROPPED and the model's own fields. -/
theorem commandOf_model_fields (i : Instr) (s : State) (l : List Event) (d : Bool) (k : Nat) (r : Option Word) :
    commandOf i { s with schedule := l, dropped := d, draws := k, rdata := r } = commandOf i s := by
  cases i <;> rfl

/-- A command reads none of DROPPED and the model's own fields, and keeps them. -/
theorem exec_model_fields {i : Instr} {s u : State} (h : exec i s = .next u) (l : List Event) (d : Bool) (k : Nat)
    (r : Option Word) :
    exec i { s with schedule := l, dropped := d, draws := k, rdata := r } =
      .next { u with schedule := l, dropped := d, draws := k, rdata := r } := by
  rw [exec_eq_finish] at *
  rw [commandOf_model_fields]
  rcases finish_eq_next.1 h with ⟨e, he, rfl⟩ | ⟨e, he, rfl⟩ <;> rw [he] <;> rfl

/-- Where a command faults, it faults whatever DROPPED and the model's own fields hold. -/
theorem exec_model_fields_fault {i : Instr} {s : State} {f : Fault} (h : exec i s = .fault f) (l : List Event) (d : Bool)
    (k : Nat) (r : Option Word) :
    exec i { s with schedule := l, dropped := d, draws := k, rdata := r } = .fault f := by
  rw [exec_eq_finish] at *
  rw [commandOf_model_fields, finish_eq_fault.1 h]
  rfl

/-- The same of the completion step: it goes on alike. -/
theorem completePending_model_fields {s u : State} (h : completePending s = .next u) (l : List Event) (d : Bool) (k : Nat)
    (r : Option Word) :
    completePending { s with schedule := l, dropped := d, draws := k, rdata := r } =
      .next { u with schedule := l, dropped := d, draws := k, rdata := r } := by
  cases hd : decode s.params.fcode s.pend with
  | ok i =>
    rw [completePending_of_ok hd] at h
    rw [completePending_of_ok (s := { s with schedule := l, dropped := d, draws := k, rdata := r }) hd,
      exec_model_fields h]
  | error e =>
    rw [completePending_of_error hd] at h
    rw [completePending_of_error (s := { s with schedule := l, dropped := d, draws := k, rdata := r }) hd]
    cases h
    rfl

/-- The same of the completion step: it faults alike. -/
theorem completePending_model_fields_fault {s : State} {f : Fault} (h : completePending s = .fault f) (l : List Event)
    (d : Bool) (k : Nat) (r : Option Word) :
    completePending { s with schedule := l, dropped := d, draws := k, rdata := r } = .fault f := by
  cases hd : decode s.params.fcode s.pend with
  | ok i =>
    rw [completePending_of_ok hd] at h
    rw [completePending_of_ok (s := { s with schedule := l, dropped := d, draws := k, rdata := r }) hd,
      exec_model_fields_fault h]
  | error e =>
    rw [completePending_of_error hd] at h
    cases h

end Sys2Proof.Machine
end

