-- ==== Sys2Proof/Tests/Slice0.lean ====
section
/-! SUPPORT. Tests: ill-formed terms, words written out from the spec's encodings, single steps with the results of
spec/95_test_vectors.md and of the rules' examples, and a witness for the hypotheses of every obligation. -/

namespace Sys2Proof.Tests

set_option Elab.async false

open Sys2Proof.Machine Sys2Proof.Claims

/-! ## Helpers -/

/-- Buffer cells from an index on. -/
def cellsFrom : Nat → List Byte → List Host.Cell
  | _, [] => []
  | k, b :: bs => (k, b) :: cellsFrom (k + 1) bs

theorem bufRead_cellsFrom (f : List Byte) (k i : Nat) :
    bufRead (cellsFrom k f) i = if k ≤ i then f[i - k]? else none := by
  induction f generalizing k with
  | nil => simp [cellsFrom]
  | cons b bs ih =>
    simp only [cellsFrom, bufRead, ih]
    rcases Nat.lt_trichotomy k i with h | h | h
    · have h' : i - k = (i - (k + 1)) + 1 := by omega
      rw [if_neg (by omega), if_pos (by omega), if_pos (by omega), h', List.getElem?_cons_succ]
    · subst h; simp
    · rw [if_neg (by omega), if_neg (by omega), if_neg (by omega)]

/-- The reset state with an input sequence in IBUF and LEN, and operands. -/
def start (f : List Byte) (a0 a1 a2 a3 : DWord) : State :=
  { State.reset with ibuf := cellsFrom 0 f, len := BitVec.ofNat 32 f.length, a0 := a0, a1 := a1, a2 := a2, a3 := a3 }

/-- CFG set. -/
def cfg (hostLE swap : Bool) (s : State) : State := { s with hostLE := hostLE, swap := swap }

/-- LEN set, whatever IBUF holds. -/
def withLen (n : Word) (s : State) : State := { s with len := n }

/-- A command word pending, and what is still to come. -/
def pending (v : Word) (es : List Event) (s : State) : State :=
  { s with cmd := v, pend := v, busy := true, schedule := es }

/-- What is still to come at an idle block. -/
def idle (es : List Event) (s : State) : State := { s with schedule := es }

/-- Other buffer sizes. -/
def sized (ibufBytes obufBytes : Nat) (s : State) : State :=
  { s with params := { Params.default with ibufBytes := ibufBytes, obufBytes := obufBytes } }

/-- The state an outcome goes on in. -/
def goesOn (o : Host.Outcome State Fault Refusal) : Option State :=
  match o with
  | .next t => some t
  | .fault _ => none
  | .refused _ => none

/-- The state after the step that completes this word. -/
def after (v : Nat) (s : State) : Option State := goesOn (step (s.withFetchWord 32 v))

/-- KIND, DETAIL and RES after the word. -/
def result (v : Nat) (s : State) : Option (BitVec 4 × Byte × DWord) :=
  (after v s).map (fun t => (t.kind, t.detail, t.res))

/-- KIND, DETAIL and OBUF[0..OLEN-1] after the word. -/
def output (v : Nat) (s : State) : Option (BitVec 4 × Byte × Option (List Byte)) :=
  (after v s).map (fun t => (t.kind, t.detail, bufReadList t.obuf 0 t.olen.toNat))

/-- A state whose IBUF and LEN are set from a sequence has that sequence as its input. -/
theorem inputIs_of {s : State} {f : List Byte} (hi : s.ibuf = cellsFrom 0 f) (hl : s.len = BitVec.ofNat 32 f.length)
    (hb : f.length ≤ s.params.ibufBytes) (h : f.length < 2 ^ 32) : InputIs s f := by
  refine ⟨?_, hb, fun i _ => ?_⟩
  · rw [hl, BitVec.toNat_ofNat, Nat.mod_eq_of_lt h]
  · rw [hi, bufRead_cellsFrom, if_pos (Nat.zero_le i), Nat.sub_zero]

/-! ## WellFormed -/

/-- SWAP.W4-7 takes no width code below 4 (41_byte_order.md R116). -/
theorem test_wf_refuses_swapWide_below_four :
    (Instr.swapWide 3 .always).wf = false ∧ (Instr.swapWide 0 .swap).wf = false := by decide

theorem test_wf_takes_swapWide_from_four :
    (Instr.swapWide 4 .always).wf = true ∧ (Instr.swapWide 7 .swap).wf = true := by decide

/-! ## Words written out from the spec's encodings -/

/-- CRC16, bit by bit: OP 00000001, every other field 0 (R80, R81). -/
theorem test_decode_crc16_bits :
    decodeTableWord 32 0b00000000000000000000000000000001 = some (.crc16) := by decide +kernel

/-- SWAP16 host, bit by bit: COND 01, W 001, OP 00000010 (R80, R113). -/
theorem test_decode_swap_bits :
    decodeTableWord 32 0b00000000000100010000000000000010 = some (.swap16 .host) := by decide +kernel

/-- WPSWAP, bit by bit: W 010, OP 00000011 (R118). -/
theorem test_decode_wpswap_bits :
    decodeTableWord 32 0b00000000000000100000000000000011 = some (.wpswap 2) := by decide +kernel

/-- SWAPBUF swap, ibuf, bit by bit: DST 1, COND 10, W 011, OP 00000100 (R120). -/
theorem test_decode_swapbuf_bits :
    decodeTableWord 32 0b00000100001000110000000000000100 = some (.swapbuf 3 .swap true) := by decide +kernel

/-- ENCODE.WMR rtu, bit by bit: WRAP 1, COND 10, W 001, FC 00010000, OP 00000101 (R141). -/
theorem test_decode_encode_bits :
    decodeTableWord 32 0b00000001001000010001000000000101 = some (.encodeWMR 1 .swap true) := by decide +kernel

/-- VALIDATE, bit by bit: OP 00000110 (R165). -/
theorem test_decode_validate_bits :
    decodeTableWord 32 0b00000000000000000000000000000110 = some (.validate) := by decide +kernel

/-- QSIZE, bit by bit: W 111, OP 00000111 (R185). -/
theorem test_decode_qsize_bits :
    decodeTableWord 32 0b00000000000001110000000000000111 = some (.qsize 7) := by decide +kernel

/-- XLATE, bit by bit: FC 10000011, OP 00001000 (R203). -/
theorem test_decode_xlate_bits :
    decodeTableWord 32 0b00000000000000001000001100001000 = some (.xlate 0x83) := by decide +kernel

/-- PARSE.RWMR rtu, bit by bit: SERIAL 1, COND 01, W 011, FC 00010111, OP 00001001 (R220). -/
theorem test_decode_parse_bits :
    decodeTableWord 32 0b00000010000100110001011100001001 = some (.parseRWMR 3 .host true) := by decide +kernel

/-- 41_byte_order.md R112 to R120, the words of their Encoding lines. -/
theorem test_decode_byte_order_words :
    decodeTableWord 32 0x00200002 = some (.swap8 .swap) ∧
    decodeTableWord 32 0x00010002 = some (.swap16 .always) ∧
    decodeTableWord 32 0x00020002 = some (.swap32 .always) ∧
    decodeTableWord 32 0x00130002 = some (.swap64 .host) ∧
    decodeTableWord 32 0x00070002 = some (.swapWide 7 .always) ∧
    decodeTableWord 32 0x00000003 = some (.wpswap 0) ∧
    decodeTableWord 32 0x04010004 = some (.swapbuf 1 .always true) := by decide +kernel

/-- 42_frame_codec.md R134 to R146, the words of their Encoding lines. -/
theorem test_decode_encode_words :
    decodeTableWord 32 0x00000105 = some (.encodeRC false) ∧
    decodeTableWord 32 0x01000205 = some (.encodeRDI true) ∧
    decodeTableWord 32 0x01000305 = some (.encodeRHR true) ∧
    decodeTableWord 32 0x00000405 = some (.encodeRIR false) ∧
    decodeTableWord 32 0x01000505 = some (.encodeWSC true) ∧
    decodeTableWord 32 0x00000605 = some (.encodeWSR false) ∧
    decodeTableWord 32 0x00000F05 = some (.encodeWMC false) ∧
    decodeTableWord 32 0x00221005 = some (.encodeWMR 2 .swap false) ∧
    decodeTableWord 32 0x00001405 = some (.encodeRFR false) ∧
    decodeTableWord 32 0x01001505 = some (.encodeWFR true) ∧
    decodeTableWord 32 0x01001605 = some (.encodeMWR true) ∧
    decodeTableWord 32 0x01001705 = some (.encodeRWMR 0 .always true) ∧
    decodeTableWord 32 0x00001805 = some (.encodeRFQ false) := by decide +kernel

/-- 45_response_parser.md R211 to R223, the words of their Encoding lines. -/
theorem test_decode_parse_words :
    decodeTableWord 32 0x02000109 = some (.parseRC 0 .always true) ∧
    decodeTableWord 32 0x00010209 = some (.parseRDI 1 .always false) ∧
    decodeTableWord 32 0x02210309 = some (.parseRHR 1 .swap true) ∧
    decodeTableWord 32 0x00120409 = some (.parseRIR 2 .host false) ∧
    decodeTableWord 32 0x02000509 = some (.parseWSC true) ∧
    decodeTableWord 32 0x00000609 = some (.parseWSR false) ∧
    decodeTableWord 32 0x02000F09 = some (.parseWMC true) ∧
    decodeTableWord 32 0x00001009 = some (.parseWMR false) ∧
    decodeTableWord 32 0x02001409 = some (.parseRFR true) ∧
    decodeTableWord 32 0x00001509 = some (.parseWFR false) ∧
    decodeTableWord 32 0x02001609 = some (.parseMWR true) ∧
    decodeTableWord 32 0x02021709 = some (.parseRWMR 2 .always true) ∧
    decodeTableWord 32 0x02001809 = some (.parseRFQ true) := by decide +kernel

/-- Words that are no command: T-DEC-1, T-DEC-5, T-DEC-12, T-DEC-11, T-DEC-13, T-DEC-18, T-DEC-16. -/
theorem test_decode_refusals :
    let d := decode FcTable.default
    d 0x00000000 = .error .unknownOp ∧ d 0x00008009 = .error .unknownFc ∧ d 0x00390005 = .error .unknownFc ∧
    d 0x00300001 = .error .reservedField ∧ d 0x00390002 = .error .reservedField ∧ d 0x00011009 = .error .reservedField ∧
    d 0x00301709 = .error .badCond := by decide +kernel

/-! ## One step each -/

/-- T-CRC-4. -/
theorem test_crc16_check_value :
    result 0x00000001 (start [0x31, 0x32, 0x33, 0x34, 0x35, 0x36, 0x37, 0x38, 0x39] 0 0 0 0) = some (0, 0, 0x4B37) := by decide +kernel

/-- T-CRC-10. -/
theorem test_crc16_len_range :
    result 0x00000001 (withLen 513 (start [] 0 0 0 0)) = some (1, 6, 0) := by decide +kernel

/-- T-SWAP-1. -/
theorem test_swap8 :
    result 0x00000002 (start [] 0x1234 0 0 0) = some (0, 0, 0x34) := by decide +kernel

/-- T-SWAP-5. -/
theorem test_swap16_host :
    result 0x00110002 (cfg true false (start [] 0x1234 0 0 0)) = some (0, 0, 0x3412) := by decide +kernel

/-- T-SWAP-3. -/
theorem test_swap16_high_bits :
    result 0x00010002 (start [] 0x0000FFFF00001234 0 0 0) = some (0, 0, 0x3412) := by decide +kernel

/-- T-SWAP-9. -/
theorem test_swap32 :
    result 0x00020002 (start [] 0x11223344 0 0 0) = some (0, 0, 0x44332211) := by decide +kernel

/-- T-SWAP-11. -/
theorem test_swap32_host_off :
    result 0x00120002 (cfg false false (start [] 0xDEADBEEF 0 0 0)) = some (0, 0, 0xDEADBEEF) := by decide +kernel

/-- T-SWAP-12. -/
theorem test_swap64 :
    result 0x00030002 (start [] 0x0102030405060708 0 0 0) = some (0, 0, 0x0807060504030201) := by decide +kernel

/-- T-SWAP-15. -/
theorem test_swapWide :
    result 0x00070002 (start [] 0x1234 0 0 0) = some (1, 5, 0) := by decide +kernel

/-- T-WP-3. -/
theorem test_wpswap :
    result 0x00020003 (start [] 0x44434241 0 0 0) = some (0, 0, 0x42414443) := by decide +kernel

/-- T-WP-8. -/
theorem test_wpswap_width :
    result 0x00030003 (start [] 0 0 0 0) = some (1, 5, 0) := by decide +kernel

/-- T-SB-2. -/
theorem test_swapbuf :
    output 0x00020004 (start [0x01, 0x02, 0x03, 0x04, 0x05, 0x06, 0x07, 0x08] 0 0 0 0) =
      some (0, 0, some [0x04, 0x03, 0x02, 0x01, 0x08, 0x07, 0x06, 0x05]) := by decide +kernel

/-- T-SB-5. -/
theorem test_swapbuf_in_place :
    (after 0x04010004 (start [0x11, 0x22, 0x33, 0x44] 0 0 0 0)).map (fun t => (t.kind, t.ibuf, t.obuf, t.olen)) =
      some (0, [(0, 0x22), (1, 0x11), (2, 0x44), (3, 0x33)], [], 0) := by decide +kernel

/-- T-ENC-2. -/
theorem test_encodeRC :
    output 0x01000105 (start [] 1 0x13 0x25 0) =
      some (0, 0, some [0x01, 0x01, 0x00, 0x13, 0x00, 0x25, 0x0C, 0x14]) := by decide +kernel

/-- T-ENC-36. -/
theorem test_encodeRC_first_check :
    result 0x00000105 (start [] 0x100 0x10000 0x10000 0) = some (1, 1, 0) := by decide +kernel

/-- T-ENC-3. -/
theorem test_encodeRDI :
    output 0x01000205 (start [] 1 0xC4 0x16 0) =
      some (0, 0, some [0x01, 0x02, 0x00, 0xC4, 0x00, 0x16, 0xB8, 0x39]) := by decide +kernel

/-- T-ENC-4. -/
theorem test_encodeRHR :
    output 0x01000305 (start [] 0x11 0x6B 3 0) =
      some (0, 0, some [0x11, 0x03, 0x00, 0x6B, 0x00, 0x03, 0x76, 0x87]) := by decide +kernel

/-- T-ENC-35. -/
theorem test_encodeRHR_quantity :
    result 0x00000305 (start [] 1 0 0x10000 0) = some (1, 3, 0) := by decide +kernel

/-- T-ENC-9. -/
theorem test_encodeRIR :
    output 0x01000405 (start [] 0x11 8 1 0) =
      some (0, 0, some [0x11, 0x04, 0x00, 0x08, 0x00, 0x01, 0xB2, 0x98]) := by decide +kernel

/-- T-ENC-10. -/
theorem test_encodeWSC_on :
    output 0x01000505 (start [] 0x11 0xAC 1 0) =
      some (0, 0, some [0x11, 0x05, 0x00, 0xAC, 0xFF, 0x00, 0x4E, 0x8B]) := by decide +kernel

/-- T-ENC-12. -/
theorem test_encodeWSC_value :
    result 0x00000505 (start [] 0x11 0xAC 2 0) = some (1, 11, 0) := by decide +kernel

/-- T-ENC-13. -/
theorem test_encodeWSR :
    output 0x01000605 (start [] 0x11 1 3 0) =
      some (0, 0, some [0x11, 0x06, 0x00, 0x01, 0x00, 0x03, 0x9A, 0x9B]) := by decide +kernel

/-- T-ENC-37. -/
theorem test_encodeWMC :
    result 0x00000F05 (start [] 999 0 0 0) = some (5, 0, 0) := by decide +kernel

/-- T-ENC-15. -/
theorem test_encodeWMR :
    output 0x01001005 (start [0x00, 0x0A, 0x01, 0x02] 0x11 1 0 0) =
      some (0, 0, some [0x11, 0x10, 0x00, 0x01, 0x00, 0x02, 0x04, 0x00, 0x0A, 0x01, 0x02, 0xC6, 0xF0]) := by decide +kernel

/-- T-ENC-23. -/
theorem test_encodeWMR_alignment_first :
    result 0x00011005 (start [0x01, 0x02, 0x03] 0x11 1 0 0) = some (1, 10, 0) := by decide +kernel

/-- T-ENC-39. -/
theorem test_encodeRFR :
    result 0x00001405 (start [] 0 0 0 0) = some (5, 0, 0) := by decide +kernel

/-- T-ENC-40. -/
theorem test_encodeWFR :
    result 0x00001505 (start [] 0 0 0 0) = some (5, 0, 0) := by decide +kernel

/-- T-ENC-38. -/
theorem test_encodeMWR :
    result 0x01001605 (start [] 999 0 0 0) = some (5, 0, 0) := by decide +kernel

/-- T-ENC-29. -/
theorem test_encodeRWMR :
    output 0x01001705 (start [0x00, 0xFF, 0x00, 0xFF, 0x00, 0xFF] 0x11 3 6 0x0E) =
      some (0, 0, some [0x11, 0x17, 0x00, 0x03, 0x00, 0x06, 0x00, 0x0E, 0x00, 0x03, 0x06, 0x00, 0xFF, 0x00, 0xFF, 0x00, 0xFF, 0x4B, 0x54]) := by decide +kernel

/-- T-ENC-31. -/
theorem test_encodeRWMR_write_address :
    result 0x00001705 (start [0x00, 0x01] 0x11 3 6 0x10000) = some (1, 2, 0) := by decide +kernel

/-- T-ENC-41. -/
theorem test_encodeRFQ :
    result 0x00001805 (start [] 0 0 0 0) = some (5, 0, 0) := by decide +kernel

/-- T-VAL-11. -/
theorem test_validate_echo_quirk :
    result 0x00000006 (start [0x11, 0x06, 0x04, 0x00, 0x00, 0x03, 0xCA, 0x6B] 0x11 0 0 0) = some (0, 0, 0x300) := by decide +kernel

/-- T-VAL-10, longer than declared. -/
theorem test_validate_valid :
    result 0x00000006 (start [0x11, 0x03, 0x02, 0x00, 0x01, 0x99, 0x98, 0x59, 0xC8] 0x11 0 0 0) = some (0, 0, 1) := by decide +kernel

/-- T-QS-7. -/
theorem test_qsize :
    result 0x00030007 (start [] 16383 0 0 0) = some (0, 0, 65532) := by decide +kernel

/-- T-QS-11. -/
theorem test_qsize_no_wrap :
    result 0x00020007 (start [] 0x8000000000000000 0 0 0) = some (1, 3, 0) := by decide +kernel

/-- T-XL-14. -/
theorem test_xlate :
    result 0x00001008 (start [] 3 0 0 0) = some (0, 0, 0x31) := by decide +kernel

/-- T-XL-7. -/
theorem test_xlate_unrecognised :
    result 0x00000308 (start [] 7 0 0 0) = some (0, 0, 0xFF) := by decide +kernel

/-- T-PAR-1. -/
theorem test_parseRC :
    output 0x02000109 (start [0x01, 0x01, 0x03, 0xCD, 0x6B, 0x05, 0x42, 0x82] 1 0 19 0) =
      some (0, 0, some [0xCD, 0x6B, 0x05]) := by decide +kernel

/-- T-PAR-52. -/
theorem test_parseRC_alignment :
    result 0x02010109 (start [0x01, 0x01, 0x01, 0x05, 0x91, 0x8B] 1 0 8 0) = some (1, 10, 0) := by decide +kernel

/-- T-PAR-2. -/
theorem test_parseRDI :
    output 0x02000209 (start [0x01, 0x02, 0x03, 0xAC, 0xDB, 0x35, 0x22, 0x88] 1 0 22 0) =
      some (0, 0, some [0xAC, 0xDB, 0x35]) := by decide +kernel

/-- T-PAR-4. -/
theorem test_parseRHR_swap :
    output 0x02210309 (cfg false true (start [0x11, 0x03, 0x06, 0xAE, 0x41, 0x56, 0x52, 0x43, 0x40, 0x49, 0xAD] 0x11 0 3 0)) =
      some (0, 0, some [0x41, 0xAE, 0x52, 0x56, 0x40, 0x43]) := by decide +kernel

/-- T-PAR-39. -/
theorem test_parseRHR_crc :
    result 0x02000309 (start [0x11, 0x03, 0x06, 0xAE, 0x41, 0x56, 0x52, 0x43, 0x40, 0x49, 0xAC] 0x11 0 3 0) = some (2, 4, 0) := by decide +kernel

/-- T-PAR-9. -/
theorem test_parseRIR :
    output 0x02000409 (start [0x11, 0x04, 0x02, 0x00, 0x0A, 0xF8, 0xF4] 0x11 0 1 0) =
      some (0, 0, some [0x00, 0x0A]) := by decide +kernel

/-- T-PAR-10. -/
theorem test_parseWSC :
    output 0x02000509 (start [0x11, 0x05, 0x00, 0xAC, 0xFF, 0x00, 0x4E, 0x8B] 0x11 0 0 0) =
      some (0, 0, some []) := by decide +kernel

/-- T-PAR-12. -/
theorem test_parseWSR_echo_quirk :
    result 0x02000609 (start [0x11, 0x06, 0x04, 0x00, 0x00, 0x03, 0xCA, 0x6B] 0x11 0 0 0) = some (2, 3, 0) := by decide +kernel

/-- T-PAR-22. -/
theorem test_parseWSR_exception :
    result 0x02000609 (start [0x11, 0x86, 0x03, 0x03, 0xA4] 0x11 0 0 0) = some (3, 3, 0x03) := by decide +kernel

/-- T-PAR-54. -/
theorem test_parseWMC :
    result 0x02000F09 (start [0x00, 0x00, 0x00, 0x00, 0x00] 999 0 0 0) = some (5, 0, 0) := by decide +kernel

/-- T-PAR-14. -/
theorem test_parseWMR :
    output 0x02001009 (start [0x11, 0x10, 0x00, 0x01, 0x00, 0x02, 0x12, 0x98] 0x11 0 0 0) =
      some (0, 0, some []) := by decide +kernel

/-- T-PAR-18. -/
theorem test_parseWMR_exception :
    result 0x02001009 (start [0x11, 0x90, 0x03, 0x0D, 0xC4] 0x11 0 0 0) = some (3, 3, 0x31) := by decide +kernel

/-- T-PAR-55. -/
theorem test_parseRFR :
    result 0x02001409 (start [0x00] 0 0 0 0) = some (5, 0, 0) := by decide +kernel

/-- T-PAR-56. -/
theorem test_parseWFR :
    result 0x02001509 (start [0x00] 0 0 0 0) = some (5, 0, 0) := by decide +kernel

/-- T-PAR-57. -/
theorem test_parseMWR :
    result 0x02001609 (start [0x00] 0 0 0 0) = some (5, 0, 0) := by decide +kernel

/-- T-PAR-16. -/
theorem test_parseRWMR :
    output 0x02021709 (start [0x11, 0x17, 0x0C, 0x00, 0xFE, 0x0A, 0xCD, 0x00, 0x01, 0x00, 0x03, 0x00, 0x0D, 0x00, 0xFF, 0x0D, 0x75] 0x11 0 6 0) =
      some (0, 0, some [0xCD, 0x0A, 0xFE, 0x00, 0x03, 0x00, 0x01, 0x00, 0xFF, 0x00, 0x0D, 0x00]) := by decide +kernel

/-- T-PAR-21. -/
theorem test_parseRWMR_exception :
    result 0x02001709 (start [0x11, 0x97, 0x03, 0x0F, 0xF4] 0x11 0 1 0) = some (3, 3, 0x03) := by decide +kernel

/-- T-PAR-58. -/
theorem test_parseRFQ :
    result 0x02001809 (start [0x00] 0 0 0 0) = some (5, 0, 0) := by decide +kernel

/-- T-DEC-11. -/
theorem test_no_command :
    result 0x00300001 (start [0x00] 3 0 0 0) = some (6, 3, 0) := by decide +kernel

/-- T-PAR-59 and T-CRC-12: an UNINIT input byte is the model fault UninitRead. -/
theorem test_uninit_read_stops :
    after 0x02000309 (withLen 5 (start [] 0x11 0 1 0)) = none ∧ after 0x00000001 (withLen 1 (start [] 0 0 0 0)) = none := by
  decide +kernel

/-! ## Bus accesses, the assembler -/

/-- T-BUS-5: an 8-bit write, then the word it lies in. -/
theorem test_bus_word_packs_little_endian :
    (run 2 (idle [.write 0x1001 1 0xAB, .read 0x1000 4] (start [0, 0, 0, 0] 0 0 0 0)) |> goesOn).bind
      (fun t => t.rdata) = some 0x0000AB00 := by
  simp only [run, step, applyEvent, hostRead, idle, State.giveData, goesOn]
  rfl

/-- T-BUS-9: a write while busy is dropped. -/
theorem test_bus_write_while_busy :
    (goesOn (step (pending 1 [.write 0x00C 4 7] State.reset))).map (fun t => (t.len, t.dropped, t.busy)) =
      some (0, true, true) := by decide +kernel

/-- T-BUS-3 and T-BUS-4: BusError. -/
theorem test_bus_errors :
    step (idle [.write 0x002 4 0] State.reset) = .fault (.busError 2 4) ∧
    step (idle [.write 0x000 1 1] State.reset) = .fault (.busError 0 1) := ⟨rfl, rfl⟩

/-- 30_encoding.md R93 and R94: lines and pseudo-commands. -/
theorem test_assembler :
    assemble .wpswap {} = some (.wpswap 2) ∧
    assemble (.encode .wmr) { w := some 1, cond := some .swap, rtu := true } = some (.encodeWMR 1 .swap true) ∧
    assemble (.encode .rhr) { w := some 1 } = none ∧
    expand .hton16 = .swap16 .host ∧ expand (.mswapin 1) = .swapbuf 1 .swap true ∧
    expand (.rtu .rhr 0 .always) = .encodeRHR true ∧ expand .checkframe = .validate := by decide +kernel

/-! ## Witnesses: states and operands that meet the hypotheses of the obligations, each clause at a boundary -/

theorem witness_reset_event :
    (pending 1 [.reset] State.reset).schedule = .reset :: [] ∧ (pending 1 [.reset] State.reset).busy = true :=
  ⟨rfl, rfl⟩

theorem witness_step_runs :
    (pending 0x01000305 [] State.reset).busy = true ∧ (pending 0x01000305 [] State.reset).schedule = [] ∧
    (pending 0x01000305 [.complete] State.reset).schedule = .complete :: [] ∧
    decode (pending 0x01000305 [] State.reset).params.fcode (pending 0x01000305 [] State.reset).pend =
      .ok (.encodeRHR true) := by
  refine ⟨rfl, rfl, rfl, ?_⟩
  decide +kernel

theorem witness_command_errors :
    (pending 0x0A [.complete] State.reset).busy = true ∧
    (pending 0x0A [.complete] State.reset).schedule = .complete :: [] ∧
    decode (pending 0x0A [.complete] State.reset).params.fcode 0x0A = .error .unknownOp ∧
    decode (pending 5 [] State.reset).params.fcode 5 = .error .unknownFc ∧
    decode (pending 0x101 [] State.reset).params.fcode 0x101 = .error .reservedField ∧
    decode (pending 0x00300002 [] State.reset).params.fcode 0x00300002 = .error .badCond := by
  refine ⟨rfl, rfl, ?_⟩
  decide +kernel

theorem witness_idle_engine :
    (idle [] State.reset).busy = false ∧ (idle [] State.reset).schedule = [] ∧
    (idle [.complete] State.reset).schedule = .complete :: [] := ⟨rfl, rfl, rfl⟩

/-- A state with input, output of an earlier command, an error on record and a command pending. -/
def midway : State :=
  { pending 0x00010004 [] (start [0x11, 0x22, 0x33, 0x44] 0 0 0 0) with
    obuf := cellsFrom 0 [0x01, 0x02], olen := 2, kind := 1, detail := 11 }

theorem witness_invariant_step : midway.Inv ∧ ∃ t, step midway = .next t := by
  refine ⟨⟨by decide, by decide, by decide, by decide, by decide, by decide, by decide, by decide, ?_⟩, _, rfl⟩
  decide

theorem witness_decode_encode :
    FcTable.default.legal = true ∧ (Instr.swapWide 4 .always).wf = true ∧ (Instr.swapWide 7 .swap).wf = true ∧
    (Instr.xlate 0xFF).wf = true ∧ (Instr.parseRWMR 7 .swap true).wf = true := by decide

theorem witness_encode_decode :
    decode FcTable.default 0x04270004 = .ok (.swapbuf 7 .swap true) ∧
    decode FcTable.default 0x0000FF08 = .ok (.xlate 0xFF) := by decide +kernel

theorem witness_one_byte_change : (0x00 : Byte) ≠ 0x80 := by decide

theorem witness_crc16 :
    InputIs (start [] 0 0 0 0) [] ∧
    InputIs (start (List.replicate 512 0xFF) 0 0 0 0) (List.replicate 512 0xFF) ∧
    (withLen 513 (start [] 0 0 0 0)).params.ibufBytes < (withLen 513 (start [] 0 0 0 0)).len.toNat :=
  ⟨inputIs_of rfl rfl (by decide) (by decide), inputIs_of rfl rfl (by rw [List.length_replicate]; decide)
    (by rw [List.length_replicate]; decide), by decide⟩

theorem witness_byte_indexes : 1 < 2 ∧ 3 < 4 ∧ 7 < 8 := by decide

theorem witness_wpswap : (2 : BitVec 3) = 2 ∧ (1 : BitVec 3) ≠ 2 ∧ (3 : BitVec 3) ≠ 2 := by decide

theorem witness_element_swap :
    8 ∈ [1, 2, 4, 8] ∧ ([1, 2, 3, 4, 5, 6, 7, 8] : List Byte).length % 8 = 0 ∧ 1 ∈ [1, 2, 4, 8] ∧
    ([] : List Byte).length % 4 = 0 := by decide

theorem witness_swapbuf_errors :
    3 < (4 : BitVec 3).toNat ∧ (3 : BitVec 3).toNat ≤ 3 ∧
    (withLen 513 (start [] 0 0 0 0)).params.ibufBytes < (withLen 513 (start [] 0 0 0 0)).len.toNat ∧
    (start [1, 2, 3] 0 0 0 0).len.toNat ≤ (start [1, 2, 3] 0 0 0 0).params.ibufBytes ∧
    (start [1, 2, 3] 0 0 0 0).len.toNat % 2 ^ (1 : BitVec 3).toNat ≠ 0 := by decide

/-- SWAPBUF: an output as large as OBUF, and one byte more. -/
theorem witness_swapbuf_output :
    InputIs (sized 8 4 (start [1, 2, 3, 4] 0 0 0 0)) [1, 2, 3, 4] ∧
    ([1, 2, 3, 4] : List Byte).length % 2 ^ (2 : BitVec 3).toNat = 0 ∧
    ([1, 2, 3, 4] : List Byte).length ≤ (sized 8 4 (start [1, 2, 3, 4] 0 0 0 0)).params.obufBytes ∧
    InputIs (sized 8 3 (start [1, 2, 3, 4] 0 0 0 0)) [1, 2, 3, 4] ∧
    (sized 8 3 (start [1, 2, 3, 4] 0 0 0 0)).params.obufBytes < ([1, 2, 3, 4] : List Byte).length :=
  ⟨inputIs_of rfl rfl (by decide) (by decide), by decide, by decide, inputIs_of rfl rfl (by decide) (by decide),
    by decide⟩

theorem witness_swap_in_place_twice :
    ∃ t, exec (.swapbuf 1 .always true) (start [0x11, 0x22, 0x33, 0x44] 0 0 0 0) = .next t ∧ t.kind = 0 :=
  ⟨_, rfl, rfl⟩

/-! ### ENCODE -/

theorem witness_read_requests :
    let s := sized 512 7 (start [] 255 65535 65535 0)
    let s' := sized 512 8 (start [] 255 65535 65535 0)
    s.a0.toNat ≤ 255 ∧ s.a1.toNat ≤ 65535 ∧ s.a2.toNat ≤ s.params.qmaxReadRegs.val ∧
    (start [] 255 65535 65536 0).params.qmaxReadBits.val < (start [] 255 65535 65536 0).a2.toNat ∧
    s.params.obufBytes < (wire true (s.a0.setWidth 8) ([0x03] ++ hiLo s.a1.toNat ++ hiLo s.a2.toNat)).length ∧
    (wire true (s'.a0.setWidth 8) ([0x03] ++ hiLo s'.a1.toNat ++ hiLo s'.a2.toNat)).length ≤ s'.params.obufBytes := by
  decide

theorem witness_single_writes :
    (start [] 255 65535 0 0).a0.toNat ≤ 255 ∧ (start [] 255 65535 0 0).a1.toNat ≤ 65535 ∧
    (start [] 255 65535 0 0).a2.toNat = 0 ∧ (start [] 255 65535 1 0).a2.toNat = 1 ∧ 1 < (start [] 255 65535 2 0).a2.toNat ∧
    (start [] 255 65535 65535 0).a2.toNat ≤ 65535 ∧ 65535 < (start [] 255 65535 65536 0).a2.toNat := by decide

/-- prep_write passes at its largest write, 127 registers. -/
theorem witness_write_of_127_registers :
    let s := start (List.replicate 254 0xAA) 255 65535 65535 65535
    InputIs s (List.replicate 254 0xAA) ∧ WmrOperandsOk s ∧ RwmrOperandsOk s ∧
    prepDetail s.params.qmaxWriteRegs.val 0 s = 0 ∧ prepDetail s.params.qmaxRwWrite.val 0 s = 0 := by
  refine ⟨inputIs_of rfl rfl (by rw [List.length_replicate]; decide) (by rw [List.length_replicate]; decide),
    ⟨by decide, by decide⟩, ⟨by decide, by decide, by decide, by decide⟩, ?_, ?_⟩ <;> decide +kernel

/-- Each error of prep_write: W = 4; LEN = 513; LEN = 2 with W = 2; LEN = 0 and LEN = 1; a quantity over its maximum;
256 bytes. -/
theorem witness_prep_write_errors :
    WmrOperandsOk (start [] 255 65535 0 65535) ∧ RwmrOperandsOk (start [] 255 65535 65535 65535) ∧
    prepDetail 65535 4 (start [] 0 0 0 0) = 5 ∧ prepDetail 65535 0 (withLen 513 State.reset) = 6 ∧
    prepDetail 65535 2 (withLen 2 State.reset) = 10 ∧ prepDetail 65535 0 State.reset = 4 ∧
    prepDetail 65535 0 (withLen 1 State.reset) = 4 ∧ prepDetail 1 0 (withLen 4 State.reset) = 3 ∧
    prepDetail 65535 0 (withLen 256 State.reset) = 8 := by
  refine ⟨⟨by decide, by decide⟩, ⟨by decide, by decide, by decide, by decide⟩, ?_⟩
  decide

theorem witness_read_write_errors :
    let s := start [] 255 65535 65536 0
    let s' := start [] 255 65535 65535 65536
    s.params.qmaxRwRead.val < s.a2.toNat ∧ s'.a2.toNat ≤ s'.params.qmaxRwRead.val ∧ 65535 < s'.a3.toNat := by decide

theorem witness_unit_then_address :
    255 < (start [] 256 0 0 0).a0.toNat ∧ (start [] 255 65536 0 0).a0.toNat ≤ 255 ∧
    65535 < (start [] 255 65536 0 0).a1.toNat := by decide

/-- T-ENC-4. -/
theorem witness_serial_request :
    let s := start [] 0x11 0x6B 3 0
    s.params.legal = true ∧ ∃ t, exec (.encodeRHR true) s = .next t ∧ t.kind = 0 ∧
      bufReadList t.obuf 0 t.olen.toNat = some [0x11, 0x03, 0x00, 0x6B, 0x00, 0x03, 0x76, 0x87] := by
  refine ⟨by decide, _, rfl, rfl, ?_⟩
  decide +kernel

theorem witness_swap_then_encode :
    ∃ t, exec (.swapbuf 1 .swap true) (cfg false true (start [0x0A, 0x00, 0x02, 0x01] 0x11 1 0 0)) = .next t ∧
      t.kind = 0 := ⟨_, rfl, rfl⟩

/-! ### VALIDATE, QSIZE, XLATE -/

theorem witness_validate :
    let f : List Byte := [0x01, 0x83, 0x02, 0xC0, 0xF1]
    255 < (start f 256 0 0 0).a0.toNat ∧ (start f 255 0 0 0).a0.toNat ≤ 255 ∧ InputIs (start f 255 0 0 0) f ∧
    (withLen 513 State.reset).params.ibufBytes < (withLen 513 State.reset).len.toNat ∧
    (withLen 4 State.reset).len.toNat ≤ (withLen 4 State.reset).params.ibufBytes ∧ (withLen 4 State.reset).len.toNat < 5 :=
  ⟨by decide, by decide, inputIs_of rfl rfl (by decide) (by decide), by decide, by decide, by decide⟩

/-- The last bit of a valid frame (T-VAL-1). -/
theorem witness_one_bit_error :
    frameReason 0xFF 0x01 [0x01, 0x83, 0x02, 0xC0, 0xF1] = none ∧ 4 < 5 ∧ 7 < 8 := by decide +kernel

theorem witness_qsize :
    let size := fun (s : State) (w : BitVec 3) => s.a0.toNat * 2 ^ w.toNat
    3 < (4 : BitVec 3).toNat ∧ size (start [] 131071 0 0 0) 0 % 2 = 1 ∧
    size (start [] 65536 0 0 0) 1 % 2 = 0 ∧ 65535 < size (start [] 65536 0 0 0) 1 / 2 ∧
    size (start [] 65535 0 0 0) 1 % 2 = 0 ∧ size (start [] 65535 0 0 0) 1 / 2 ≤ 65535 := by decide

theorem witness_xlate :
    (start [] 255 0 0 0).a0.toNat ≤ 255 ∧ 255 < (start [] 256 0 0 0).a0.toNat ∧ XcTable.default.legal = true := by decide

/-! ### PARSE -/

/-- A serial read of 19 bits and a stream read of 3 registers, the payload exactly as large as OBUF, and one byte
larger. -/
theorem witness_parse_data :
    let f : List Byte := [0x01, 0x01, 0x03, 0xCD, 0x6B, 0x05, 0x42, 0x82]
    let s := sized 8 3 (start f 1 0 19 0)
    let s' := sized 8 2 (start f 1 0 19 0)
    s.params.legal = true ∧ InputIs s f ∧ InputIs s' f ∧
    (Instr.parseRC 0 .always true, (0x01 : Byte), 3) ∈ parseReads 0 .always true s ∧ ReadOperandsOk 0 3 s ∧
    framingOf true false s f = 0 ∧ at' f 1 = 0x01 ∧ 3 ≤ (at' f 2).toNat ∧ 3 ≤ s.params.obufBytes ∧
    ReadOperandsOk 0 3 s' ∧ framingOf true false s' f = 0 ∧ s'.params.obufBytes < 3 := by
  refine ⟨by decide, inputIs_of rfl rfl (by decide) (by decide), inputIs_of rfl rfl (by decide) (by decide),
    List.mem_cons_self, ⟨by decide, by decide, by decide, by decide⟩, by decide +kernel, by decide, by decide, by decide,
    ⟨by decide, by decide, by decide, by decide⟩, by decide +kernel, by decide⟩

/-- A stream write response of three bytes (T-PAR-35). -/
theorem witness_parse_write :
    let f : List Byte := [0x11, 0x10, 0x00]
    let s := start f 255 0 0 0
    InputIs s f ∧ (Instr.parseWMR false, (0x10 : Byte)) ∈ parseWrites false s ∧ s.a0.toNat ≤ 255 ∧
    framingOf false true s f = 0 ∧ at' f 1 = 0x10 :=
  ⟨inputIs_of rfl rfl (by decide) (by decide), by decide, by decide, by decide, by decide⟩

/-- T-PAR-19 and T-PAR-22: an exception frame for a read and for a write. -/
theorem witness_parse_exception :
    let f : List Byte := [0x11, 0x83, 0x03, 0x00, 0xF4]
    let g : List Byte := [0x11, 0x86, 0x03, 0x03, 0xA4]
    InputIs (start f 0x11 0 1 0) f ∧ ReadOperandsOk 0 2 (start f 0x11 0 1 0) ∧
    framingOf true false (start f 0x11 0 1 0) f = 0 ∧ at' f 1 = (0x03 ||| 0x80) ∧
    InputIs (start g 0x11 0 0 0) g ∧ framingOf true true (start g 0x11 0 0 0) g = 0 ∧ at' g 1 = (0x06 ||| 0x80) :=
  ⟨inputIs_of rfl rfl (by decide) (by decide), ⟨by decide, by decide, by decide, by decide⟩, by decide +kernel,
    by decide, inputIs_of rfl rfl (by decide) (by decide), by decide +kernel, by decide⟩

/-- T-PAR-29 (another function code), T-PAR-7 (a byte count one register short), a write answered by another code. -/
theorem witness_parse_shape :
    let f : List Byte := [0x11, 0x04, 0x02, 0x00, 0x0A, 0xF8, 0xF4]
    let g : List Byte := [0x11, 0x03, 0x06, 0xAE, 0x41, 0x56, 0x52, 0x43, 0x40, 0x49, 0xAD]
    InputIs (start f 0x11 0 1 0) f ∧ ReadOperandsOk 0 2 (start f 0x11 0 1 0) ∧
    framingOf true false (start f 0x11 0 1 0) f = 0 ∧ at' f 1 ≠ 0x03 ∧ at' f 1 ≠ (0x03 ||| 0x80) ∧
    InputIs (start g 0x11 0 4 0) g ∧ ReadOperandsOk 0 8 (start g 0x11 0 4 0) ∧
    framingOf true false (start g 0x11 0 4 0) g = 0 ∧ at' g 1 = 0x03 ∧ (at' g 2).toNat < 8 ∧
    framingOf true true (start f 0x11 0 0 0) f = 0 ∧ at' f 1 ≠ 0x06 ∧ at' f 1 ≠ (0x06 ||| 0x80) :=
  ⟨inputIs_of rfl rfl (by decide) (by decide), ⟨by decide, by decide, by decide, by decide⟩, by decide +kernel,
    by decide, by decide, inputIs_of rfl rfl (by decide) (by decide), ⟨by decide, by decide, by decide, by decide⟩,
    by decide +kernel, by decide, by decide, by decide +kernel, by decide, by decide⟩

/-- Each framing reason: T-PAR-36 and T-PAR-31 (short), T-PAR-37 (unit), T-PAR-12 and T-PAR-32 (byte count), T-PAR-39
(CRC). -/
theorem witness_parse_framing :
    InputIs (start [0x01, 0x83, 0x02, 0xC0] 1 0 1 0) [0x01, 0x83, 0x02, 0xC0] ∧
    ReadOperandsOk 0 2 (start [0x01, 0x83, 0x02, 0xC0] 1 0 1 0) ∧
    framingOf true false (start [] 1 0 1 0) [0x01, 0x83, 0x02, 0xC0] = 1 ∧
    framingOf false false (start [] 0x11 0 3 0) [0x11, 0x03] = 1 ∧
    framingOf true false (start [] 2 0 1 0) [0x01, 0x83, 0x02, 0xC0, 0xF1] = 2 ∧
    framingOf true true (start [] 0x11 0 0 0) [0x11, 0x06, 0x04, 0x00, 0x00, 0x03, 0xCA, 0x6B] = 3 ∧
    framingOf false false (start [] 0x11 0 3 0) [0x11, 0x03, 0x06, 0xAE, 0x41] = 3 ∧
    framingOf true false (start [] 0x11 0 3 0)
      [0x11, 0x03, 0x06, 0xAE, 0x41, 0x56, 0x52, 0x43, 0x40, 0x49, 0xAC] = 4 :=
  ⟨inputIs_of rfl rfl (by decide) (by decide), ⟨by decide, by decide, by decide, by decide⟩, by decide +kernel,
    by decide +kernel, by decide +kernel, by decide +kernel, by decide +kernel, by decide +kernel⟩

theorem witness_parse_operands :
    255 < (start [] 256 0 0 0).a0.toNat ∧ (start [] 255 0 0 0).a0.toNat ≤ 255 ∧
    (withLen 513 State.reset).params.ibufBytes < (withLen 513 State.reset).len.toNat ∧
    (withLen 512 State.reset).len.toNat ≤ (withLen 512 State.reset).params.ibufBytes ∧
    65535 < (start [] 255 0 65536 0).a2.toNat ∧ (start [] 255 0 65535 0).a2.toNat ≤ 65535 ∧ 3 < (4 : BitVec 3).toNat ∧
    (3 : BitVec 3).toNat ≤ 3 ∧ (2 * (start [] 1 0 3 0).a2.toNat) % 2 ^ (2 : BitVec 3).toNat ≠ 0 := by decide

/-! ### Completion -/

/-- Input ready, at LEN = 0, at a written input, and at a LEN out of range with nothing written. -/
theorem witness_command_completes :
    (start [] 0 0 0 0).InputReady ∧ (start [0x00, 0xBF, 0x40] 0 0 0 0).InputReady ∧
    ¬ (withLen 513 State.reset).len.toNat ≤ (withLen 513 State.reset).params.ibufBytes := by
  refine ⟨?_, ?_, by decide⟩
  · intro i hi; exact absurd hi (Nat.not_lt_zero i)
  · simp only [State.InputReady]; decide

/-- A LEN one over IBUF_BYTES with every byte of IBUF written is a launch premise: LEN_RANGE is an outcome like any other
(70_reset_and_hazards.md R284, 10_state.md R26). -/
theorem test_launchable_with_len_over_ibuf :
    (withLen 5 (sized 4 4 (start [1, 2, 3, 4] 0 0 0 0))).Launchable := by
  refine ⟨rfl, rfl, ?_⟩
  simp only [State.InputReady]
  decide

/-- The last byte of the input UNINIT: with operands that pass, for each command that reads IBUF. -/
theorem witness_uninit_faults :
    let s := withLen 8 (start [1, 2, 3, 4, 5, 6, 7] 255 65535 4 65535)
    exec .crc16 s = .fault .uninitRead ∧ s.len.toNat ≤ s.params.ibufBytes ∧ 7 < s.len.toNat ∧ bufRead s.ibuf 7 = none ∧
    ((3 : BitVec 3).toNat ≤ 3 ∧ s.len.toNat % 2 ^ (3 : BitVec 3).toNat = 0) ∧ (s.a0.toNat ≤ 255 ∧ 5 ≤ s.len.toNat) ∧
    WmrOperandsOk s ∧ prepDetail s.params.qmaxWriteRegs.val 3 s = 0 ∧ RwmrOperandsOk s ∧
    prepDetail s.params.qmaxRwWrite.val 3 s = 0 ∧ ReadOperandsOk 3 8 s := by
  refine ⟨rfl, by decide, by decide, by decide, by decide, by decide, ⟨by decide, by decide⟩, by decide,
    ⟨by decide, by decide, by decide, by decide⟩, by decide, ⟨by decide, by decide, by decide, by decide⟩⟩

theorem witness_error_outcomes :
    (∃ t, exec .crc16 (withLen 513 State.reset) = .next t ∧ t.kind ≠ 0 ∧ t.kind ≠ 3) ∧
    (∃ t, exec (.parseRHR 0 .always false) (start [0x11, 0x83, 0x02] 0x11 0 1 0) = .next t ∧ t.kind = 3) ∧
    (pending 0 [] State.reset).busy = true ∧ (pending 0 [] State.reset).schedule = [] ∧
    (∃ t, step (pending 0 [] State.reset) = .next t ∧ t.kind = 6) :=
  ⟨⟨_, rfl, by decide, by decide⟩, ⟨_, rfl, by decide⟩, rfl, rfl, _, rfl, by decide⟩

theorem witness_result_command : ∃ t, exec (.xlate 0x10) (start [] 3 0 0 0) = .next t := ⟨_, rfl⟩

theorem witness_output_commands :
    State.reset.params.legal = true ∧
    (∃ t, exec (.encodeRHR false) (start [] 0x11 0x6B 3 0) = .next t ∧ t.kind = 0) ∧
    (∃ t, exec (.parseRHR 0 .always false) (start [0x11, 0x83, 0x02] 0x11 0 1 0) = .next t ∧ t.kind = 3) ∧
    (∃ t, exec (.encodeRFQ false) (start [] 0 0 0 0) = .next t ∧ t.kind = 5) :=
  ⟨by decide, ⟨_, rfl, by decide⟩, ⟨_, rfl, by decide⟩, _, rfl, by decide⟩

/-- Two states that agree on a command's inputs and differ in an earlier result and output. -/
theorem witness_same_inputs :
    let s := start [0x01, 0x02] 0 0 0 0
    let s' := { s with res := 5, kind := 4, detail := 1, obuf := [(0, 0xFF)], ibuf := s.ibuf ++ [(7, 0x07)] }
    SameInputs s s' ∧ s ≠ s' ∧ ∃ t, exec (.swapbuf 1 .always false) s = .next t :=
  ⟨⟨rfl, rfl, rfl, rfl, rfl, rfl, rfl, rfl, by decide⟩, by decide, _, rfl⟩

/-! ### The host's side -/

theorem witness_register_reads :
    (pending 1 [.read 0x03C 4] State.reset).schedule = .read (State.reset.params.base + 0x03C) 4 :: [] ∧
    (pending 1 [.read 0x03C 4] State.reset).busy = true ∧ (idle [.read 0x004 4] State.reset).busy = false ∧
    (idle [.read 0x004 4] State.reset).schedule = .read (State.reset.params.base + 0x004) 4 :: [] :=
  ⟨rfl, rfl, rfl, rfl⟩

theorem witness_status_read :
    (pending 1 [.read 0x004 4] State.reset).busy = true ∧
    (pending 1 [.read 0x004 4] State.reset).schedule = .read (State.reset.params.base + 0x004) 4 :: [] := ⟨rfl, rfl⟩

/-- Buffers of six bytes, the fifth not written: the last byte, the word that reaches past the end and holds an UNINIT byte,
and a byte that is UNINIT. -/
theorem witness_buffer_reads :
    let cells := cellsFrom 0 [1, 2, 3, 4] ++ [(5, 6)]
    let s := { sized 6 6 State.reset with ibuf := cells, obuf := cells }
    s.params.legal = true ∧ s.busy = false ∧ 5 < s.params.ibufBytes ∧ 4 < s.params.obufBytes ∧ 4 % 4 = 0 ∧
    bufRead s.ibuf 5 = some 6 ∧ bufRead s.obuf (4 + 1) = some 6 ∧ bufRead s.obuf (4 + 0) = none ∧
    s.params.obufBytes ≤ 4 + 2 ∧
    (idle [.read 0x1005 1] s).schedule = .read (s.params.base + (0x1000 + 5)) 1 :: [] ∧
    (idle [.read 0x2004 4] s).schedule = .read (s.params.base + (0x2000 + 4)) 4 :: [] ∧
    (idle [.read 0x2004 1] s).schedule = .read (s.params.base + (0x2000 + 4)) 1 :: [] := by
  refine ⟨by decide, rfl, by decide, by decide, by decide, by decide, by decide, by decide, by decide, rfl, rfl, rfl⟩

theorem witness_idle_write :
    (idle [.write 0x000 4 1] State.reset).busy = false ∧
    (idle [.write 0x000 4 1] State.reset).schedule = .write (State.reset.params.base + 0x000) 4 1 :: [] ∧
    (idle [.write 0x03C 4 0xFFFFFFFF] State.reset).schedule =
      .write (State.reset.params.base + 0x03C) 4 0xFFFFFFFF :: [] := ⟨rfl, rfl, rfl⟩

/-- The last byte of IBUF, and a word that reaches past the end of an IBUF of six bytes. -/
theorem witness_ibuf_write :
    State.reset.busy = false ∧ State.reset.params.legal = true ∧ 511 < State.reset.params.ibufBytes ∧
    (idle [.write 0x11FF 1 7] State.reset).schedule = .write (State.reset.params.base + 0x1000 + 511) 1 7 :: [] ∧
    (sized 6 6 State.reset).params.legal = true ∧ 4 < (sized 6 6 State.reset).params.ibufBytes ∧ 4 % 4 = 0 ∧
    (idle [.write 0x1004 4 7] (sized 6 6 State.reset)).schedule =
      .write ((sized 6 6 State.reset).params.base + 0x1000 + 4) 4 7 :: [] :=
  ⟨rfl, by decide, by decide, rfl, by decide, by decide, by decide, rfl⟩

/-- A dropped write (the last byte of IBUF), a STATUS write, an ignored write (the last byte of OBUF, a reserved word). -/
theorem witness_busy_writes :
    (pending 1 [.write 0x11FF 1 7] State.reset).busy = true ∧ LegalAccess State.reset.params 0x11FF 1 ∧
    0x11FF < 0x1000 + State.reset.params.ibufBytes ∧ LegalAccess State.reset.params 0x000 4 ∧
    LegalAccess State.reset.params 0x004 4 ∧ LegalAccess State.reset.params 0x21FF 1 ∧
    0x21FF < 0x2000 + State.reset.params.obufBytes ∧ LegalAccess State.reset.params 0x2FFC 4 ∧
    ReservedOffset State.reset.params 0x2FFC ∧ State.reset.params.legal = true ∧
    (pending 1 [.write 0x11FF 1 7] State.reset).schedule = .write (State.reset.params.base + 0x11FF) 1 7 :: [] := by
  refine ⟨rfl, ?_, by decide, ?_, ?_, ?_, by decide, ?_, ?_, by decide, rfl⟩ <;>
    (first | unfold LegalAccess | unfold ReservedOffset) <;> decide

theorem witness_status_write :
    (pending 1 [.write 0x004 4 2] State.reset).schedule = .write (State.reset.params.base + 0x004) 4 2 :: [] := rfl

/-- Each reserved range at its ends, and a STATUS write with bit 1 not set. -/
theorem witness_reserved :
    let p := Params.default
    p.legal = true ∧ ReservedOffset p 0x014 ∧ ReservedOffset p 0x040 ∧ ReservedOffset p 0xFFC ∧ ReservedOffset p 0x1200 ∧
    ReservedOffset p 0x1FFC ∧ ReservedOffset p 0x2200 ∧ ReservedOffset p 0x2FFC ∧ LegalAccess p 0x014 4 ∧
    LegalAccess p 0x1200 4 ∧ LegalAccess p 0x2FFC 4 ∧ (0xFFFFFFFD : BitVec 64).getLsbD 1 = false := by
  refine ⟨by decide, ?_, ?_, ?_, ?_, ?_, ?_, ?_, ?_, ?_, ?_, by decide⟩ <;>
    (first | unfold LegalAccess | unfold ReservedOffset) <;> decide

/-- Illegal accesses: misaligned, 8-bit at a register, 8-bit just past a buffer, 16-bit. Outside: just past the window,
and just before it. -/
theorem witness_illegal :
    let s := { State.reset with params := { Params.default with base := 0x4000 } }
    s.params.legal = true ∧ AccessAt (.write 0x4002 4 0) s 0x002 4 ∧ ¬ LegalAccess s.params 0x002 4 ∧
    ¬ LegalAccess s.params 0x000 1 ∧ ¬ LegalAccess s.params 0x1200 1 ∧ ¬ LegalAccess s.params 0x1000 2 ∧
    s.params.base + 0x3000 ≤ 0x7000 ∧ 0x3FFF < s.params.base := by
  refine ⟨by decide, Or.inr ⟨0, rfl⟩, ?_, ?_, ?_, ?_, by decide, by decide⟩ <;> unfold LegalAccess <;> decide

theorem witness_pending_access :
    let s := pending 1 [.write 0x00C 4 7] State.reset
    s.busy = true ∧ s.schedule = .write 0x00C 4 7 :: [] ∧ ∃ t, step s = .next t := ⟨rfl, rfl, _, rfl⟩

/-- A poll, and a write that will be dropped. -/
def beforeCompletion : List Event := [.read 0x004 4, .write 0x020 4 0x5678]

theorem beforeCompletion_legal {s : State} (h : s.params = Params.default) :
    ∀ e ∈ beforeCompletion, LegalEvent s e := by
  intro e he
  simp only [beforeCompletion, List.mem_cons, List.not_mem_nil, or_false] at he
  rcases he with rfl | rfl
  · exact ⟨0x004, 4, Or.inl ⟨rfl, rfl, by decide⟩, Or.inl (by rw [h]; rfl)⟩
  · exact ⟨0x020, 4, Or.inl ⟨rfl, rfl, by decide⟩, Or.inr ⟨_, by rw [h]; rfl⟩⟩

/-- A command pending with accesses before its completion; a word that is no command; a command that will fault. -/
theorem witness_pending_command :
    let s := pending 0x00010002 beforeCompletion (start [] 0x1234 0 0 0)
    let s' := pending 0x00000000 beforeCompletion State.reset
    let s'' := pending 0x00000001 beforeCompletion (withLen 1 State.reset)
    s.busy = true ∧ s.params.legal = true ∧ (∀ e ∈ s.schedule, LegalEvent s e) ∧
    (∃ u, step { s with schedule := [] } = .next u) ∧ s.InputReady ∧ (∀ e ∈ s'.schedule, LegalEvent s' e) ∧
    (∃ u, step { s' with schedule := [] } = .next u) ∧ (∀ e ∈ s''.schedule, LegalEvent s'' e) ∧
    ∃ f, step { s'' with schedule := [] } = .fault f :=
  ⟨rfl, by decide, beforeCompletion_legal rfl, ⟨_, rfl⟩, fun _ h => absurd h (Nat.not_lt_zero _),
    beforeCompletion_legal rfl, ⟨_, rfl⟩, beforeCompletion_legal rfl, _, rfl⟩

end Sys2Proof.Tests
end

section
/-! PROOF. The invariant of the block (Safety.lean) is kept by every step: one rule per update of State, then the
completion step and the host's write, then the step. -/

namespace Sys2Proof.Machine

/-! ## What the invariant reads -/

/-- The fields the invariant speaks of. -/
def State.invView (s : State) :
    Params × Word × Word × BitVec 4 × BitVec 8 × Word × List Host.Cell × List Host.Cell :=
  (s.params, s.cmd, s.pend, s.kind, s.detail, s.olen, s.ibuf, s.obuf)

/-- An update of any other field keeps the invariant. -/
theorem State.Inv.congr {s t : State} (h : s.Inv) (e : t.invView = s.invView) : t.Inv := by
  simp only [State.invView, Prod.mk.injEq] at e
  obtain ⟨hparams, hcmd, hpend, hkind, hdetail, holen, hibuf, hobuf⟩ := e
  constructor
  · rw [hparams]; exact h.paramsLegal
  · rw [hibuf]; exact h.ibufWf
  · rw [hobuf]; exact h.obufWf
  · rw [hparams, hibuf]; exact h.ibufBelow
  · rw [hparams, hobuf]; exact h.obufBelow
  · rw [hkind, hdetail]; exact h.outcome
  · rw [hpend, hcmd]; exact h.pendIsCmd
  · rw [holen, hparams]; exact h.olenLe
  · rw [holen, hobuf]; exact h.outputThere

/-! ## One rule per update -/

theorem State.Inv.setOutcome {s : State} (h : s.Inv) {k : BitVec 4} {d : Byte} (hkd : outcomeLegal k d = true) :
    (s.setOutcome k d).Inv :=
  { h with outcome := hkd }

theorem State.Inv.startCommand {s : State} (h : s.Inv) (v : Word) : (s.startCommand v).Inv :=
  { h with pendIsCmd := rfl }

/-- IBUF with a byte sequence stored inside it. -/
theorem State.Inv.storeIbuf {s : State} (h : s.Inv) {i : Nat} {f : List Byte} (hf : i + f.length ≤ s.params.ibufBytes) :
    { s with ibuf := bufWriteList s.ibuf i f }.Inv :=
  { h with
    ibufWf := bufWf_bufWriteList h.ibufWf i f
    ibufBelow := bufBelow_bufWriteList h.ibufBelow hf }

theorem State.Inv.putIn {s : State} (h : s.Inv) {back : Option (List Byte)}
    (hf : ∀ f, back = some f → f.length ≤ s.params.ibufBytes) : (s.putIn back).Inv := by
  cases back with
  | none => exact h
  | some f => exact h.storeIbuf (by simpa using hf f rfl)

/-- The host's write of a word at the end of IBUF stores only the bytes that IBUF has. -/
theorem State.Inv.ibufWrite {s : State} (h : s.Inv) {i : Nat} (hi : i < s.params.ibufBytes) (n : Nat) (d : BitVec 64) :
    (ibufWrite s i n d).Inv := by
  refine h.storeIbuf ?_
  rw [List.length_take]
  omega

/-- A length that fits in OBUF fits in OLEN: OBUF has at most 4096 bytes. -/
theorem State.Inv.olen_of_fits {s : State} (h : s.Inv) {k : Nat} (hk : k ≤ s.params.obufBytes) :
    (BitVec.ofNat 32 k).toNat = k := by
  obtain ⟨-, ⟨-, hmax⟩, -⟩ := params_legal_iff.1 h.paramsLegal
  rw [BitVec.toNat_ofNat]
  exact Nat.mod_eq_of_lt (by omega)

theorem State.Inv.putOut {s : State} (h : s.Inv) {out : Option (List Byte)}
    (hf : ∀ f, out = some f → f.length ≤ s.params.obufBytes) : (s.putOut out).Inv := by
  cases out with
  | none => exact h
  | some f =>
    have hlen : f.length ≤ s.params.obufBytes := hf f rfl
    have holen : (s.putOut (some f)).olen.toNat = f.length := h.olen_of_fits hlen
    exact { h with
      obufWf := bufWf_bufWriteList h.obufWf 0 f
      obufBelow := bufBelow_bufWriteList h.obufBelow (by simpa using hlen)
      olenLe := holen.trans_le hlen
      outputThere := fun i hi => by
        rw [holen] at hi
        rw [State.putOut_some_obuf, bufRead_bufWriteList_zero, if_pos hi, List.getElem?_eq_getElem hi]
        rfl }

theorem State.Inv.resetBlock {s : State} (h : s.Inv) : (resetBlock s).Inv where
  paramsLegal := h.paramsLegal
  ibufWf := rfl
  obufWf := rfl
  ibufBelow := rfl
  obufBelow := rfl
  outcome := rfl
  pendIsCmd := rfl
  olenLe := Nat.zero_le _
  outputThere := fun i hi => absurd hi (Nat.not_lt_zero i)

/-! ## A completion -/

theorem State.Inv.completeOk {s : State} (h : s.Inv) {e : Effect} (hf : e.Fits s) : (s.completeOk e).Inv := by
  obtain ⟨hout, hin⟩ := hf
  have hres : (s.putRes e.res).Inv := h.congr rfl
  have hinLe : ∀ f, e.inPlace = some f → f.length ≤ s.params.ibufBytes := fun f he => (hin f he).1.trans_le (hin f he).2
  exact ((hres.putOut hout).putIn hinLe).setOutcome rfl

theorem State.Inv.raiseOutcome {s : State} (h : s.Inv) (e : Err) : (s.raiseOutcome e).Inv :=
  have hres : (s.putRes e.res).Inv := h.congr rfl
  hres.setOutcome (err_outcomeLegal e)

theorem State.Inv.completePending {s t : State} (h : s.Inv) (hc : completePending s = .next t) : t.Inv := by
  rcases completePending_eq_next hc with ⟨e, hf, rfl⟩ | ⟨e, rfl⟩
  · exact h.completeOk hf
  · exact h.raiseOutcome e

theorem completePending_params {s t : State} (hc : completePending s = .next t) : t.params = s.params := by
  rcases completePending_eq_next hc with ⟨e, -, rfl⟩ | ⟨e, rfl⟩ <;> rfl

/-! ## A host write -/

theorem State.Inv.writeValue {s : State} (h : s.Inv) (off n : Nat) (d : BitVec 64) : (writeValue s off n d).Inv := by
  rcases writeValue_cases s off n d with ⟨b, e⟩ | ⟨v, e⟩ | ⟨a, b, e⟩ | ⟨v, e⟩ | ⟨r, v, e⟩ | ⟨i, hi, e⟩ <;> rw [e]
  · exact h.congr rfl
  · exact h.startCommand v
  · exact h.congr rfl
  · exact h.congr rfl
  · exact h.congr (by cases r <;> rfl)
  · exact h.ibufWrite hi n d

theorem writeValue_params (s : State) (off n : Nat) (d : BitVec 64) : (writeValue s off n d).params = s.params := by
  rcases writeValue_cases s off n d with ⟨b, e⟩ | ⟨v, e⟩ | ⟨a, b, e⟩ | ⟨v, e⟩ | ⟨r, v, e⟩ | ⟨i, -, e⟩
  case inr.inr.inr.inr.inl => rw [e, State.setOperand_params]
  all_goals exact (congrArg State.params e).trans rfl

/-! ## A step -/

theorem State.Inv.step {s t : State} (h : s.Inv) (hst : step s = .next t) : t.Inv := by
  obtain ⟨s₀, l, rfl, hcases⟩ := step_cases hst
  have h₀ : { s with schedule := l }.Inv := h.congr rfl
  rcases hcases with rfl | ⟨-, hc⟩ | rfl | ⟨v, rfl⟩ | ⟨off, n, d, -, -, rfl⟩
  · exact h₀
  · exact h₀.completePending hc
  · exact h₀.resetBlock
  · exact h₀.congr rfl
  · exact h₀.writeValue off n d

theorem step_params {s t : State} (hst : step s = .next t) : t.params = s.params := by
  obtain ⟨s₀, l, rfl, hcases⟩ := step_cases hst
  rcases hcases with rfl | ⟨-, hc⟩ | rfl | ⟨v, rfl⟩ | ⟨off, n, d, -, -, rfl⟩
  · rfl
  · exact (completePending_params hc).trans rfl
  · rfl
  · rfl
  · exact writeValue_params _ off n d

/-- Settles O7: each case of step_cases is an update the invariant survives, and none writes params. -/
theorem everyStepKeepsTheInvariant : Obligations.EveryStepKeepsTheInvariant := by
  intro s t h hst
  exact ⟨h.step hst, step_params hst⟩

end Sys2Proof.Machine
end

section
/-! PROOF. Reset, and what the engine's turn does (10_state.md R20, R34). -/

namespace Sys2Proof.Machine

/-- Settles O1: each field of State.reset is its literal, and an empty buffer has no byte. -/
theorem resetGivesEveryPieceItsValue : Obligations.ResetGivesEveryPieceItsValue :=
  ⟨rfl, rfl, rfl, rfl, rfl, rfl, rfl, rfl, rfl, rfl, rfl, rfl, rfl, rfl, rfl, bufRead_nil, bufRead_nil⟩

/-- Settles O6: the default parameters are legal, and at reset the buffers are empty, STATUS is 0 and CMD is PEND. -/
theorem resetMeetsTheInvariant : Obligations.ResetMeetsTheInvariant where
  paramsLegal := by decide
  ibufWf := rfl
  obufWf := rfl
  ibufBelow := rfl
  obufBelow := rfl
  outcome := rfl
  pendIsCmd := rfl
  olenLe := Nat.zero_le _
  outputThere := fun i hi => absurd hi (Nat.not_lt_zero i)

/-- A scheduled turn is the engine's step at the state that has it taken. -/
theorem step_of_complete {s : State} {rest : List Event} (h : s.schedule = .complete :: rest) :
    step s = engineStep { s with schedule := rest } :=
  step_of_cons h

/-- The engine's turn, by the schedule or because nothing else is left (log entries 3 and 4). -/
theorem step_of_turn {s : State} {rest : List Event}
    (h : s.schedule = [] ∧ rest = [] ∨ s.schedule = .complete :: rest) :
    step s = engineStep { s with schedule := rest } := by
  rcases h with ⟨hnil, rfl⟩ | hcons
  · rw [step_of_nil hnil, ← hnil]
  · exact step_of_complete hcons

/-- Settles O3: the turn of a busy block is its completion, which executes the decoded word. -/
theorem stepRunsTheDecodedCommand : Obligations.StepRunsTheDecodedCommand := by
  intro s i rest hbusy hturn hdec
  calc step s = engineStep { s with schedule := rest } := step_of_turn hturn
    _ = completePending { s with schedule := rest } := engineStep_of_busy hbusy
    _ = exec i { s with schedule := rest } := completePending_of_ok hdec

/-- Settles O5: the turn of an idle block is no step. -/
theorem idleEngineHasNoStep : Obligations.IdleEngineHasNoStep := by
  intro s rest hidle
  constructor
  · intro hnil
    rw [step_of_nil hnil, engineStep_of_idle hidle]
  · intro hcons
    rw [step_of_complete hcons]
    exact engineStep_of_idle hidle

end Sys2Proof.Machine
end

section
/-! PROOF. The host's accesses to the registers: a write of a writable register at an idle block, and STATUS
(10_state.md R22 to R29). -/

namespace Sys2Proof.Machine

open Sys2Proof.Claims

/-! ## Halves of a 64-bit register -/

/-- The high half kept, the low half replaced, on numbers (20_memory.md R55). -/
theorem withLow_eq_lowSet (old : DWord) (v : Word) : withLow old v = lowSet old v := by
  have hv : v.toNat < 2 ^ 32 := v.isLt
  have ho : old.toNat < 2 ^ 64 := old.isLt
  apply BitVec.eq_of_toNat_eq
  rw [withLow, lowSet, BitVec.toNat_append, ← Nat.shiftLeft_add_eq_or_of_lt hv, BitVec.extractLsb'_toNat,
    BitVec.toNat_ofNat, Nat.shiftLeft_eq, Nat.shiftRight_eq_div_pow]
  omega

/-- The low half kept, the high half replaced, on numbers (R55). -/
theorem withHigh_eq_highSet (old : DWord) (v : Word) : withHigh old v = highSet old v := by
  have hv : v.toNat < 2 ^ 32 := v.isLt
  apply BitVec.eq_of_toNat_eq
  rw [withHigh, highSet, BitVec.toNat_append, ← Nat.shiftLeft_add_eq_or_of_lt (BitVec.isLt _),
    BitVec.extractLsb'_toNat, BitVec.toNat_ofNat, Nat.shiftLeft_eq, Nat.shiftRight_zero]
  omega

/-! ## What a write to a register stores at an idle block, by what stands at the offset -/

section
variable {s : State} {off n : Nat} {d : BitVec 64} (hidle : s.busy = false)
include hidle

theorem writeValue_cmd (hl : locate s.params off = .cmd) :
    writeValue s off n d = s.startCommand (d.setWidth 32) := by
  simp only [writeValue, hl, storeIdle_idle hidle]

theorem writeValue_cfg (hl : locate s.params off = .cfg) :
    writeValue s off n d = { s with hostLE := d.getLsbD 0, swap := d.getLsbD 1 } := by
  simp only [writeValue, hl, storeIdle_idle hidle]

theorem writeValue_len (hl : locate s.params off = .len) :
    writeValue s off n d = { s with len := d.setWidth 32 } := by
  simp only [writeValue, hl, storeIdle_idle hidle]

theorem writeValue_operandLo {r : OperandReg} (hl : locate s.params off = .operandLo r) :
    writeValue s off n d = s.setOperand r (lowSet (operand s r) (d.setWidth 32)) := by
  simp only [writeValue, hl, storeIdle_idle hidle, withLow_eq_lowSet]

theorem writeValue_operandHi {r : OperandReg} (hl : locate s.params off = .operandHi r) :
    writeValue s off n d = s.setOperand r (highSet (operand s r) (d.setWidth 32)) := by
  simp only [writeValue, hl, storeIdle_idle hidle, withHigh_eq_highSet]

/-- Every row of the table of writable registers is what the model's write does at that offset. -/
theorem writeValue_of_mem_writtenRegisters {r : Nat × State} (hr : r ∈ writtenRegisters s (d.setWidth 32)) :
    writeValue s r.1 n d = r.2 := by
  revert r
  simp only [writtenRegisters, List.forall_mem_cons]
  refine ⟨writeValue_cmd hidle (locate_cmd _), ?cfg, writeValue_len hidle (locate_len _),
    writeValue_operandLo hidle (locate_a0Lo _), writeValue_operandHi hidle (locate_a0Hi _),
    writeValue_operandLo hidle (locate_a1Lo _), writeValue_operandHi hidle (locate_a1Hi _),
    writeValue_operandLo hidle (locate_a2Lo _), writeValue_operandHi hidle (locate_a2Hi _),
    writeValue_operandLo hidle (locate_a3Lo _), writeValue_operandHi hidle (locate_a3Hi _), nofun⟩
  rw [writeValue_cfg hidle (locate_cfg _), BitVec.getLsbD_setWidth, BitVec.getLsbD_setWidth]
  rfl

end

/-- The writable registers are words of the window (20_memory.md R51). -/
theorem writtenRegisters_offset {s : State} {v : Word} {r : Nat × State} (hr : r ∈ writtenRegisters s v) :
    r.1 < 0x3000 ∧ r.1 % 4 = 0 := by
  have key : ∀ off ∈ (writtenRegisters s v).map Prod.fst, off < 0x3000 ∧ off % 4 = 0 := by
    simp [writtenRegisters]
  exact key _ (List.mem_map_of_mem hr)

/-- Settles O53: a register is written by an aligned word, and the write stores what its row of the table says. -/
theorem idleWritesStore : Obligations.IdleWritesStore := by
  intro s rest d hidle r hr hsched
  obtain ⟨hwindow, haligned⟩ := writtenRegisters_offset hr
  rw [BitVec.ofNat_toNat] at hr
  rw [step_write hsched hwindow (accessLegal_word haligned),
    writeValue_of_mem_writtenRegisters (s := { s with schedule := rest }) hidle hr]

/-! ## STATUS -/

/-- Settles O56: the write of STATUS is not dropped while busy, and its bit 1 clears DROPPED. -/
theorem statusWriteClearsDropped : Obligations.StatusWriteClearsDropped := by
  intro s rest d hsched
  have hbit : (s.dropped && !(d.setWidth 32).getLsbD 1) = if d.getLsbD 1 then false else s.dropped := by
    rw [BitVec.getLsbD_setWidth]
    cases d.getLsbD 1 <;> simp
  rw [step_write hsched (by decide) (accessLegal_word rfl), ← hbit]
  rfl

/-- While busy a read of STATUS packs BUSY set, the true DROPPED bit, and bits of the free value (R24). -/
theorem readValue_status_busy {s : State} (hbusy : s.busy = true) (n : Nat) (free : Word) :
    readValue s 0x004 n free = packStatus true s.dropped (free.extractLsb' 4 4) (free.extractLsb' 8 8) :=
  if_pos hbusy

/-- Settles O51: the word packed while busy has its low bits and its high half whatever the free value holds. -/
theorem statusReadsBusyAndDropped : Obligations.StatusReadsBusyAndDropped := by
  intro s rest hbusy hsched
  refine ⟨_, step_read hsched (by decide) (accessLegal_word rfl), ?_⟩
  rw [readValue_status_busy (s := { s with schedule := rest }) hbusy]
  obtain ⟨hbit0, hbit1, hbit2, hbit3⟩ := packStatus_low true s.dropped _ _
  exact ⟨hbit0, hbit1, hbit2, hbit3, fun k hk => packStatus_high _ _ _ _ hk⟩

end Sys2Proof.Machine
end

section
/-! PROOF. What a completion changes, by what the command writes: a result to RES, or an output to OBUF (10_state.md
R27, R28, R31). -/

namespace Sys2Proof.Machine

open Sys2Proof.Claims

/-! ## The next state by the kind of effect -/

/-- Only ProtocolException writes RES (60_exceptions.md R248). -/
theorem Err.res_eq_none {e : Err} (h : e.kind ≠ 3) : e.res = none := by
  cases e with
  | protocolException code message => exact absurd rfl h
  | validation d => rfl
  | framing d => rfl
  | shape d => rfl
  | notImplemented => rfl
  | command d => rfl

/-- A command that writes only RES changes only RES and STATUS, whether it runs to its end or raises an outcome. -/
theorem exec_frame_of_resOnly {i : Instr} {s t : State} (hi : ∀ e, commandOf i s = .ok e → e.ResOnly)
    (h : exec i s = .next t) : t = { s with kind := t.kind, detail := t.detail, busy := false, res := t.res } := by
  rw [exec_eq_finish] at h
  rcases finish_eq_next.1 h with ⟨e, he, rfl⟩ | ⟨e, -, rfl⟩
  · obtain ⟨hout, hin⟩ := hi e he
    simp only [State.completeOk, hout, hin]
    rfl
  · rfl

/-- An effect that is only an output is that output and nothing else. -/
theorem Effect.OutOnly.eq_out {e : Effect} (h : e.OutOnly) : ∃ f, e = { out := some f } := by
  obtain ⟨res, out, inPlace⟩ := e
  obtain ⟨rfl, rfl, hout⟩ := h
  obtain ⟨f, rfl⟩ := Option.isSome_iff_exists.1 hout
  exact ⟨f, rfl⟩

/-- A command with a byte output completes OK with an output that fits in OBUF, or raises an outcome. -/
theorem exec_cases_of_outOnly {i : Instr} {s t : State} (hi : ∀ e, commandOf i s = .ok e → e.OutOnly)
    (h : exec i s = .next t) :
    (∃ f, f.length ≤ s.params.obufBytes ∧
      t = { okState s with obuf := bufWriteList s.obuf 0 f, olen := BitVec.ofNat 32 f.length }) ∨
    ∃ e, t = s.raiseOutcome e := by
  rw [exec_eq_finish] at h
  rcases finish_eq_next.1 h with ⟨e, he, rfl⟩ | ⟨e, -, rfl⟩
  · obtain ⟨hfits, -⟩ := commandOf_fits he
    obtain ⟨f, rfl⟩ := (hi e he).eq_out
    exact .inl ⟨f, hfits f rfl, rfl⟩
  · exact .inr ⟨e, rfl⟩

/-- OLEN is the length of an output that fits: OBUF has at most 4096 bytes (00_scope.md R7). -/
theorem toNat_olen_of_fits {p : Params} (hp : p.legal = true) {k : Nat} (hk : k ≤ p.obufBytes) :
    (BitVec.ofNat 32 k).toNat = k := by
  obtain ⟨-, ⟨-, hmax⟩, -⟩ := params_legal_iff.1 hp
  rw [BitVec.toNat_ofNat]
  exact Nat.mod_eq_of_lt (by omega)

/-- The bytes of a buffer past an output stored at its start are as before. -/
theorem bufRead_bufWriteList_of_ge {m : List Host.Cell} {f : List Byte} {j : Nat} (h : f.length ≤ j) :
    bufRead (bufWriteList m 0 f) j = bufRead m j := by
  rw [bufRead_bufWriteList_zero, if_neg (Nat.not_lt.2 h)]

/-! ## Which commands write what -/

theorem commandOf_resOnly {s : State} {e : Effect} {w : BitVec 3} {c : Cond} {fc : Byte} :
    ∀ i ∈ [Instr.crc16, .swap8 c, .swap16 c, .swap32 c, .swap64 c, .swapWide w c, .wpswap w, .validate, .qsize w,
      .xlate fc], commandOf i s = .ok e → e.ResOnly := by
  intro i hi he
  fin_cases hi <;> exact commandOf_shape he

theorem commandOf_outOnly {s : State} {e : Effect} {w : BitVec 3} {c : Cond} {b : Bool} :
    ∀ i ∈ encodes w c b ++ unimplemented b ++ [.swapbuf w c false] ++ (parseReads w c b s).map Prod.fst ++
      (parseWrites b s).map Prod.fst, commandOf i s = .ok e → e.OutOnly := by
  intro i hi he
  fin_cases hi <;> exact commandOf_shape he

/-- Settles O47: none of these commands has an output or bytes to put back. -/
theorem resultCommandsKeepTheBuffers : Obligations.ResultCommandsKeepTheBuffers := by
  intro s t w c fc i hi h
  exact exec_frame_of_resOnly (fun _ => commandOf_resOnly i hi) h

/-- Settles O48: either the output is stored from index 0 on and KIND is 0, or an outcome was raised and KIND is not. -/
theorem outputCommandsKeepTheRest : Obligations.OutputCommandsKeepTheRest := by
  intro s t w c b hp i hi h
  rcases exec_cases_of_outOnly (fun _ => commandOf_outOnly i hi) h with ⟨f, hfits, rfl⟩ | ⟨e, rfl⟩
  · have holen : (BitVec.ofNat 32 f.length).toNat = f.length := toNat_olen_of_fits hp hfits
    refine ⟨rfl, fun _ => rfl, fun _ j hj => ?_, fun hkind => absurd rfl hkind⟩
    exact bufRead_bufWriteList_of_ge (holen ▸ hj)
  · refine ⟨rfl, fun hkind => ?_, fun hkind => absurd hkind (err_kind_ne_zero e), fun _ => ⟨rfl, rfl⟩⟩
    rw [State.raiseOutcome_res, Err.res_eq_none hkind, Option.getD_none]

end Sys2Proof.Machine
end

section
/-! PROOF. The one fault of a command: UninitRead, raised by every command that reads IBUF once its operand checks
pass (10_state.md R35, log entry 11). -/

namespace Sys2Proof.Machine

open Sys2Proof.Claims

/-- Input with a byte below LEN that is UNINIT cannot be read (R35). -/
theorem readIbuf_of_uninit {s : State} {j : Nat} (hj : j < s.len.toNat) (hbyte : bufRead s.ibuf j = none) :
    readIbuf s = .error (.fault .uninitRead) :=
  readIbuf_eq_error.2 ⟨rfl, j, hj, hbyte⟩

/-! ## Each reading command, once its operand checks pass, goes on from the input it reads -/

/-- Everything prep_write checks before it reads, as one number (42_frame_codec.md R147). -/
theorem prepDetail_eq_zero {qmax : Nat} {w : BitVec 3} {s : State} :
    prepDetail qmax w s = 0 ↔
      w.toNat ≤ 3 ∧ s.len.toNat ≤ s.params.ibufBytes ∧ s.len.toNat % 2 ^ w.toNat = 0 ∧
      (2 ≤ s.len.toNat ∧ s.len.toNat % 2 = 0) ∧ s.len.toNat / 2 ≤ qmax ∧ s.len.toNat ≤ 255 := by
  unfold prepDetail
  split_ifs <;> simp <;> omega

theorem prepWrite_of_prepDetail {qmax : Fin 65536} {w : BitVec 3} {s : State} (h : prepDetail qmax.val w s = 0)
    (c : Cond) :
    prepWrite qmax w c s = do
      let f ← readIbuf s
      return (s.len.toNat / 2, eswap f (elemWidth w) (condTrue c s)) := by
  obtain ⟨hw, hlen, halign, heven, hq, hbytes⟩ := prepDetail_eq_zero.1 h
  have hwrite : (decide (2 ≤ s.len.toNat) && s.len.toNat % 2 == 0) = true := by simpa using heven
  have hcount : 2 * (s.len.toNat / 2) ≤ 255 := by omega
  simp only [prepWrite, checkWidth_of_le hw, checkLenRange_of_le hlen, checkLenAlign_of_dvd halign, hwrite, ensure_true,
    checkQty, ensure_pos hq, ensure_pos hcount, ok_bind]

/-- The preamble of an implemented ENCODE passes (R130, 44_marshaller.md R180). -/
theorem encodePreamble_of_le {n : FcName} {s : State} (hn : (respClass n).isSome = true) (hunit : s.a0.toNat ≤ 255) :
    encodePreamble n s = .ok () := by
  simp only [encodePreamble, checkImplemented, hn, if_true, ok_bind, checkUnit, ensure_pos hunit]

/-- The data length of a reading PARSE, of bits or of registers, once its checks pass (45_response_parser.md R204). -/
theorem neededLength_of_reads {cls : RespClass} {need : Nat} {w : BitVec 3} {s : State}
    (hcls : cls = .bits ∧ need = (s.a2.toNat + 7) / 8 ∨ cls = .regs ∧ need = 2 * s.a2.toNat)
    (hq : s.a2.toNat ≤ 65535) (hw : w.toNat ≤ 3) (halign : need % 2 ^ w.toNat = 0) :
    neededLength cls w s = .ok (some need) := by
  have hqty : checkQty s.a2.toNat 65535 = .ok () := ensure_pos hq _
  rcases hcls with ⟨rfl, rfl⟩ | ⟨rfl, rfl⟩ <;>
    simp only [neededLength, hqty, checkWidth_of_le hw, checkLenAlign_of_dvd halign, ok_bind, pure_eq_ok]

/-- Each row of the reading PARSE commands: its function code, and the class that gives its data length. -/
theorem parseReads_row {w : BitVec 3} {c : Cond} {serial : Bool} {s : State} {r : Instr × Byte × Nat}
    (hr : r ∈ parseReads w c serial s) :
    ∃ n cls, commandOf r.1 s = parseCommand n w c serial s ∧ respClass n = some cls ∧
      r.2.1 = s.params.fcode.byte n ∧
      (cls = .bits ∧ r.2.2 = (s.a2.toNat + 7) / 8 ∨ cls = .regs ∧ r.2.2 = 2 * s.a2.toNat) := by
  simp only [parseReads, List.mem_cons, List.not_mem_nil, or_false] at hr
  rcases hr with rfl | rfl | rfl | rfl | rfl
  · exact ⟨.rc, .bits, rfl, rfl, rfl, .inl ⟨rfl, rfl⟩⟩
  · exact ⟨.rdi, .bits, rfl, rfl, rfl, .inl ⟨rfl, rfl⟩⟩
  · exact ⟨.rhr, .regs, rfl, rfl, rfl, .inr ⟨rfl, rfl⟩⟩
  · exact ⟨.rir, .regs, rfl, rfl, rfl, .inr ⟨rfl, rfl⟩⟩
  · exact ⟨.rwmr, .regs, rfl, rfl, rfl, .inr ⟨rfl, rfl⟩⟩

/-- Each row of the PARSE commands of the write class: its function code. -/
theorem parseWrites_row {serial : Bool} {s : State} {r : Instr × Byte} (hr : r ∈ parseWrites serial s) :
    ∃ n, commandOf r.1 s = parseCommand n 0 .always serial s ∧ respClass n = some .write ∧
      r.2 = s.params.fcode.byte n := by
  simp only [parseWrites, List.mem_cons, List.not_mem_nil, or_false] at hr
  rcases hr with rfl | rfl | rfl
  · exact ⟨.wsc, rfl, rfl, rfl⟩
  · exact ⟨.wsr, rfl, rfl, rfl⟩
  · exact ⟨.wmr, rfl, rfl, rfl⟩

/-! ## Each reading command faults where its input cannot be read -/

section
variable {s : State} (hlen : s.len.toNat ≤ s.params.ibufBytes) (hread : readIbuf s = .error (.fault .uninitRead))
include hlen hread

theorem crc16Command_fault : crc16Command s = .error (.fault .uninitRead) := by
  simp only [crc16Command, checkLenRange_of_le hlen, hread, ok_bind, error_bind]

theorem swapbufCommand_fault {w : BitVec 3} (hw : w.toNat ≤ 3) (halign : s.len.toNat % 2 ^ w.toNat = 0) (c : Cond)
    (dst : Bool) : swapbufCommand w c dst s = .error (.fault .uninitRead) := by
  simp only [swapbufCommand, checkWidth_of_le hw, checkLenRange_of_le hlen, checkLenAlign_of_dvd halign, hread, ok_bind,
    error_bind]

theorem validateCommand_fault (hunit : s.a0.toNat ≤ 255) (hfive : 5 ≤ s.len.toNat) :
    validateCommand s = .error (.fault .uninitRead) := by
  simp only [validateCommand, checkUnit, ensure_pos hunit, checkLenRange_of_le hlen, validateReason,
    if_neg (Nat.not_lt.2 hfive), hread, ok_bind, error_bind]

theorem parseCommand_fault {n : FcName} {cls : RespClass} (hcls : respClass n = some cls) (hunit : s.a0.toNat ≤ 255)
    {w : BitVec 3} {need : Option Nat} (hneed : neededLength cls w s = .ok need) (c : Cond) (serial : Bool) :
    parseCommand n w c serial s = .error (.fault .uninitRead) := by
  simp only [parseCommand, hcls, parseClass, checkUnit, ensure_pos hunit, checkLenRange_of_le hlen, hneed, hread,
    ok_bind, error_bind]

omit hlen

theorem prepWrite_fault {qmax : Fin 65536} {w : BitVec 3} (h : prepDetail qmax.val w s = 0) (c : Cond) :
    prepWrite qmax w c s = .error (.fault .uninitRead) := by
  rw [prepWrite_of_prepDetail h, hread, error_bind]

theorem encodeWriteRegisters_fault {w : BitVec 3} (hok : WmrOperandsOk s)
    (hprep : prepDetail s.params.qmaxWriteRegs.val w s = 0) (c : Cond) (wrap : Bool) :
    encodeWriteRegisters w c wrap s = .error (.fault .uninitRead) := by
  obtain ⟨hunit, haddr⟩ := hok
  simp only [encodeWriteRegisters, encodePreamble_of_le (n := .wmr) rfl hunit, checkAddr, ensure_pos haddr,
    prepWrite_fault hread hprep, ok_bind, error_bind]

theorem encodeReadWrite_fault {w : BitVec 3} (hok : RwmrOperandsOk s)
    (hprep : prepDetail s.params.qmaxRwWrite.val w s = 0) (c : Cond) (wrap : Bool) :
    encodeReadWrite w c wrap s = .error (.fault .uninitRead) := by
  obtain ⟨hunit, haddr, hqty, hwaddr⟩ := hok
  simp only [encodeReadWrite, encodePreamble_of_le (n := .rwmr) rfl hunit, checkAddr, ensure_pos haddr, checkQty,
    ensure_pos hqty, ensure_pos hwaddr, prepWrite_fault hread hprep, ok_bind, error_bind]

end

/-- A command faults exactly where its pseudocode does. -/
theorem exec_eq_fault {i : Instr} {s : State} {f : Fault} :
    exec i s = .fault f ↔ commandOf i s = .error (.fault f) := by
  rw [exec_eq_finish, finish_eq_fault]

/-- Settles O44: a fault comes from reading the input, and each reading command reads it when its checks have passed. -/
theorem commandsFaultOnlyOnUninitBytes : Obligations.CommandsFaultOnlyOnUninitBytes := by
  intro i s
  refine ⟨fun f hf => faultIsUninit_commandOf s i f (exec_eq_fault.1 hf), fun r hr => ?_, ?_⟩
  · rw [exec_eq_finish] at hr
    exact finish_ne_refused hr
  intro j w c b hlen hj hbyte
  have hread : readIbuf s = .error (.fault .uninitRead) := readIbuf_of_uninit hj hbyte
  refine ⟨exec_eq_fault.2 (crc16Command_fault hlen hread),
    fun hw halign => exec_eq_fault.2 (swapbufCommand_fault hlen hread hw halign c b),
    fun hunit hfive => exec_eq_fault.2 (validateCommand_fault hlen hread hunit hfive),
    fun hok hprep => exec_eq_fault.2 (encodeWriteRegisters_fault hread hok hprep c b),
    fun hok hprep => exec_eq_fault.2 (encodeReadWrite_fault hread hok hprep c b), ?reads, ?writes⟩
  case reads =>
    rintro r hr ⟨hunit, hqty, hw, halign⟩
    obtain ⟨n, cls, hcmd, hcls, -, hdata⟩ := parseReads_row hr
    rw [exec_eq_fault, hcmd]
    exact parseCommand_fault hlen hread hcls hunit (neededLength_of_reads hdata hqty hw halign) c b
  case writes =>
    intro r hr hunit
    obtain ⟨n, hcmd, hcls, -⟩ := parseWrites_row hr
    rw [exec_eq_fault, hcmd]
    exact parseCommand_fault hlen hread hcls hunit rfl .always b

end Sys2Proof.Machine
end

section
/-! PROOF. The host's reads of the registers (20_memory.md R51, R55; 10_state.md R22 to R29, R36). -/

namespace Sys2Proof.Machine

open Sys2Proof.Claims

/-! ## Halves of a 64-bit register, as a host reads them -/

theorem extractLsb'_low_eq_ofNat (v : DWord) : v.extractLsb' 0 32 = BitVec.ofNat 32 v.toNat :=
  BitVec.eq_of_toNat_eq (by simp)

theorem extractLsb'_high_eq_ofNat (v : DWord) : v.extractLsb' 32 32 = BitVec.ofNat 32 (v.toNat / 2 ^ 32) :=
  BitVec.eq_of_toNat_eq (by simp [Nat.shiftRight_eq_div_pow])

/-! ## What a read of a register returns, by what stands at the offset -/

theorem readValue_operandLo {s : State} {off : Nat} {r : OperandReg} (hl : locate s.params off = .operandLo r)
    (n : Nat) (free : Word) : readValue s off n free = BitVec.ofNat 32 (operand s r).toNat := by
  simp only [readValue, hl, extractLsb'_low_eq_ofNat]

theorem readValue_operandHi {s : State} {off : Nat} {r : OperandReg} (hl : locate s.params off = .operandHi r)
    (n : Nat) (free : Word) : readValue s off n free = BitVec.ofNat 32 ((operand s r).toNat / 2 ^ 32) := by
  simp only [readValue, hl, extractLsb'_high_eq_ofNat]

theorem resultValue_idle {s : State} (hidle : s.busy = false) (v free : Word) : resultValue s v free = v := by
  simp [resultValue, hidle]

theorem statusWord_idle {s : State} (hidle : s.busy = false) (free : Word) :
    statusWord s free = BitVec.ofNat 32 (2 * s.dropped.toNat + 16 * s.kind.toNat + 256 * s.detail.toNat) := by
  simp only [statusWord, hidle, Bool.false_eq_true, if_false, packStatus_idle]

/-- Every row of the table of stored registers is what the model's read returns, busy or not (R51). -/
theorem readValue_of_mem_storedRegisters {s : State} {r : Nat × Word} (hr : r ∈ storedRegisters s) (n : Nat)
    (free : Word) : readValue s r.1 n free = r.2 := by
  revert r
  simp only [storedRegisters, List.forall_mem_cons]
  exact ⟨rfl, cfgWord_eq s, rfl,
    readValue_operandLo (locate_a0Lo _) n free, readValue_operandHi (locate_a0Hi _) n free,
    readValue_operandLo (locate_a1Lo _) n free, readValue_operandHi (locate_a1Hi _) n free,
    readValue_operandLo (locate_a2Lo _) n free, readValue_operandHi (locate_a2Hi _) n free,
    readValue_operandLo (locate_a3Lo _) n free, readValue_operandHi (locate_a3Hi _) n free, nofun⟩

/-- Every row of the table of result registers is what the model's read returns at an idle block (R24, R36). -/
theorem readValue_of_mem_resultRegisters {s : State} (hidle : s.busy = false) {r : Nat × Word}
    (hr : r ∈ resultRegisters s) (n : Nat) (free : Word) : readValue s r.1 n free = r.2 := by
  revert r
  simp only [resultRegisters, List.forall_mem_cons]
  exact ⟨statusWord_idle hidle free, resultValue_idle hidle s.olen free,
    (resultValue_idle hidle _ free).trans (extractLsb'_low_eq_ofNat s.res),
    (resultValue_idle hidle _ free).trans (extractLsb'_high_eq_ofNat s.res), nofun⟩

/-- The registers of both tables are words of the window (R51). -/
theorem readRegisters_offset {s : State} {r : Nat × Word} (hr : r ∈ storedRegisters s ∨ r ∈ resultRegisters s) :
    r.1 < 0x3000 ∧ r.1 % 4 = 0 := by
  have key : ∀ off ∈ (storedRegisters s ++ resultRegisters s).map Prod.fst, off < 0x3000 ∧ off % 4 = 0 := by
    simp [storedRegisters, resultRegisters]
  exact key _ (List.mem_map_of_mem (List.mem_append.2 hr))

/-- Settles O50: a register is read by an aligned word, and the read returns what its row of a table says. -/
theorem registersReadBack : Obligations.RegistersReadBack := by
  intro s rest r hr hsched
  rw [List.mem_append, List.mem_ite_nil_left, Bool.not_eq_true] at hr
  obtain ⟨hwindow, haligned⟩ := readRegisters_offset (hr.imp_right And.right)
  rw [step_read hsched hwindow (accessLegal_word haligned)]
  rcases hr with hstored | ⟨hidle, hresult⟩
  · rw [readValue_of_mem_storedRegisters (s := { s with schedule := rest }) hstored]
  · rw [readValue_of_mem_resultRegisters (s := { s with schedule := rest }) hidle hresult]

end Sys2Proof.Machine
end

section
/-! PROOF. The host's accesses to the buffer windows, and the accesses that are dropped, ignored or illegal (20_memory.md
R50 to R63). -/

namespace Sys2Proof.Machine

open Sys2Proof.Claims

/-! ## Legal accesses (R52) -/

/-- The model's check of an access is the claims' LegalAccess, inside the window. -/
theorem legalAccess_iff {p : Params} (hp : p.legal = true) {off n : Nat} :
    LegalAccess p off n ↔ off < 0x3000 ∧ accessLegal p off n = true := by
  obtain ⟨⟨-, hibuf⟩, ⟨-, hobuf⟩, -⟩ := params_legal_iff.1 hp
  simp only [LegalAccess, accessLegal, Bool.or_eq_true, Bool.and_eq_true, beq_iff_eq, inIbuf_iff, inObuf_iff]
  omega

/-- A byte or an aligned word that begins inside a buffer is a legal access of its window. -/
theorem legalAccess_of_buffer {p : Params} {i n size base : Nat} (hp : p.legal = true)
    (hbuf : base = 0x1000 ∧ size = p.ibufBytes ∨ base = 0x2000 ∧ size = p.obufBytes) (hi : i < size)
    (hn : n = 1 ∨ n = 4 ∧ i % 4 = 0) : LegalAccess p (base + i) n := by
  obtain ⟨⟨-, hibuf⟩, ⟨-, hobuf⟩, -⟩ := params_legal_iff.1 hp
  unfold LegalAccess
  omega

/-! ## Reads of a buffer -/

/-- A buffer read holds each written byte of the access in its place, and 0 past the access and past the buffer's
size, where the byte function gives a written byte as it stands and 0 past the size (R55, R56). -/
theorem wordByte_bufferValue {byteAt : Nat → Byte → Byte} {m : List Host.Cell} {size : Nat}
    (hwritten : ∀ k b free, k < size → bufRead m k = some b → byteAt k free = b)
    (hpast : ∀ k free, size ≤ k → byteAt k free = 0) {n : Nat} (hn : n = 1 ∨ n = 4) (i : Nat) (free : Word) :
    (∀ j b, j < n → i + j < size → bufRead m (i + j) = some b →
      wordByte (bufferValue byteAt i n free) j = b.toNat) ∧
    ∀ j, j < 4 → n ≤ j ∨ size ≤ i + j → wordByte (bufferValue byteAt i n free) j = 0 := by
  have hbyte : ∀ j, j < 4 → wordByte (bufferValue byteAt i n free) j =
      if j < n then (byteAt (i + j) (byteOf free j)).toNat else 0 := fun j hj => bufferValue_byte byteAt i free hn hj
  constructor
  · intro j b hj hsize hb
    rw [hbyte j (by omega), if_pos hj, hwritten _ b _ hsize hb]
  · intro j hj hout
    rw [hbyte j hj]
    split
    · rw [hpast _ _ (by omega)]
      rfl
    · rfl

theorem ibufByte_of_written {s : State} {k : Nat} {b : Byte} (free : Byte) (hk : k < s.params.ibufBytes)
    (hb : bufRead s.ibuf k = some b) : ibufByte s k free = b := by
  simp [ibufByte, hk, hb]

theorem ibufByte_of_ge {s : State} {k : Nat} (free : Byte) (hk : s.params.ibufBytes ≤ k) : ibufByte s k free = 0 :=
  if_neg (Nat.not_lt.2 hk)

theorem obufByte_of_written {s : State} (hidle : s.busy = false) {k : Nat} {b : Byte} (free : Byte)
    (hk : k < s.params.obufBytes) (hb : bufRead s.obuf k = some b) : obufByte s k free = b := by
  simp [obufByte, hidle, hk, hb]

theorem obufByte_of_ge {s : State} {k : Nat} (free : Byte) (hk : s.params.obufBytes ≤ k) : obufByte s k free = 0 :=
  if_neg (Nat.not_lt.2 hk)

theorem readValue_ibuf {s : State} {i : Nat} (hi : i < s.params.ibufBytes) (n : Nat) (free : Word) :
    readValue s (0x1000 + i) n free = bufferValue (ibufByte s) i n free := by
  simp only [readValue, locate_of_ibuf (Nat.le_add_right _ i) (Nat.add_lt_add_left hi _), Nat.add_sub_cancel_left]

theorem readValue_obuf {s : State} (hp : s.params.legal = true) {i : Nat} (hi : i < s.params.obufBytes) (n : Nat)
    (free : Word) : readValue s (0x2000 + i) n free = bufferValue (obufByte s) i n free := by
  simp only [readValue, locate_of_obuf hp (Nat.le_add_right _ i) (Nat.add_lt_add_left hi _), Nat.add_sub_cancel_left]

/-- Settles O52: the read's word is bufferValue of the buffer's byte function; an idle OBUF and any IBUF give their
written bytes. -/
theorem bufferReadsPackLittleEndian : Obligations.BufferReadsPackLittleEndian := by
  intro s rest i n hp r hr hi hn hsched
  have hwidth : n = 1 ∨ n = 4 := hn.imp_right And.left
  simp only [List.mem_cons, List.not_mem_nil, or_false] at hr
  rcases hr with rfl | rfl
  · obtain ⟨hwindow, hlegal⟩ := (legalAccess_iff hp).1 (legalAccess_of_buffer hp (.inl ⟨rfl, rfl⟩) hi hn)
    refine ⟨_, step_read hsched hwindow hlegal, fun _ => ?_⟩
    rw [readValue_ibuf (s := { s with schedule := rest }) hi]
    exact wordByte_bufferValue (fun k b free => ibufByte_of_written free) (fun k free => ibufByte_of_ge free) hwidth i _
  · obtain ⟨hwindow, hlegal⟩ := (legalAccess_iff hp).1 (legalAccess_of_buffer hp (.inr ⟨rfl, rfl⟩) hi hn)
    refine ⟨_, step_read hsched hwindow hlegal, fun hopen => ?_⟩
    have hidle : s.busy = false := hopen.resolve_right (show ¬ 0x2000 = 0x1000 by decide)
    rw [readValue_obuf (s := { s with schedule := rest }) hp hi]
    exact wordByte_bufferValue (fun k b free => obufByte_of_written (s := { s with schedule := rest }) hidle free)
      (fun k free => obufByte_of_ge free) hwidth i _

/-! ## Writes of IBUF -/

theorem byteOf_eq_ofNat (d : BitVec 64) (k : Nat) : byteOf d k = BitVec.ofNat 8 (d.toNat / 2 ^ (8 * k)) :=
  BitVec.eq_of_toNat_eq (by simp [byteOf, Nat.shiftRight_eq_div_pow])

/-- The bytes a write of IBUF stores: the first n of the data, as far as they lie inside the buffer (R55). -/
theorem ibufWrite_eq {n : Nat} (hn : n = 1 ∨ n = 4) (s : State) (i : Nat) (d : BitVec 64) :
    ibufWrite s i n d =
      { s with ibuf := bufWriteList s.ibuf i (((List.range n).map (byteOf d)).take (s.params.ibufBytes - i)) } := by
  rcases hn with rfl | rfl <;> rfl

theorem bufRead_ibufWrite {n : Nat} (hn : n = 1 ∨ n = 4) (s : State) (i : Nat) (d : BitVec 64) (j : Nat) :
    bufRead (ibufWrite s i n d).ibuf j =
      if i ≤ j ∧ j < i + n ∧ j < s.params.ibufBytes then some (byteOf d (j - i)) else bufRead s.ibuf j := by
  rw [ibufWrite_eq hn, bufRead_bufWriteList, List.length_take, List.length_map, List.length_range]
  have hrange : (i ≤ j ∧ j < i + min (s.params.ibufBytes - i) n) ↔ (i ≤ j ∧ j < i + n ∧ j < s.params.ibufBytes) := by
    omega
  simp only [hrange]
  split
  next hin =>
    obtain ⟨hge, hlt, hsize⟩ := hin
    rw [List.getElem?_take_of_lt (by omega), List.getElem?_map, List.getElem?_range (by omega), Option.map_some]
  next => rfl

theorem writeValue_ibuf {s : State} (hidle : s.busy = false) {i : Nat} (hi : i < s.params.ibufBytes) (n : Nat)
    (d : BitVec 64) : writeValue s (0x1000 + i) n d = ibufWrite s i n d := by
  simp only [writeValue, locate_of_ibuf (Nat.le_add_right _ i) (Nat.add_lt_add_left hi _), storeIdle_idle hidle,
    Nat.add_sub_cancel_left]

/-- Settles O54: the legal write is ibufWrite, which stores the access's bytes inside the buffer. -/
theorem idleWritesFillIbuf : Obligations.IdleWritesFillIbuf := by
  intro s rest d i n hidle hp hi hn hsched
  obtain ⟨hwindow, hlegal⟩ := (legalAccess_iff hp).1 (legalAccess_of_buffer hp (.inl ⟨rfl, rfl⟩) hi hn)
  rw [Nat.add_assoc] at hsched
  refine ⟨ibufWrite { s with schedule := rest } i n d, ?_, rfl, fun j => ?_⟩
  · rw [step_write hsched hwindow hlegal, writeValue_ibuf (s := { s with schedule := rest }) hidle hi]
  · rw [bufRead_ibufWrite (hn.imp_right And.left), byteOf_eq_ofNat]

/-! ## Writes that are dropped or ignored -/

/-- A reserved offset holds no register and no buffer byte (R51, R54). -/
theorem locate_of_reserved {p : Params} (hp : p.legal = true) {off : Nat} (h : ReservedOffset p off) :
    locate p off = .reserved := by
  obtain ⟨⟨-, hibuf⟩, -, -⟩ := params_legal_iff.1 hp
  rcases h with rfl | h
  · rfl
  · exact locate_of_gap (by omega) (by omega) (by omega)

/-- While busy a write of a writable register or of the IBUF window only sets DROPPED (R63). -/
theorem writeValue_dropped {s : State} (hbusy : s.busy = true) {off : Nat}
    (hoff : off ∈ [0x000, 0x008, 0x00C, 0x020, 0x024, 0x028, 0x02C, 0x030, 0x034, 0x038, 0x03C] ∨
      (0x1000 ≤ off ∧ off < 0x1000 + s.params.ibufBytes)) (n : Nat) (d : BitVec 64) :
    writeValue s off n d = { s with dropped := true } := by
  rcases hoff with hreg | ⟨hge, hlt⟩
  · fin_cases hreg <;> exact storeIdle_busy hbusy
  · simp only [writeValue, locate_of_ibuf hge hlt, storeIdle_busy hbusy]

/-- A write of a reserved offset, of OLEN or RES, or of the OBUF window is ignored, busy or not (R54, R63). -/
theorem writeValue_ignored {s : State} (hp : s.params.legal = true) {off : Nat}
    (hoff : ReservedOffset s.params off ∨ off ∈ [0x010, 0x018, 0x01C] ∨
      (0x2000 ≤ off ∧ off < 0x2000 + s.params.obufBytes)) (n : Nat) (d : BitVec 64) : writeValue s off n d = s := by
  rcases hoff with hres | hreg | ⟨hge, hlt⟩
  · simp only [writeValue, locate_of_reserved hp hres]
  · fin_cases hreg <;> rfl
  · simp only [writeValue, locate_of_obuf hp hge hlt]

/-- A legal access of STATUS is a word: the byte accesses are those of the buffers (R52). -/
theorem legalAccess_status {p : Params} {n : Nat} (h : LegalAccess p 0x004 n) : n = 4 := by
  unfold LegalAccess at h
  omega

/-- Settles O55: by what stands at the offset, the write is dropped, clears DROPPED, or is ignored. -/
theorem busyWritesAreDropped : Obligations.BusyWritesAreDropped := by
  intro s rest d off n hbusy hp hlegal hsched
  obtain ⟨hwindow, hok⟩ := (legalAccess_iff hp).1 hlegal
  refine ⟨fun hoff => ?_, ?_, fun hoff => ?_⟩
  · rw [step_write hsched hwindow hok, writeValue_dropped (s := { s with schedule := rest }) hbusy hoff]
  · rintro rfl
    obtain rfl := legalAccess_status hlegal
    exact statusWriteClearsDropped s rest d hsched
  · rw [step_write hsched hwindow hok, writeValue_ignored (s := { s with schedule := rest }) hp hoff]

/-- Settles O57: a reserved offset reads 0, and none of these writes stores anything. -/
theorem reservedReadsZeroIgnoresWrites : Obligations.ReservedReadsZeroIgnoresWrites := by
  intro s rest d off n hp hlegal
  obtain ⟨hwindow, hok⟩ := (legalAccess_iff hp).1 hlegal
  constructor
  · intro hres hsched
    rw [step_read hsched hwindow hok]
    simp only [readValue, locate_of_reserved hp hres]
  · intro hoff hsched
    by_cases hstatus : off = 0x004 ∧ d.getLsbD 1 = false
    · obtain ⟨rfl, hbit⟩ := hstatus
      obtain rfl := legalAccess_status hlegal
      rw [statusWriteClearsDropped s rest d hsched, hbit]
      rfl
    · rw [step_write hsched hwindow hok, writeValue_ignored (s := { s with schedule := rest }) hp (by tauto)]

/-! ## Illegal accesses, and accesses outside the window -/

/-- An illegal access of the window is a BusError with its offset and width (R53). -/
theorem applyEvent_illegal {e : Event} {s : State} {off n : Nat} (he : AccessAt e s off n) (hoff : off < 0x3000)
    (hl : accessLegal s.params off n = false) : applyEvent e s = .fault (.busError off n) := by
  have hsel : selected s.params (s.params.base + off) = true := selected_base_add.2 hoff
  rcases he with rfl | ⟨v, rfl⟩
  · simp [applyEvent, hostRead, hsel, hl]
  · simp [applyEvent, hostWrite, hsel, hl]

/-- An access outside the window is none of the block's (R50, log entry 10). -/
theorem applyEvent_outside {e : Event} {s : State} {addr n : Nat} (he : e = .read addr n ∨ ∃ v, e = .write addr n v)
    (hout : selected s.params addr = false) : applyEvent e s = .next s := by
  rcases he with rfl | ⟨v, rfl⟩
  · simp [applyEvent, hostRead, hout]
  · simp [applyEvent, hostWrite, hout]

theorem selected_eq_false {p : Params} {addr : Nat} (h : addr < p.base ∨ p.base + 0x3000 ≤ addr) :
    selected p addr = false := by
  simp only [selected, Bool.and_eq_false_iff, decide_eq_false_iff_not]
  omega

/-- Settles O58: the step is the access, which the window's checks refuse or pass by. -/
theorem illegalAccessesAreBusErrors : Obligations.IllegalAccessesAreBusErrors := by
  intro s e rest hp hsched
  rw [step_of_cons hsched]
  constructor
  · intro off n he hoff hillegal
    have hl : accessLegal s.params off n = false := by
      rw [← Bool.not_eq_true]
      exact fun hl => hillegal ((legalAccess_iff hp).2 ⟨hoff, hl⟩)
    exact applyEvent_illegal (s := { s with schedule := rest }) he hoff hl
  · intro addr n he hout
    exact applyEvent_outside he (selected_eq_false hout)

/-! ## Accesses while a command is pending -/

/-- Settles O59: a read gives data only, and a write while busy changes at most DROPPED. -/
theorem pendingInputsCannotChange : Obligations.PendingInputsCannotChange := by
  intro s t e rest hbusy hsched hreset hcomplete hstep
  rw [step_of_cons hsched] at hstep
  cases e with
  | reset => exact absurd rfl hreset
  | complete => exact absurd rfl hcomplete
  | read addr n => rcases hostRead_eq_next hstep with rfl | ⟨v, rfl⟩ <;> rfl
  | write addr n d =>
    rcases hostWrite_eq_next hstep with rfl | ⟨off, -, -, rfl⟩
    · rfl
    · obtain ⟨b, hb⟩ := writeValue_busy (s := { s with schedule := rest }) hbusy off n d
      rw [hb]

end Sys2Proof.Machine
end

section
/-! PROOF. A completion keeps the inputs of its command; only an in-place SWAPBUF writes IBUF (20_memory.md R66). -/

namespace Sys2Proof.Machine

theorem Effect.ResOnly.inPlace_eq_none {e : Effect} (h : e.ResOnly) : e.inPlace = none := by
  obtain ⟨-, hin⟩ := h
  exact hin

theorem Effect.OutOnly.inPlace_eq_none {e : Effect} (h : e.OutOnly) : e.inPlace = none := by
  obtain ⟨-, hin, -⟩ := h
  exact hin

/-- A command that is no in-place SWAPBUF puts no bytes back to IBUF: it writes RES only, or an output only. -/
theorem inPlace_eq_none_of_commandOf {i : Instr} {s : State} {e : Effect} (he : commandOf i s = .ok e)
    (hi : ∀ w c, i ≠ .swapbuf w c true) : e.inPlace = none := by
  have hshape := commandOf_shape he
  cases i
  case crc16 | swap8 | swap16 | swap32 | swap64 | swapWide | wpswap | validate | qsize | xlate =>
    exact Effect.ResOnly.inPlace_eq_none hshape
  case swapbuf w c dst =>
    cases dst with
    | true => exact absurd rfl (hi w c)
    | false => exact Effect.OutOnly.inPlace_eq_none hshape
  all_goals exact Effect.OutOnly.inPlace_eq_none hshape

/-- Settles O45: both ends of a command write STATUS and the outputs only, and IBUF only where bytes are put back. -/
theorem commandsKeepTheirInputs : Obligations.CommandsKeepTheirInputs := by
  intro i s t h
  rw [exec_eq_finish] at h
  rcases finish_eq_next.1 h with ⟨e, he, rfl⟩ | ⟨e, -, rfl⟩
  · refine ⟨rfl, fun hi => ?_⟩
    rw [State.completeOk_ibuf, inPlace_eq_none_of_commandOf he hi, State.putIn_none_ibuf]
  · exact ⟨rfl, fun _ => rfl⟩

end Sys2Proof.Machine
end

section
/-! PROOF. Decode and encode are inverse to each other (30_encoding.md R80 to R89). -/

namespace Sys2Proof

/-! ## What decodes -/

/-- Fields that pass the four checks of R88 decode to the command built of them. -/
theorem decodeFields_of_checks {t : FcTable} {f : Fields} {sel : Selected} {c : Cond}
    (hsel : select t f.op f.fc = .ok sel) (hzero : f.unusedAreZero sel.usage = true) (hc : condOf f.cond = some c) :
    decodeFields t f = .ok (sel.build f c) := by
  simp only [decodeFields, hsel, hzero, hc, if_true]

theorem decode_packWord {t : FcTable} {op fc : Byte} {w : BitVec 3} {c : Cond} {wrap serial dst : Bool} {sel : Selected}
    (hsel : select t op fc = .ok sel)
    (hzero : Fields.unusedAreZero ⟨op, fc, w, 0, c.code, 0, wrap, serial, dst, 0⟩ sel.usage = true) :
    decode t (packWord op fc w c.code wrap serial dst) =
      .ok (sel.build ⟨op, fc, w, 0, c.code, 0, wrap, serial, dst, 0⟩ c) := by
  rw [decode, fieldsOf_packWord]
  exact decodeFields_of_checks hsel hzero (condOf_code c)

theorem select_encode_byte {t : FcTable} (ht : t.legal = true) (n : FcName) :
    select t 0x05 (t.byte n) = .ok (.encode n) := by
  simp [select, name?_byte ht]

theorem select_parse_byte {t : FcTable} (ht : t.legal = true) (n : FcName) :
    select t 0x09 (t.byte n) = .ok (.parse n) := by
  simp [select, name?_byte ht]

/-! ## Decode of encode -/

/-- W and COND are 0 where a command does not use them (R87). -/
def WidthCondFit (used : Bool) (w : BitVec 3) (c : Cond) : Prop :=
  used = false → w = 0 ∧ c = .always

theorem decode_encodeWord {t : FcTable} (ht : t.legal = true) {n : FcName} {w : BitVec 3} {c : Cond} (wrap : Bool)
    (hfit : WidthCondFit n.carriesWriteData w c) :
    decode t (encodeWord t n w c wrap) = .ok (buildEncode n w c wrap) := by
  refine decode_packWord (select_encode_byte ht n) ?_
  cases hused : n.carriesWriteData with
  | true => simp [Fields.unusedAreZero, Selected.usage, hused]
  | false =>
    obtain ⟨rfl, rfl⟩ := hfit hused
    simp [Fields.unusedAreZero, Selected.usage, Cond.code]

theorem decode_parseWord {t : FcTable} (ht : t.legal = true) {n : FcName} {w : BitVec 3} {c : Cond} (serial : Bool)
    (hfit : WidthCondFit n.returnsData w c) :
    decode t (parseWord t n w c serial) = .ok (buildParse n w c serial) := by
  refine decode_packWord (select_parse_byte ht n) ?_
  cases hused : n.returnsData with
  | true => simp [Fields.unusedAreZero, Selected.usage, hused]
  | false =>
    obtain ⟨rfl, rfl⟩ := hfit hused
    simp [Fields.unusedAreZero, Selected.usage, Cond.code]

/-- Every SWAP word, its width code in any of the five rows (41_byte_order.md R112 to R116). -/
theorem decode_swapWord (t : FcTable) (w : BitVec 3) (c : Cond) :
    decode t (packWord 0x02 0 w c.code false false false) = .ok (buildSwap w c) :=
  decode_packWord (sel := .swap) rfl rfl

theorem buildSwap_of_wide {w : BitVec 3} (hw : 4 ≤ w.toNat) (c : Cond) : buildSwap w c = .swapWide w c := by
  unfold buildSwap
  split
  case h_5 => rfl
  all_goals omega

/-- Settles O8: a command's word passes the checks of its operation, which builds the command back; the five SWAP
constructors are one operation, told apart by W. -/
theorem decodeOfEncodeIsTheCommand : Obligations.DecodeOfEncodeIsTheCommand := by
  intro t i ht hwf
  cases i
  case swap8 c => exact decode_swapWord t 0 c
  case swap16 c => exact decode_swapWord t 1 c
  case swap32 c => exact decode_swapWord t 2 c
  case swap64 c => exact decode_swapWord t 3 c
  case swapWide w c => exact (decode_swapWord t w c).trans (congrArg _ (buildSwap_of_wide (of_decide_eq_true hwf) c))
  case crc16 => exact decode_packWord (c := .always) (sel := .crc16) rfl rfl
  case wpswap w => exact decode_packWord (c := .always) (sel := .wpswap) rfl rfl
  case swapbuf w c dst => exact decode_packWord (sel := .swapbuf) rfl rfl
  case validate => exact decode_packWord (c := .always) (sel := .validate) rfl rfl
  case qsize w => exact decode_packWord (c := .always) (sel := .qsize) rfl rfl
  case xlate fc => exact decode_packWord (c := .always) (sel := .xlate) rfl rfl
  case encodeWMR | encodeRWMR => exact decode_encodeWord ht _ nofun
  case encodeRC | encodeRDI | encodeRHR | encodeRIR | encodeWSC | encodeWSR | encodeWMC | encodeRFR | encodeWFR |
      encodeMWR | encodeRFQ =>
    exact decode_encodeWord ht _ (fun _ => ⟨rfl, rfl⟩)
  case parseRC | parseRDI | parseRHR | parseRIR | parseRWMR => exact decode_parseWord ht _ nofun
  case parseWSC | parseWSR | parseWMC | parseWMR | parseRFR | parseWFR | parseMWR | parseRFQ =>
    exact decode_parseWord ht _ (fun _ => ⟨rfl, rfl⟩)

/-! ## Encode of decode -/

/-- The reserved bits of these fields, and every field the usage leaves out, are 0 (R87). -/
structure Fields.UnusedZero (f : Fields) (u : Usage) : Prop where
  r19 : f.r19 = 0
  r22 : f.r22 = 0
  r27 : f.r27 = 0
  fc : u.fc = false → f.fc = 0
  w : u.w = false → f.w = 0
  cond : u.cond = false → f.cond = 0
  wrap : u.wrap = false → f.wrap = false
  serial : u.serial = false → f.serial = false
  dst : u.dst = false → f.dst = false

theorem unusedAreZero_iff {f : Fields} {u : Usage} : f.unusedAreZero u = true ↔ f.UnusedZero u := by
  have or_iff : ∀ {a b : Bool} {p : Prop}, (b = true ↔ p) → ((a || b) = true ↔ (a = false → p)) := by
    intro a b p h
    cases a <;> simp [h]
  simp only [Fields.unusedAreZero, Bool.and_eq_true, beq_iff_eq, or_iff beq_iff_eq, or_iff (Bool.not_eq_true' _).to_iff]
  exact ⟨fun ⟨⟨⟨⟨⟨⟨⟨⟨h19, h22⟩, h27⟩, hfc⟩, hw⟩, hcond⟩, hwrap⟩, hserial⟩, hdst⟩ =>
      ⟨h19, h22, h27, hfc, hw, hcond, hwrap, hserial, hdst⟩,
    fun ⟨h19, h22, h27, hfc, hw, hcond, hwrap, hserial, hdst⟩ =>
      ⟨⟨⟨⟨⟨⟨⟨⟨h19, h22⟩, h27⟩, hfc⟩, hw⟩, hcond⟩, hwrap⟩, hserial⟩, hdst⟩⟩

theorem code_eq_zero {c : Cond} : c.code = 0 ↔ c = .always := by
  cases c <;> decide

/-- The five rows of SWAP write their width code back. -/
theorem encode_buildSwap (t : FcTable) (w : BitVec 3) (c : Cond) :
    encode t (buildSwap w c) = packWord 0x02 0 w c.code false false false := by
  have hw : ∀ {k}, w.toNat = k → w = BitVec.ofNat 3 k := by
    rintro k rfl
    simp
  unfold buildSwap
  split
  case h_5 => rfl
  all_goals
    rw [hw ‹_›]
    rfl

theorem encode_buildEncode (t : FcTable) {n : FcName} {w : BitVec 3} {c : Cond} (wrap : Bool)
    (hfit : WidthCondFit n.carriesWriteData w c) :
    encode t (buildEncode n w c wrap) = encodeWord t n w c wrap := by
  cases n
  case wmr | rwmr => rfl
  all_goals
    obtain ⟨rfl, rfl⟩ := hfit rfl
    rfl

theorem encode_buildParse (t : FcTable) {n : FcName} {w : BitVec 3} {c : Cond} (serial : Bool)
    (hfit : WidthCondFit n.returnsData w c) :
    encode t (buildParse n w c serial) = parseWord t n w c serial := by
  cases n
  case rc | rdi | rhr | rir | rwmr => rfl
  all_goals
    obtain ⟨rfl, rfl⟩ := hfit rfl
    rfl

/-- A command built of fields that passed the checks is encoded as those fields, packed (R80). -/
theorem encode_build {t : FcTable} {f : Fields} {sel : Selected} {c : Cond} (hsel : select t f.op f.fc = .ok sel)
    (hzero : f.UnusedZero sel.usage) (hc : c.code = f.cond) :
    encode t (sel.build f c) = packWord f.op f.fc f.w f.cond f.wrap f.serial f.dst := by
  obtain ⟨-, -, -, hfc, hw, hcond, hwrap, hserial, hdst⟩ := hzero
  have hfit : ∀ {used : Bool}, (used = false → f.w = 0) → (used = false → f.cond = 0) → WidthCondFit used f.w c :=
    fun hw hcond hused => ⟨hw hused, code_eq_zero.1 (hc.trans (hcond hused))⟩
  rcases select_cases hsel with ⟨rfl, hop⟩ | ⟨rfl, hop⟩ | ⟨rfl, hop⟩ | ⟨rfl, hop⟩ | ⟨n, rfl, hop, hn⟩ | ⟨rfl, hop⟩ |
    ⟨rfl, hop⟩ | ⟨rfl, hop⟩ | ⟨n, rfl, hop, hn⟩
  · rw [hop, hfc rfl, hw rfl, hcond rfl, hwrap rfl, hserial rfl, hdst rfl]; rfl
  · rw [hop, hfc rfl, ← hc, hwrap rfl, hserial rfl, hdst rfl]; exact encode_buildSwap t f.w c
  · rw [hop, hfc rfl, hcond rfl, hwrap rfl, hserial rfl, hdst rfl]; rfl
  · rw [hop, hfc rfl, ← hc, hwrap rfl, hserial rfl]; rfl
  · rw [hop, ← hn, ← hc, hserial rfl, hdst rfl]; exact encode_buildEncode t f.wrap (hfit hw hcond)
  · rw [hop, hfc rfl, hw rfl, hcond rfl, hwrap rfl, hserial rfl, hdst rfl]; rfl
  · rw [hop, hfc rfl, hcond rfl, hwrap rfl, hserial rfl, hdst rfl]; rfl
  · rw [hop, hw rfl, hcond rfl, hwrap rfl, hserial rfl, hdst rfl]; rfl
  · rw [hop, ← hn, ← hc, hwrap rfl, hdst rfl]; exact encode_buildParse t f.serial (hfit hw hcond)

theorem buildSwap_wf (w : BitVec 3) (c : Cond) : (buildSwap w c).wf = true := by
  unfold buildSwap
  split
  case h_5 =>
    simp only [imp_false] at *
    exact decide_eq_true (show 4 ≤ w.toNat by omega)
  all_goals rfl

theorem build_wf (sel : Selected) (f : Fields) (c : Cond) : (sel.build f c).wf = true := by
  cases sel
  case swap => exact buildSwap_wf f.w c
  case encode n => cases n <;> rfl
  case parse n => cases n <;> rfl
  all_goals rfl

/-- Settles O9: the command of a word that passed the checks is encoded as the word's own fields. -/
theorem encodeOfDecodeIsTheWord : Obligations.EncodeOfDecodeIsTheWord := by
  intro t v i h
  obtain ⟨sel, c, hsel, hzero, hc, rfl⟩ := decode_eq_ok h
  have hz := unusedAreZero_iff.1 hzero
  exact ⟨(encode_build hsel hz hc).trans (packWord_fieldsOf hz.r19 hz.r22 hz.r27), build_wf sel _ c⟩

end Sys2Proof
end

section
/-! PROOF. The checks of 30_encoding.md R88 in their order, on the numbers in a word's fields, and the words written out
from the spec. -/

namespace Sys2Proof

open Claims

/-! ## The fields of a word as numbers (R80) -/

theorem extractLsb'_toNat_eq_div (v : Word) (start len : Nat) :
    (v.extractLsb' start len).toNat = v.toNat / 2 ^ start % 2 ^ len := by
  rw [BitVec.extractLsb'_toNat, Nat.shiftRight_eq_div_pow]

theorem extractLsb'_eq_zero_iff (v : Word) (start len : Nat) :
    v.extractLsb' start len = 0 ↔ v.toNat / 2 ^ start % 2 ^ len = 0 := by
  rw [← extractLsb'_toNat_eq_div]
  exact BitVec.toNat_eq

theorem getLsbD_eq_false_iff (v : Word) (k : Nat) : v.getLsbD k = false ↔ v.toNat / 2 ^ k % 2 ≠ 1 := by
  rw [← BitVec.testBit_toNat, Nat.testBit_eq_decide_div_mod_eq, decide_eq_false_iff_not]

theorem fieldsOf_op_toNat (v : Word) : (fieldsOf v).op.toNat = v.toNat % 2 ^ 8 :=
  BitVec.extractLsb'_toNat 0 8 v

theorem fieldsOf_fc_toNat (v : Word) : (fieldsOf v).fc.toNat = v.toNat / 2 ^ 8 % 2 ^ 8 :=
  extractLsb'_toNat_eq_div v 8 8

theorem fieldsOf_cond_toNat (v : Word) : (fieldsOf v).cond.toNat = v.toNat / 2 ^ 20 % 2 ^ 2 :=
  extractLsb'_toNat_eq_div v 20 2

/-! ## The first two checks -/

/-- The refusal in a decoder's answer. -/
def refusalIn {α : Type} : Except DecodeError α → Option DecodeError
  | .ok _ => none
  | .error e => some e

/-- The bytes the default table does not recognise (R82). -/
theorem name?_default_eq_none_iff {fc : Byte} : FcTable.default.name? fc = none ↔
    fc.toNat ∉ [0x01, 0x02, 0x03, 0x04, 0x05, 0x06, 0x0F, 0x10, 0x14, 0x15, 0x16, 0x17, 0x18] := by
  revert fc
  decide

/-- The first two checks on numbers (R81, R82). -/
theorem refusalIn_select (op fc : Byte) :
    refusalIn (select FcTable.default op fc) =
      if op.toNat = 0 ∨ 9 < op.toNat then some .unknownOp
      else if (op.toNat = 5 ∨ op.toNat = 9) ∧
          fc.toNat ∉ [0x01, 0x02, 0x03, 0x04, 0x05, 0x06, 0x0F, 0x10, 0x14, 0x15, 0x16, 0x17, 0x18] then some .unknownFc
      else none := by
  simp only [← name?_default_eq_none_iff]
  unfold select
  split
  case h_5 hop | h_9 hop => cases hn : FcTable.default.name? fc <;> simp [refusalIn, hop]
  case h_10 =>
    simp only [imp_false] at *
    exact (if_pos (by omega)).symm
  all_goals
    rename_i hop
    simp [refusalIn, hop]

/-- The table of R87 by the numbers of OP and FC. -/
theorem usage_of_select {op fc : Byte} {sel : Selected} (hsel : select FcTable.default op fc = .ok sel) :
    sel.usage = {
      fc := decide (op.toNat ∈ [5, 8, 9])
      w := usesCond op.toNat fc.toNat || decide (op.toNat ∈ [3, 7])
      cond := usesCond op.toNat fc.toNat
      wrap := decide (op.toNat = 5)
      serial := decide (op.toNat = 9)
      dst := decide (op.toNat = 4) } := by
  rcases select_cases hsel with ⟨rfl, rfl⟩ | ⟨rfl, rfl⟩ | ⟨rfl, rfl⟩ | ⟨rfl, rfl⟩ | ⟨n, rfl, rfl, rfl⟩ | ⟨rfl, rfl⟩ |
    ⟨rfl, rfl⟩ | ⟨rfl, rfl⟩ | ⟨n, rfl, rfl, rfl⟩
  case inr.inr.inr.inr.inl => cases n <;> rfl
  case inr.inr.inr.inr.inr.inr.inr.inr => cases n <;> rfl
  all_goals rfl

/-! ## The last two checks -/

/-- The third check on numbers (R80, R88). -/
theorem unusedZero_fieldsOf_iff {v : Word} {u : Usage} :
    (fieldsOf v).UnusedZero u ↔
      v.toNat / 2 ^ 19 % 2 = 0 ∧ v.toNat / 2 ^ 22 % 2 ^ 2 = 0 ∧ v.toNat / 2 ^ 27 = 0 ∧
      (u.fc = false → v.toNat / 2 ^ 8 % 2 ^ 8 = 0) ∧ (u.w = false → v.toNat / 2 ^ 16 % 2 ^ 3 = 0) ∧
      (u.cond = false → v.toNat / 2 ^ 20 % 2 ^ 2 = 0) ∧ (u.wrap = false → v.toNat / 2 ^ 24 % 2 ≠ 1) ∧
      (u.serial = false → v.toNat / 2 ^ 25 % 2 ≠ 1) ∧ (u.dst = false → v.toNat / 2 ^ 26 % 2 ≠ 1) := by
  have h27 : v.toNat / 2 ^ 27 % 2 ^ 5 = v.toNat / 2 ^ 27 := Nat.mod_eq_of_lt (by have := v.isLt; omega)
  rw [← h27]
  simp only [← getLsbD_eq_false_iff, ← extractLsb'_eq_zero_iff]
  exact ⟨fun ⟨h19, h22, h27, hfc, hw, hcond, hwrap, hserial, hdst⟩ =>
      ⟨(extractLsb'_eq_zero_iff v 19 1).1 h19, h22, h27, hfc, hw, hcond, hwrap, hserial, hdst⟩,
    fun ⟨h19, h22, h27, hfc, hw, hcond, hwrap, hserial, hdst⟩ =>
      ⟨(extractLsb'_eq_zero_iff v 19 1).2 h19, h22, h27, hfc, hw, hcond, hwrap, hserial, hdst⟩⟩

/-- The third check fails: a reserved bit is set, or a field that OP and FC leave unused is not 0 (R87). -/
theorem not_unusedZero_iff {v : Word} {sel : Selected} {op fc : Nat} (hop : (fieldsOf v).op.toNat = op)
    (hfc : (fieldsOf v).fc.toNat = fc) (hsel : select FcTable.default (fieldsOf v).op (fieldsOf v).fc = .ok sel) :
    ¬(fieldsOf v).UnusedZero sel.usage ↔
      (v.toNat / 2 ^ 19 % 2 ≠ 0 ∨ v.toNat / 2 ^ 22 % 2 ^ 2 ≠ 0 ∨ v.toNat / 2 ^ 27 ≠ 0) ∨ (fc ≠ 0 ∧ op ∉ [5, 8, 9]) ∨
      (v.toNat / 2 ^ 16 % 2 ^ 3 ≠ 0 ∧ usesCond op fc = false ∧ op ∉ [3, 7]) ∨
      (v.toNat / 2 ^ 20 % 2 ^ 2 ≠ 0 ∧ usesCond op fc = false) ∨ (v.toNat / 2 ^ 24 % 2 = 1 ∧ op ≠ 5) ∨
      (v.toNat / 2 ^ 25 % 2 = 1 ∧ op ≠ 9) ∨ (v.toNat / 2 ^ 26 % 2 = 1 ∧ op ≠ 4) := by
  rw [unusedZero_fieldsOf_iff, usage_of_select hsel, hop, hfc, ← fieldsOf_fc_toNat, hfc]
  simp only [Bool.or_eq_false_iff, decide_eq_false_iff_not, not_and_or, Classical.not_imp, not_not, ne_eq, or_assoc]
  simp only [and_comm, and_left_comm]

theorem condOf_eq_none_iff {b : BitVec 2} : condOf b = none ↔ b.toNat = 3 := by
  revert b
  decide

/-- The fourth check on numbers: where COND is unused it is 0 by the third (R85, R87). -/
theorem condOf_eq_none_iff_of_unusedZero {v : Word} {sel : Selected} {op fc : Nat} (hop : (fieldsOf v).op.toNat = op)
    (hfc : (fieldsOf v).fc.toNat = fc) (hsel : select FcTable.default (fieldsOf v).op (fieldsOf v).fc = .ok sel)
    (hzero : (fieldsOf v).UnusedZero sel.usage) :
    condOf (fieldsOf v).cond = none ↔ usesCond op fc = true ∧ v.toNat / 2 ^ 20 % 2 ^ 2 = 3 := by
  rw [condOf_eq_none_iff, ← fieldsOf_cond_toNat]
  refine ⟨fun h3 => ⟨?_, h3⟩, And.right⟩
  by_contra hunused
  have hcond : sel.usage.cond = false := by
    rw [usage_of_select hsel, hop, hfc]
    exact Bool.eq_false_iff.2 hunused
  rw [hzero.cond hcond] at h3
  exact absurd h3 (by decide)

/-- What decode refuses of a word whose OP and FC select an operation. -/
theorem refusalIn_decode_of_select {t : FcTable} {v : Word} {sel : Selected}
    (hsel : select t (fieldsOf v).op (fieldsOf v).fc = .ok sel) :
    refusalIn (decode t v) =
      if (fieldsOf v).unusedAreZero sel.usage then
        if condOf (fieldsOf v).cond = none then some .badCond else none
      else some .reservedField := by
  simp only [decode, decodeFields, hsel]
  split
  · cases condOf (fieldsOf v).cond <;> rfl
  · rfl

/-- Settles O11: OP and FC select an operation or are refused; its usage then fixes the last two checks. -/
theorem decodeChecksInOrder : Obligations.DecodeChecksInOrder := by
  intro v
  suffices h : refusalIn (decode FcTable.default v) = refusalOf v by
    cases hd : decode FcTable.default v <;> rw [← h, hd] <;> rfl
  have hsel := refusalIn_select (fieldsOf v).op (fieldsOf v).fc
  rw [fieldsOf_op_toNat, fieldsOf_fc_toNat] at hsel
  cases hs : select FcTable.default (fieldsOf v).op (fieldsOf v).fc with
  | error e =>
    rw [hs] at hsel
    simp only [decode, decodeFields, hs, refusalIn, refusalOf] at hsel ⊢
    split_ifs at hsel ⊢ <;> exact hsel
  | ok sel =>
    rw [hs] at hsel
    split_ifs at hsel with hunknownOp hunknownFc
    · cases hsel
    · cases hsel
    · have hreserved := not_unusedZero_iff (fieldsOf_op_toNat v) (fieldsOf_fc_toNat v) hs
      rw [refusalIn_decode_of_select hs, refusalOf, if_neg hunknownOp, if_neg hunknownFc]
      by_cases hz : (fieldsOf v).UnusedZero sel.usage
      · rw [if_pos (unusedAreZero_iff.2 hz), if_neg (fun h => hreserved.2 h hz)]
        simp only [condOf_eq_none_iff_of_unusedZero (fieldsOf_op_toNat v) (fieldsOf_fc_toNat v) hs hz]
      · rw [if_neg (fun h => hz (unusedAreZero_iff.1 h)), if_pos (hreserved.1 hz)]

/-- Settles O12: the decoder computes on each of the words. -/
theorem specWordsDecode : Obligations.SpecWordsDecode := by
  unfold Obligations.SpecWordsDecode
  decide

end Sys2Proof
end

section
/-! PROOF. Every word names exactly the row of its command in the opcode table, or none (30_encoding.md R89). -/

namespace Sys2Proof

/-! ## A row's mask, field by field -/

/-- The bits of each field that a mask keeps. -/
def Fields.and (f m : Fields) : Fields where
  op := f.op &&& m.op
  fc := f.fc &&& m.fc
  w := f.w &&& m.w
  r19 := f.r19 &&& m.r19
  cond := f.cond &&& m.cond
  r22 := f.r22 &&& m.r22
  wrap := f.wrap && m.wrap
  serial := f.serial && m.serial
  dst := f.dst && m.dst
  r27 := f.r27 &&& m.r27

theorem fieldsOf_and (v m : Word) : fieldsOf (v &&& m) = (fieldsOf v).and (fieldsOf m) := by
  simp only [fieldsOf, Fields.and, BitVec.extractLsb'_and, BitVec.getLsbD_and]

theorem and_eq_of_names {r : Row} {v : Word} (h : r.names v = true) :
    (fieldsOf v).and (fieldsOf r.mask) = fieldsOf r.pattern := by
  simp only [Row.names, Bool.and_eq_true, beq_iff_eq] at h
  obtain ⟨⟨hmask, -⟩, -⟩ := h
  rw [← fieldsOf_and, hmask]

/-- What a field of a word is where the row's mask covers the field. -/
theorem eq_of_and_eq {n : Nat} {x m p : BitVec n} (h : x &&& m = p) (hm : m = BitVec.allOnes n) : x = p := by
  rw [← h, hm, BitVec.and_allOnes]

theorem eq_of_bool_and_eq {x m p : Bool} (h : (x && m) = p) (hm : m = true) : x = p := by
  rw [← h, hm, Bool.and_true]

/-! ## What is checked of each row -/

/-- A mnemonic depends on the operation and, for SWAP, on W (41_byte_order.md R112 to R116). -/
def Selected.mnemonicAt (sel : Selected) (w : BitVec 3) : String :=
  (sel.build ⟨0, 0, w, 0, 0, 0, false, false, false, 0⟩ .always).mnemonic

theorem build_mnemonic (sel : Selected) (f : Fields) (c : Cond) : (sel.build f c).mnemonic = sel.mnemonicAt f.w := by
  cases sel
  case swap =>
    simp only [Selected.mnemonicAt, Selected.build, buildSwap]
    split <;> rfl
  case encode n => cases n <;> rfl
  case parse n => cases n <;> rfl
  all_goals rfl

/-- The operations, with each function code name where they need one (R81, R82). -/
def Selected.all : List Selected :=
  [.crc16, .swap, .wpswap, .swapbuf, .validate, .qsize, .xlate] ++ FcName.all.map .encode ++ FcName.all.map .parse

/-- The row's mask covers OP, FC but for XLATE, the reserved bits and every field that the operation does not use, and
its match is 0 in the unused ones (R87, R89). -/
abbrev Row.Pins (r : Row) (sel : Selected) : Prop :=
  let m := fieldsOf r.mask
  (fieldsOf r.pattern).unusedAreZero sel.usage = true ∧ m.op = 0xFF ∧ (m.fc = 0xFF ∨ sel = .xlate) ∧
  m.r19 = 1 ∧ m.r22 = 3 ∧ m.r27 = 31 ∧ (sel.usage.w = false → m.w = 7) ∧ (sel.usage.cond = false → m.cond = 3) ∧
  (sel.usage.wrap = false → m.wrap = true) ∧ (sel.usage.serial = false → m.serial = true) ∧
  (sel.usage.dst = false → m.dst = true)

/-- The row names words with this value of W. -/
abbrev Row.AdmitsW (r : Row) (w : BitVec 3) : Prop :=
  w &&& (fieldsOf r.mask).w = (fieldsOf r.pattern).w ∧ (r.ws.isEmpty || r.ws.contains w) = true

/-- The row names words with this value of COND. -/
abbrev Row.AdmitsCond (r : Row) (b : BitVec 2) : Prop :=
  b &&& (fieldsOf r.mask).cond = (fieldsOf r.pattern).cond ∧ (r.conds.isEmpty || r.conds.contains b) = true

/-- Each row stands for one operation, admits no COND of 3, and only such W as give its mnemonic. -/
theorem opcodeTable_sound : ∀ r ∈ opcodeTable, ∃ sel ∈ Selected.all,
    select FcTable.default (fieldsOf r.pattern).op (fieldsOf r.pattern).fc = .ok sel ∧ r.Pins sel ∧
    (∀ b, r.AdmitsCond b → condOf b ≠ none) ∧ ∀ w, r.AdmitsW w → sel.mnemonicAt w = r.mnemonic := by
  decide +kernel

/-! ## A word that names a row -/

theorem unusedZero_of_pins {r : Row} {sel : Selected} {f : Fields} (hpins : r.Pins sel)
    (hand : f.and (fieldsOf r.mask) = fieldsOf r.pattern) : f.UnusedZero sel.usage := by
  obtain ⟨hzero, -, hfc, h19, h22, h27, hw, hcond, hwrap, hserial, hdst⟩ := hpins
  have hz := unusedAreZero_iff.1 hzero
  exact {
    r19 := (eq_of_and_eq (congrArg Fields.r19 hand) h19).trans hz.r19
    r22 := (eq_of_and_eq (congrArg Fields.r22 hand) h22).trans hz.r22
    r27 := (eq_of_and_eq (congrArg Fields.r27 hand) h27).trans hz.r27
    fc := fun hu =>
      have hne : sel ≠ .xlate := by
        rintro rfl
        cases hu
      (eq_of_and_eq (congrArg Fields.fc hand) (hfc.resolve_right hne)).trans (hz.fc hu)
    w := fun hu => (eq_of_and_eq (congrArg Fields.w hand) (hw hu)).trans (hz.w hu)
    cond := fun hu => (eq_of_and_eq (congrArg Fields.cond hand) (hcond hu)).trans (hz.cond hu)
    wrap := fun hu => (eq_of_bool_and_eq (congrArg Fields.wrap hand) (hwrap hu)).trans (hz.wrap hu)
    serial := fun hu => (eq_of_bool_and_eq (congrArg Fields.serial hand) (hserial hu)).trans (hz.serial hu)
    dst := fun hu => (eq_of_bool_and_eq (congrArg Fields.dst hand) (hdst hu)).trans (hz.dst hu) }

theorem select_of_pins {r : Row} {sel : Selected} {f : Fields} (hpins : r.Pins sel)
    (hsel : select FcTable.default (fieldsOf r.pattern).op (fieldsOf r.pattern).fc = .ok sel)
    (hand : f.and (fieldsOf r.mask) = fieldsOf r.pattern) : select FcTable.default f.op f.fc = .ok sel := by
  obtain ⟨-, hop, hfc, -⟩ := hpins
  rw [eq_of_and_eq (congrArg Fields.op hand) hop]
  rcases hfc with hfc | rfl
  · rw [eq_of_and_eq (congrArg Fields.fc hand) hfc]
    exact hsel
  · have hxlate : (fieldsOf r.pattern).op = 8 := by
      simpa using select_cases hsel
    rw [hxlate]
    rfl

/-- A word that names a row decodes, to a command with the row's mnemonic. -/
theorem decode_of_names {r : Row} {v : Word} (hr : r ∈ opcodeTable) (h : r.names v = true) :
    ∃ i, decode FcTable.default v = .ok i ∧ i.mnemonic = r.mnemonic := by
  have hand := and_eq_of_names h
  obtain ⟨sel, -, hsel, hpins, hcond, hw⟩ := opcodeTable_sound r hr
  simp only [Row.names, Bool.and_eq_true] at h
  obtain ⟨⟨-, hws⟩, hconds⟩ := h
  obtain ⟨c, hc⟩ := Option.ne_none_iff_exists'.1 (hcond _ ⟨congrArg Fields.cond hand, hconds⟩)
  exact ⟨_, decodeFields_of_checks (select_of_pins hpins hsel hand)
      (unusedAreZero_iff.2 (unusedZero_of_pins hpins hand)) hc,
    (build_mnemonic sel _ c).trans (hw _ ⟨congrArg Fields.w hand, hws⟩)⟩

open Laws.OpcodeRow in
/-- The word of every well-formed command names a row with its mnemonic. -/
theorem encode_names_row : ∀ i : Instr, Laws.OpcodeRow.Statement i
  | .crc16 => crc16
  | .swap8 cond => swap8 cond
  | .swap16 cond => swap16 cond
  | .swap32 cond => swap32 cond
  | .swap64 cond => swap64 cond
  | .swapWide w cond => swapWide w cond
  | .wpswap w => wpswap w
  | .swapbuf w cond dst => swapbuf w cond dst
  | .encodeRC wrap => encodeRC wrap
  | .encodeRDI wrap => encodeRDI wrap
  | .encodeRHR wrap => encodeRHR wrap
  | .encodeRIR wrap => encodeRIR wrap
  | .encodeWSC wrap => encodeWSC wrap
  | .encodeWSR wrap => encodeWSR wrap
  | .encodeWMC wrap => encodeWMC wrap
  | .encodeWMR w cond wrap => encodeWMR w cond wrap
  | .encodeRFR wrap => encodeRFR wrap
  | .encodeWFR wrap => encodeWFR wrap
  | .encodeMWR wrap => encodeMWR wrap
  | .encodeRWMR w cond wrap => encodeRWMR w cond wrap
  | .encodeRFQ wrap => encodeRFQ wrap
  | .validate => validate
  | .qsize w => qsize w
  | .xlate fc => xlate fc
  | .parseRC w cond serial => parseRC w cond serial
  | .parseRDI w cond serial => parseRDI w cond serial
  | .parseRHR w cond serial => parseRHR w cond serial
  | .parseRIR w cond serial => parseRIR w cond serial
  | .parseWSC serial => parseWSC serial
  | .parseWSR serial => parseWSR serial
  | .parseWMC serial => parseWMC serial
  | .parseWMR serial => parseWMR serial
  | .parseRFR serial => parseRFR serial
  | .parseWFR serial => parseWFR serial
  | .parseMWR serial => parseMWR serial
  | .parseRWMR w cond serial => parseRWMR w cond serial
  | .parseRFQ serial => parseRFQ serial

/-! ## Exactly one row -/

/-- The mnemonics of the rows that a word names. -/
def namedMnemonics (v : Word) : List String :=
  (opcodeTable.filter (fun r => r.names v)).map (fun r => r.mnemonic)

theorem mem_namedMnemonics {v : Word} {m : String} :
    m ∈ namedMnemonics v ↔ ∃ r ∈ opcodeTable, r.names v = true ∧ r.mnemonic = m := by
  simp only [namedMnemonics, List.mem_map, List.mem_filter, and_assoc]

/-- No two rows have one mnemonic. -/
theorem namedMnemonics_nodup (v : Word) : (namedMnemonics v).Nodup := by
  have hall : (opcodeTable.map (fun r => r.mnemonic)).Nodup := by decide
  exact hall.sublist (List.filter_sublist.map _)

/-- The rows a word names carry the mnemonic of the command it decodes to, and no other. -/
theorem mem_namedMnemonics_iff {v : Word} {m : String} :
    m ∈ namedMnemonics v ↔ ∃ i, decode FcTable.default v = .ok i ∧ i.mnemonic = m := by
  rw [mem_namedMnemonics]
  constructor
  · rintro ⟨r, hr, hnames, rfl⟩
    exact decode_of_names hr hnames
  · rintro ⟨i, hd, rfl⟩
    obtain ⟨rfl, hwf⟩ := encodeOfDecodeIsTheWord _ v i hd
    obtain ⟨r, hr, hm, hnames⟩ := encode_names_row i hwf
    exact ⟨r, hr, hnames, hm⟩

/-- Settles O10: the rows named carry the decoded command's mnemonic only, and mnemonics do not repeat. -/
theorem everyWordNamesItsRowOrNone : Obligations.EveryWordNamesItsRowOrNone := by
  intro v
  change namedMnemonics v = _
  cases hd : decode FcTable.default v with
  | error e =>
    refine List.eq_nil_iff_forall_not_mem.2 fun m hm => ?_
    obtain ⟨i, hi, -⟩ := mem_namedMnemonics_iff.1 hm
    rw [hd] at hi
    cases hi
  | ok i =>
    refine ((List.perm_ext_iff_of_nodup (namedMnemonics_nodup v) (List.nodup_singleton _)).2 fun m => ?_).eq_singleton
    rw [mem_namedMnemonics_iff, hd]
    simp [eq_comm]

end Sys2Proof
end

section
/-! PROOF. A pending word that is no command (30_encoding.md R88; 60_exceptions.md R247). -/

namespace Sys2Proof.Machine

/-- Settles O4: the turn of a busy block is its completion, and a refusal of the decoder is raised as CommandError. -/
theorem stepRaisesCommandErrorOnOtherWords : Obligations.StepRaisesCommandErrorOnOtherWords := by
  intro s e rest hbusy hturn hdec
  have hstep : step s = .next ({ s with schedule := rest }.raiseOutcome (.command e)) := calc
    step s = engineStep { s with schedule := rest } := step_of_turn hturn
    _ = completePending { s with schedule := rest } := engineStep_of_busy hbusy
    _ = .next ({ s with schedule := rest }.raiseOutcome (.command e)) :=
      completePending_of_error (s := { s with schedule := rest }) hdec
  cases e <;> exact hstep

end Sys2Proof.Machine
end

section
/-! PROOF. The checksum on numbers, its residue, the byte changes it tells apart, and the command CRC16 (40_checksum.md
R100 to R102). -/

namespace Sys2Proof.Machine

open Sys2Proof.Claims

/-! ## The rounds on numbers -/

theorem crcRounds_toNat (x : BitVec 16) : (crcRounds x).toNat = roundsNat 8 x.toNat := by
  have hround (y : BitVec 16) : (crcRound y).toNat = roundNat y.toNat := crcRound_toNat y
  simp only [crcRounds, hround, roundsNat]

/-- A byte widened to the accumulator keeps its value, so its XOR is that of the numbers (R100). -/
theorem crcByte_toNat (acc : BitVec 16) (b : Byte) :
    (crcByte acc b).toNat = roundsNat 8 (acc.toNat ^^^ b.toNat) := by
  have hb : b.toNat < 2 ^ 16 := b.isLt.trans (by decide)
  rw [crcByte_eq, crcRounds_toNat, BitVec.toNat_xor, BitVec.toNat_setWidth, Nat.mod_eq_of_lt hb]

/-- Settles O13: toNat carries each byte step to the numbers' step, so it carries the fold. -/
theorem crcFollowsTheRounds : Obligations.CrcFollowsTheRounds := by
  intro f
  exact (List.foldl_hom BitVec.toNat fun acc b => (crcByte_toNat acc b).symm).symm

/-! ## The residue, and changes of one byte -/

/-- Settles O14: the fold goes on from the checksum over its own two bytes, which bring it to 0. -/
theorem crcResidueIsZero : Obligations.CrcResidueIsZero := by
  intro f
  have htrailer : loHi (crc16 f).toNat = le16 (crc16 f) := (le16_eq _).symm
  rw [htrailer, crc16_append, crc_trailer]

/-- Settles O15: the byte step separates the bytes, and the fold over the suffix is injective in the accumulator. -/
theorem crcSeparatesOneByteChanges : Obligations.CrcSeparatesOneByteChanges := by
  intro p q a b hab h
  rw [crc16_append, crc16_append, List.foldl_cons, List.foldl_cons] at h
  exact hab (crcByte_injective_byte (crcFold_injective h))

/-! ## The command -/

/-- A command that reads its input gets the bytes InputIs names: none below LEN is UNINIT (10_state.md R35). -/
theorem readIbuf_of_inputIs {s : State} {f : List Byte} (h : InputIs s f) : readIbuf s = .ok f := by
  obtain ⟨hlen, -, hbytes⟩ := h
  exact readIbuf_eq_ok.2 ⟨hlen.symm, fun j hj => hbytes j (hlen ▸ hj)⟩

theorem checkLenRange_of_inputIs {s : State} {f : List Byte} (h : InputIs s f) : checkLenRange s = .ok () := by
  obtain ⟨hlen, hfits, -⟩ := h
  exact checkLenRange_of_le (hlen.trans_le hfits)

/-- A command whose pseudocode gives a result completes OK with it in RES (10_state.md R28). -/
theorem resultIs_of_commandOf {i : Instr} {s : State} {v : DWord} (h : commandOf i s = .ok { res := some v }) :
    ResultIs i s v := by
  rw [ResultIs, exec_eq_finish, h]
  rfl

/-- A command whose pseudocode raises ValidationError changes nothing but STATUS (60_exceptions.md R242, R248). -/
theorem raises_of_commandOf {i : Instr} {s : State} {d : ValidationDetail}
    (h : commandOf i s = raise (.validation d)) : Raises i s 1 d.code := by
  rw [Raises, exec_eq_finish, h]
  rfl

theorem crc16Command_of_inputIs {s : State} {f : List Byte} (h : InputIs s f) :
    crc16Command s = .ok { res := some ((crc16 f).setWidth 64) } := by
  simp only [crc16Command, checkLenRange_of_inputIs h, readIbuf_of_inputIs h, ok_bind, pure_eq_ok]

theorem crc16Command_of_gt {s : State} (h : s.params.ibufBytes < s.len.toNat) :
    crc16Command s = raise (.validation .lenRange) := by
  rw [crc16Command, checkLenRange_of_gt h, raise_bind]

/-- Settles O16: the range check passes and the input is read, or the check ends the command. -/
theorem crc16WritesTheChecksum : Obligations.Crc16WritesTheChecksum := by
  intro s
  constructor
  · intro f hinput
    rw [BitVec.ofNat_toNat]
    exact resultIs_of_commandOf (crc16Command_of_inputIs hinput)
  · intro hlen
    exact raises_of_commandOf (i := .crc16) (crc16Command_of_gt hlen)

end Sys2Proof.Machine
end

section
/-! PROOF. Byte order on values and on byte sequences: the swaps by their bytes, eswap by its indexes, and that each
undoes itself (41_byte_order.md R110, R117, R119, R121). -/

namespace Sys2Proof.Machine

/-! ## The bytes of a value -/

/-- A value is its bytes: two values whose bytes below their width agree are equal. -/
theorem eq_of_byteOf_eq {n k : Nat} {v w : BitVec n} (hn : n = 8 * k) (h : ∀ i, i < k → byteOf v i = byteOf w i) :
    v = w := by
  apply BitVec.eq_of_getLsbD_eq
  intro j hj
  have hbyte : (byteOf v (j / 8)).getLsbD (j % 8) = (byteOf w (j / 8)).getLsbD (j % 8) := by rw [h (j / 8) (by omega)]
  have hbit : j % 8 < 8 := Nat.mod_lt j (by decide)
  simpa only [byteOf, BitVec.getLsbD_extractLsb', hbit, decide_true, Bool.true_and, Nat.div_add_mod] using hbyte

/-- The byte an append puts last is byte 0. -/
theorem byteOf_append_zero {n : Nat} (v : BitVec n) (b : Byte) : byteOf (v ++ b) 0 = b := by
  apply BitVec.eq_of_getLsbD_eq
  intro j hj
  simp [byteOf, BitVec.getLsbD_append, hj]

/-- The bytes above it are those of the value it is appended to. -/
theorem byteOf_append_succ {n : Nat} (v : BitVec n) (b : Byte) (i : Nat) : byteOf (v ++ b) (i + 1) = byteOf v i := by
  apply BitVec.eq_of_getLsbD_eq
  intro j hj
  have hge : ¬ 8 * (i + 1) + j < 8 := by omega
  have hsub : 8 * (i + 1) + j - 8 = 8 * i + j := by omega
  simp [byteOf, BitVec.getLsbD_append, hj, hge, hsub]

theorem byteOf_byte (b : Byte) : byteOf b 0 = b := by
  simp [byteOf]

/-! ## The swaps by their bytes -/

theorem byteOf_swap2 (v : BitVec 16) {i : Nat} (hi : i < 2) : byteOf (swap2 v) i = byteOf v (1 - i) := by
  interval_cases i <;> simp [swap2, byteOf_append_zero, byteOf_append_succ, byteOf_byte]

theorem byteOf_swap4 (v : BitVec 32) {i : Nat} (hi : i < 4) : byteOf (swap4 v) i = byteOf v (3 - i) := by
  interval_cases i <;> simp [swap4, byteOf_append_zero, byteOf_append_succ, byteOf_byte]

theorem byteOf_swap8 (v : BitVec 64) {i : Nat} (hi : i < 8) : byteOf (swap8 v) i = byteOf v (7 - i) := by
  interval_cases i <;> simp [swap8, byteOf_append_zero, byteOf_append_succ, byteOf_byte]

/-- The halves change places, so byte i is the byte two places away (R117). -/
theorem byteOf_wpswap (v : BitVec 32) {i : Nat} (hi : i < 4) : byteOf (wpswap v) i = byteOf v ((i + 2) % 4) := by
  apply BitVec.eq_of_getLsbD_eq
  intro j hj
  simp only [byteOf, wpswap, BitVec.getLsbD_extractLsb', BitVec.getLsbD_append]
  by_cases hlow : i < 2
  · have hhalf : 8 * i + j < 16 := by omega
    have hplace : 16 + (8 * i + j) = 8 * ((i + 2) % 4) + j := by omega
    simp [hhalf, hplace]
  · have hhalf : ¬ 8 * i + j < 16 := by omega
    have hfits : 8 * ((i + 2) % 4) + j < 16 := by omega
    have hplace : 8 * i + j - 16 = 8 * ((i + 2) % 4) + j := by omega
    simp [hhalf, hfits, hplace]

/-- Settles O17: the byte lemma of each swap. -/
theorem swapReversesTheBytes : Obligations.SwapReversesTheBytes :=
  ⟨fun v _ hi => byteOf_swap2 v hi, fun v _ hi => byteOf_swap4 v hi, fun v _ hi => byteOf_swap8 v hi⟩

/-! ## Sequences of elements -/

/-- Settles O20: the elements of an aligned sequence fill it. -/
theorem elementSwapByIndex : Obligations.ElementSwapByIndex := by
  intro f w hw halign
  have hpos : 0 < w := Nat.pos_of_ne_zero (by rintro rfl; simp at hw)
  have hfill : f.length / w * w = f.length := Nat.div_mul_cancel (Nat.dvd_of_mod_eq_zero halign)
  refine ⟨rfl, eswap_length halign true, fun i hi => ?_⟩
  exact reverseElements_getElem? w (f.length / w) f hpos hfill.le i (hfill.symm ▸ hi)

/-- Reversing each element twice gives the sequence back: each round reverses its own element twice. -/
theorem reverseElements_reverseElements {w k : Nat} {f : List Byte} (h : f.length = k * w) :
    reverseElements w k (reverseElements w k f) = f := by
  induction k generalizing f with
  | zero =>
    rw [Nat.zero_mul, List.length_eq_zero_iff] at h
    rw [h, reverseElements]
  | succ k ih =>
    rw [Nat.succ_mul] at h
    have hfirst : (f.take w).reverse.length = w := by
      rw [List.length_reverse, List.length_take]
      omega
    have hrest : (f.drop w).length = k * w := by
      rw [List.length_drop]
      omega
    rw [reverseElements, reverseElements, List.take_left' hfirst, List.drop_left' hfirst, List.reverse_reverse,
      ih hrest, List.take_append_drop]

/-- eswap is an involution on aligned sequences of every element width (R121). -/
theorem eswap_eswap {f : List Byte} {w : Nat} (halign : f.length % w = 0) (c : Bool) :
    eswap (eswap f w c) w c = f := by
  cases c with
  | false => rfl
  | true =>
    have hfill : f.length = f.length / w * w := (Nat.div_mul_cancel (Nat.dvd_of_mod_eq_zero halign)).symm
    rw [eswap, if_pos rfl, eswap_length halign, eswap, if_pos rfl, reverseElements_reverseElements hfill]

/-- Settles O21: byte by byte, two swaps bring each byte back to its place, and swap_4 and wpswap move it to the same
place in either order. -/
theorem swapsAreInvolutions : Obligations.SwapsAreInvolutions := by
  refine ⟨fun v => eq_of_byteOf_eq (k := 2) rfl fun i hi => ?swap2,
    fun v => eq_of_byteOf_eq (k := 4) rfl fun i hi => ?swap4, fun v => eq_of_byteOf_eq (k := 8) rfl fun i hi => ?swap8,
    fun v => eq_of_byteOf_eq (k := 4) rfl fun i hi => ?wpswap,
    fun v => eq_of_byteOf_eq (k := 4) rfl fun i hi => ?commute, fun f w c _ halign => eswap_eswap halign c⟩
  case swap2 =>
    rw [byteOf_swap2 _ hi, byteOf_swap2 _ (by omega), Nat.sub_sub_self (by omega)]
  case swap4 =>
    rw [byteOf_swap4 _ hi, byteOf_swap4 _ (by omega), Nat.sub_sub_self (by omega)]
  case swap8 =>
    rw [byteOf_swap8 _ hi, byteOf_swap8 _ (by omega), Nat.sub_sub_self (by omega)]
  case wpswap =>
    have hplace : ((i + 2) % 4 + 2) % 4 = i := by omega
    rw [byteOf_wpswap _ hi, byteOf_wpswap _ (by omega), hplace]
  case commute =>
    have hplace : (3 - i + 2) % 4 = 3 - (i + 2) % 4 := by omega
    rw [byteOf_swap4 _ hi, byteOf_wpswap _ (by omega), byteOf_wpswap _ hi, byteOf_swap4 _ (by omega), hplace]

end Sys2Proof.Machine
end

section
/-! PROOF. The commands of the byte-order normalizer: SWAP, WPSWAP and SWAPBUF (41_byte_order.md R111 to R121,
70_reset_and_hazards.md R277). -/

namespace Sys2Proof.Machine

open Sys2Proof.Claims

/-- The condition of R111, as the model evaluates it. -/
theorem holds_eq_condTrue (c : Cond) (s : State) : holds c s = condTrue c s := by
  cases c with
  | always => rfl
  | host => exact Bool.or_false s.hostLE
  | swap => rfl

/-! ## SWAP and WPSWAP -/

/-- A scalar swap completes OK with the swapped or the plain low bits of A0 (R112 to R115). -/
theorem resultIs_of_scalarSwap {n : Nat} {f : BitVec n → BitVec n} {i : Instr} {c : Cond} {s : State}
    (h : commandOf i s = scalarSwap f c s) :
    ResultIs i s ((if holds c s then f (s.a0.setWidth n) else s.a0.setWidth n).setWidth 64) := by
  rw [holds_eq_condTrue]
  exact resultIs_of_commandOf h

/-- Settles O18: each scalar swap by its width; for one byte the swap is the identity, for eight bytes A0 is
taken whole. -/
theorem scalarSwapsWriteRes : Obligations.ScalarSwapsWriteRes := by
  intro s w c
  refine ⟨?swap8, resultIs_of_scalarSwap rfl, resultIs_of_scalarSwap rfl, ?swap64,
    raises_of_commandOf (d := .width) rfl⟩
  case swap8 =>
    have h : ResultIs (.swap8 c) s _ := resultIs_of_scalarSwap (f := fun v => v) rfl
    rwa [ite_self] at h
  case swap64 =>
    have h : ResultIs (.swap64 c) s _ := resultIs_of_scalarSwap rfl
    rwa [BitVec.setWidth_eq, BitVec.setWidth_eq] at h

theorem elemWidth_eq_four_iff {w : BitVec 3} : elemWidth w = 4 ↔ w = 2 := by
  revert w; decide

/-- Settles O19: the width check passes for W = 2 only, and the result is the rotation of the low word. -/
theorem wordPairSwapRotates : Obligations.WordPairSwapRotates := by
  intro s w
  constructor
  · rintro rfl
    have hlow : s.a0.toNat % 2 ^ 32 % 2 ^ 16 = s.a0.toNat % 2 ^ 16 := by omega
    have hhigh : s.a0.toNat % 2 ^ 32 / 2 ^ 16 = s.a0.toNat / 2 ^ 16 % 2 ^ 16 := by omega
    have hvalue : (wpswap (s.a0.setWidth 32)).setWidth 64 =
        BitVec.ofNat 64 (s.a0.toNat % 2 ^ 16 * 2 ^ 16 + s.a0.toNat / 2 ^ 16 % 2 ^ 16) := by
      apply BitVec.eq_of_toNat_eq
      rw [BitVec.toNat_setWidth, wpswap_toNat, BitVec.toNat_setWidth, hlow, hhigh, BitVec.toNat_ofNat]
    rw [← hvalue]
    exact resultIs_of_commandOf rfl
  · intro hw
    have hwidth : (elemWidth w == 4) = false := beq_eq_false_iff_ne.2 (mt elemWidth_eq_four_iff.1 hw)
    refine raises_of_commandOf (d := .width) ?_
    rw [commandOf, wpswapCommand, hwidth, ensure_false, raise_bind]

/-! ## SWAPBUF: its checks, and what it writes once they pass -/

theorem outputIs_of_commandOf {i : Instr} {s : State} {f : List Byte} (h : commandOf i s = .ok { out := some f }) :
    OutputIs i s f := by
  refine ⟨s.completeOk { out := some f }, ?_, rfl, bufRead_bufWriteList_zero s.obuf f⟩
  rw [exec_eq_finish, h, finish_ok]

/-- A SWAPBUF that passes its checks and reads its input swaps its elements, and checks the output's size only where it
goes to OBUF. -/
theorem swapbufCommand_of_inputIs {s : State} {f : List Byte} {w : BitVec 3} (hw : w.toNat ≤ 3) (hinput : InputIs s f)
    (halign : f.length % 2 ^ w.toNat = 0) (c : Cond) (dst : Bool) :
    swapbufCommand w c dst s =
      if dst then .ok { inPlace := some (eswap f (2 ^ w.toNat) (holds c s)) }
      else checkOut f.length s >>= fun _ => .ok { out := some (eswap f (2 ^ w.toNat) (holds c s)) } := by
  have hlen : s.len.toNat = f.length := hinput.1
  simp only [swapbufCommand, hlen, checkWidth_of_le hw, checkLenRange_of_inputIs hinput, checkLenAlign_of_dvd halign,
    readIbuf_of_inputIs hinput, ok_bind, pure_eq_ok, holds_eq_condTrue, elemWidth]

/-- A SWAPBUF that runs to its end has passed its checks and read its input. -/
theorem inputIs_of_swapbufCommand {s : State} {w : BitVec 3} {c : Cond} {dst : Bool} {e : Effect}
    (h : swapbufCommand w c dst s = .ok e) : w.toNat ≤ 3 ∧ ∃ f, InputIs s f ∧ f.length % 2 ^ w.toNat = 0 := by
  simp only [swapbufCommand, checkWidth, checkLenRange, checkLenAlign, bind_eq_ok, ensure_eq_ok, widthOk_iff,
    decide_eq_true_eq, beq_iff_eq, elemWidth] at h
  obtain ⟨-, hw, -, hrange, -, halign, f, hread, -⟩ := h
  obtain ⟨hlen, hbytes⟩ := readIbuf_eq_ok.1 hread
  rw [← hlen] at hrange halign hbytes
  exact ⟨hw, f, ⟨hlen.symm, hrange, hbytes⟩, halign⟩

theorem swapbuf_raises_width {w : BitVec 3} (hw : 3 < w.toNat) (c : Cond) (dst : Bool) (s : State) :
    Raises (.swapbuf w c dst) s 1 5 := by
  refine raises_of_commandOf (d := .width) ?_
  rw [commandOf, swapbufCommand, checkWidth_of_gt hw, raise_bind]

theorem swapbuf_raises_lenRange {s : State} {w : BitVec 3} (hw : w.toNat ≤ 3) (hlen : s.params.ibufBytes < s.len.toNat)
    (c : Cond) (dst : Bool) : Raises (.swapbuf w c dst) s 1 6 := by
  refine raises_of_commandOf (d := .lenRange) ?_
  rw [commandOf, swapbufCommand, checkWidth_of_le hw, ok_bind, checkLenRange_of_gt hlen, raise_bind]

theorem swapbuf_raises_lenAlign {s : State} {w : BitVec 3} (hw : w.toNat ≤ 3) (hlen : s.len.toNat ≤ s.params.ibufBytes)
    (halign : s.len.toNat % 2 ^ w.toNat ≠ 0) (c : Cond) (dst : Bool) : Raises (.swapbuf w c dst) s 1 10 := by
  refine raises_of_commandOf (d := .lenAlign) ?_
  rw [commandOf, swapbufCommand, checkWidth_of_le hw, ok_bind, checkLenRange_of_le hlen, ok_bind,
    checkLenAlign_of_ne halign, raise_bind]

/-- An in-place SWAPBUF that passes its checks puts the swapped elements back and changes nothing else but STATUS. -/
theorem exec_swapbuf_inPlace {s : State} {f : List Byte} {w : BitVec 3} (hw : w.toNat ≤ 3) (hinput : InputIs s f)
    (halign : f.length % 2 ^ w.toNat = 0) (c : Cond) :
    exec (.swapbuf w c true) s =
      .next { okState s with ibuf := bufWriteList s.ibuf 0 (eswap f (2 ^ w.toNat) (holds c s)) } := by
  rw [exec_eq_finish, commandOf, swapbufCommand_of_inputIs hw hinput halign, if_pos rfl, finish_ok]
  rfl

/-- Settles O22: the first check that fails raises its outcome; past them the elements are swapped, and DST says where
they go. -/
theorem swapbufSwapsElements : Obligations.SwapbufSwapsElements := by
  intro s w c dst
  refine ⟨fun hw => swapbuf_raises_width hw c dst s, fun hw hlen => swapbuf_raises_lenRange hw hlen c dst,
    fun hw hlen halign => swapbuf_raises_lenAlign hw hlen halign c dst, fun f hw hinput halign => ?_⟩
  have hcommand := swapbufCommand_of_inputIs hw hinput halign c
  refine ⟨?toObuf, ?overflow, ?inPlace⟩
  case toObuf =>
    rintro rfl hfits
    refine outputIs_of_commandOf ?_
    rw [commandOf, hcommand, if_neg Bool.false_ne_true, checkOut, ensure_pos hfits, ok_bind]
  case overflow =>
    rintro rfl hover
    refine raises_of_commandOf (d := .outOverflow) ?_
    rw [commandOf, hcommand, if_neg Bool.false_ne_true, checkOut, ensure_neg (Nat.not_le.2 hover), raise_bind]
  case inPlace =>
    rintro rfl
    refine ⟨_, exec_swapbuf_inPlace hw hinput halign c, rfl, fun j => ?_⟩
    rw [bufRead_bufWriteList_zero, eswap_length halign]

/-! ## SWAPBUF in place, twice -/

/-- A SWAPBUF that completes with KIND 0 has run to its end, on an input that passes its checks. -/
theorem inputIs_of_kind_zero {s t : State} {w : BitVec 3} {c : Cond} {dst : Bool}
    (h : exec (.swapbuf w c dst) s = .next t) (hkind : t.kind = 0) :
    w.toNat ≤ 3 ∧ ∃ f, InputIs s f ∧ f.length % 2 ^ w.toNat = 0 := by
  rw [exec_eq_finish] at h
  rcases finish_eq_next.1 h with ⟨e, he, -⟩ | ⟨e, -, rfl⟩
  · exact inputIs_of_swapbufCommand he
  · exact absurd hkind (err_kind_ne_zero e)

/-- Bytes put back over the whole input are the input of the next command. -/
theorem inputIs_putBack {s : State} {f g : List Byte} (hinput : InputIs s f) (hlen : g.length = f.length) :
    InputIs { okState s with ibuf := bufWriteList s.ibuf 0 g } g := by
  obtain ⟨hf, hfits, -⟩ := hinput
  refine ⟨hf.trans hlen.symm, hlen.trans_le hfits, fun i hi => ?_⟩
  rw [bufRead_bufWriteList_zero, if_pos hi]

/-- Storing the bytes that stood at a buffer's start, over others of the same length, restores the buffer. -/
theorem bufRead_bufWriteList_restore {m : List Host.Cell} {f g : List Byte} (hlen : g.length = f.length)
    (hbytes : ∀ i, i < f.length → bufRead m i = f[i]?) (i : Nat) :
    bufRead (bufWriteList (bufWriteList m 0 g) 0 f) i = bufRead m i := by
  by_cases hi : i < f.length
  · rw [bufRead_bufWriteList_zero, if_pos hi, hbytes i hi]
  · have hge : f.length ≤ i := Nat.not_lt.1 hi
    rw [bufRead_bufWriteList_of_ge hge, bufRead_bufWriteList_of_ge (hlen.trans_le hge)]

/-- Settles O23: the second run reads the swapped elements, swaps them back and puts them where they came from. -/
theorem inPlaceSwapTwiceRestores : Obligations.InPlaceSwapTwiceRestores := by
  intro s t w c h hkind
  obtain ⟨hw, f, hinput, halign⟩ := inputIs_of_kind_zero h hkind
  rw [exec_swapbuf_inPlace hw hinput halign, Host.Outcome.next.injEq] at h
  subst h
  have hlen := eswap_length halign (holds c s)
  have hagain := exec_swapbuf_inPlace hw (inputIs_putBack hinput hlen) (hlen ▸ halign) c
  have hback : eswap (eswap f (2 ^ w.toNat) (holds c s)) (2 ^ w.toNat) (holds c s) = f := eswap_eswap halign _
  obtain ⟨-, -, hbytes⟩ := hinput
  refine ⟨_, hagain, rfl, fun i => ?_⟩
  change bufRead (bufWriteList (bufWriteList s.ibuf 0 _) 0 (eswap _ _ (holds c s))) i = bufRead s.ibuf i
  rw [hback, bufRead_bufWriteList_restore hlen hbytes]

end Sys2Proof.Machine
end

section
/-! PROOF. The frame codec: the requests ENCODE builds, and the checks before each (42_frame_codec.md R131 to R147). -/

namespace Sys2Proof.Machine

open Sys2Proof.Claims

/-! ## The output, and the last check before it -/

/-- The wire form on numbers is the model's frame (R131). -/
theorem wire_eq_frame (wrap : Bool) (u : Byte) (pdu : List Byte) : wire wrap u pdu = frame wrap u pdu := by
  have htrailer : loHi (crc16 ([u] ++ pdu)).toNat = le16 (crc16 ([u] ++ pdu)) := (le16_eq _).symm
  rw [wire, htrailer]
  rfl

theorem be16_eq_hiLo (v : DWord) : be16 (v.setWidth 16) = hiLo v.toNat :=
  be16_setWidth v

/-- A command that only has its PDU to output sends it, or raises OUT_OVERFLOW (R132). -/
theorem sends_of_commandOf {i : Instr} {s : State} {wrap : Bool} {pdu : List Byte}
    (h : commandOf i s = encodeOutput wrap pdu s) : Sends i s wrap pdu := by
  rw [Sends, wire_eq_frame]
  constructor
  · intro hfits
    exact outputIs_of_commandOf (h.trans (encodeOutput_eq_ok.2 ⟨hfits, rfl⟩))
  · intro hover
    exact raises_of_commandOf (d := .outOverflow) (h.trans (encodeOutput_eq_error.2 ⟨Nat.not_le.2 hover, rfl⟩))

/-- A command with one check left before its output sends where the check passes, and raises its detail where not. -/
theorem sends_or_raises_of_check {i : Instr} {s : State} {wrap : Bool} {pdu : List Byte} {d : ValidationDetail}
    {k bound : Nat} (h : commandOf i s = ensure (decide (k ≤ bound)) d >>= fun _ => encodeOutput wrap pdu s) :
    (k ≤ bound → Sends i s wrap pdu) ∧ (bound < k → Raises i s 1 d.code) := by
  constructor
  · intro hle
    rw [ensure_pos hle, ok_bind] at h
    exact sends_of_commandOf h
  · intro hlt
    rw [ensure_neg (Nat.not_le.2 hlt), raise_bind] at h
    exact raises_of_commandOf h

/-! ## The read requests and the single writes: one check after unit and address -/

section
variable {s : State} (hunit : s.a0.toNat ≤ 255) (haddr : s.a1.toNat ≤ 65535)
include hunit haddr

theorem encodeRead_of_le {n : FcName} (hn : (respClass n).isSome = true) (qmax : Fin 65536) (wrap : Bool) :
    encodeRead n qmax wrap s = checkQty s.a2.toNat qmax >>= fun _ =>
      encodeOutput wrap ([s.params.fcode.byte n] ++ hiLo s.a1.toNat ++ hiLo s.a2.toNat) s := by
  simp only [encodeRead, encodePreamble_of_le hn hunit, checkAddr, ensure_pos haddr, ok_bind, be16_eq_hiLo]
  rfl

theorem encodeWriteCoil_of_le (wrap : Bool) :
    encodeWriteCoil wrap s = checkValue s.a2 1 >>= fun _ =>
      encodeOutput wrap ([s.params.fcode.wsc] ++ hiLo s.a1.toNat ++ be16 (coilValue s.a2)) s := by
  simp only [encodeWriteCoil, encodePreamble_of_le (n := .wsc) rfl hunit, checkAddr, ensure_pos haddr, ok_bind,
    be16_eq_hiLo]
  rfl

theorem encodeWriteRegister_of_le (wrap : Bool) :
    encodeWriteRegister wrap s = checkValue s.a2 65535 >>= fun _ =>
      encodeOutput wrap ([s.params.fcode.wsr] ++ hiLo s.a1.toNat ++ hiLo s.a2.toNat) s := by
  simp only [encodeWriteRegister, encodePreamble_of_le (n := .wsr) rfl hunit, checkAddr, ensure_pos haddr, ok_bind,
    be16_eq_hiLo]
  rfl

/-- A read request, by its function code and its maximum: sent up to the maximum, QTY_RANGE above it. -/
theorem readRequest_sends_or_raises {i : Instr} {n : FcName} {qmax : Fin 65536} {wrap : Bool}
    (hcommand : commandOf i s = encodeRead n qmax wrap s) (hn : (respClass n).isSome = true) :
    (s.a2.toNat ≤ qmax.val → Sends i s wrap ([s.params.fcode.byte n] ++ hiLo s.a1.toNat ++ hiLo s.a2.toNat)) ∧
      (qmax.val < s.a2.toNat → Raises i s 1 3) :=
  sends_or_raises_of_check (d := .qtyRange) (hcommand.trans (encodeRead_of_le hunit haddr hn qmax wrap))

end

/-- Settles O24: each of the four commands is the read request of its function code. -/
theorem readRequestsAreBuilt : Obligations.ReadRequestsAreBuilt := by
  intro s wrap r hr hunit haddr
  simp only [List.mem_cons, List.not_mem_nil, or_false] at hr
  rcases hr with rfl | rfl | rfl | rfl
  · exact readRequest_sends_or_raises hunit haddr (n := .rc) rfl rfl
  · exact readRequest_sends_or_raises hunit haddr (n := .rdi) rfl rfl
  · exact readRequest_sends_or_raises hunit haddr (n := .rhr) rfl rfl
  · exact readRequest_sends_or_raises hunit haddr (n := .rir) rfl rfl

/-- A coil off (R138). -/
theorem be16_coilValue_zero {v : DWord} (h : v.toNat = 0) : be16 (coilValue v) = [0x00, 0x00] := by
  rw [coilValue, h]
  rfl

/-- A coil on (R138). -/
theorem be16_coilValue_one {v : DWord} (h : v.toNat = 1) : be16 (coilValue v) = [0xFF, 0x00] := by
  rw [coilValue, h]
  rfl

/-- Settles O25: the value is the last operand checked; a coil's value then picks its two bytes. -/
theorem singleWriteRequestsAreBuilt : Obligations.SingleWriteRequestsAreBuilt := by
  intro s wrap hunit haddr
  obtain ⟨hcoil, hcoilRange⟩ := sends_or_raises_of_check (i := .encodeWSC wrap) (d := .valueRange)
    (encodeWriteCoil_of_le hunit haddr wrap)
  obtain ⟨hregister, hregisterRange⟩ := sends_or_raises_of_check (i := .encodeWSR wrap) (d := .valueRange)
    (encodeWriteRegister_of_le hunit haddr wrap)
  refine ⟨fun hoff => ?off, fun hon => ?on, hcoilRange, hregister, hregisterRange⟩
  case off =>
    rw [← be16_coilValue_zero hoff]
    exact hcoil (by omega)
  case on =>
    rw [← be16_coilValue_one hon]
    exact hcoil (by omega)

/-! ## prep_write (R147), and the two requests that end in it -/

/-- The first check of prep_write that fails is the one it raises. -/
theorem prepWrite_of_prepDetail_ne {qmax : Fin 65536} {w : BitVec 3} {s : State} (h : prepDetail qmax.val w s ≠ 0)
    (c : Cond) :
    ∃ d : ValidationDetail, d.code = prepDetail qmax.val w s ∧ prepWrite qmax w c s = raise (.validation d) := by
  unfold prepDetail at h ⊢
  split_ifs at h ⊢ with hw hlen halign hwrite hq hcount
  · refine ⟨.width, rfl, ?_⟩
    rw [prepWrite, checkWidth_of_gt hw, raise_bind]
  all_goals have hwidth := checkWidth_of_le (Nat.not_lt.1 hw)
  · refine ⟨.lenRange, rfl, ?_⟩
    simp only [prepWrite, hwidth, checkLenRange_of_gt hlen, ok_bind, raise_bind]
  all_goals have hrange := checkLenRange_of_le (Nat.not_lt.1 hlen)
  · refine ⟨.lenAlign, rfl, ?_⟩
    simp only [prepWrite, hwidth, hrange, checkLenAlign_of_ne halign, ok_bind, raise_bind]
  all_goals have haligned := checkLenAlign_of_dvd (not_not.1 halign)
  · refine ⟨.writeLen, rfl, ?_⟩
    have hfails : (decide (2 ≤ s.len.toNat) && s.len.toNat % 2 == 0) = false := by
      simp only [Bool.and_eq_false_iff, decide_eq_false_iff_not, beq_eq_false_iff_ne]
      omega
    simp only [prepWrite, hwidth, hrange, haligned, hfails, ensure_false, ok_bind, raise_bind]
  all_goals
    have heven : (decide (2 ≤ s.len.toNat) && s.len.toNat % 2 == 0) = true := by
      simp only [Bool.and_eq_true, decide_eq_true_eq, beq_iff_eq]
      omega
  · refine ⟨.qtyRange, rfl, ?_⟩
    simp only [prepWrite, hwidth, hrange, haligned, heven, ensure_true, checkQty, ensure_neg (Nat.not_le.2 hq), ok_bind,
      raise_bind]
  · refine ⟨.byteCount, rfl, ?_⟩
    have hover : ¬ 2 * (s.len.toNat / 2) ≤ 255 := by omega
    simp only [prepWrite, hwidth, hrange, haligned, heven, ensure_true, checkQty, ensure_pos (Nat.not_lt.1 hq),
      ensure_neg hover, ok_bind, raise_bind]
  · exact absurd rfl h

theorem prepWrite_of_inputIs {qmax : Fin 65536} {w : BitVec 3} {s : State} {f : List Byte}
    (h : prepDetail qmax.val w s = 0) (hinput : InputIs s f) (c : Cond) :
    prepWrite qmax w c s = .ok (f.length / 2, eswap f (2 ^ w.toNat) (holds c s)) := by
  have hlen : s.len.toNat = f.length := hinput.1
  rw [prepWrite_of_prepDetail h, readIbuf_of_inputIs hinput, ok_bind, hlen, holds_eq_condTrue]
  rfl

/-- The quantity, byte count and data the model writes are those of the statements. -/
theorem writeFields_eq_writePart (w : BitVec 3) (c : Cond) (s : State) (f : List Byte) :
    writeFields (f.length / 2) (eswap f (2 ^ w.toNat) (holds c s)) = writePart w c s f := by
  rw [writeFields, writePart, be16_ofNat, Nat.mul_comm]
  rfl

section
variable {i : Instr} {s : State} {qmax : Fin 65536} {w : BitVec 3} {c : Cond} {wrap : Bool} {head : List Byte}
  (hcommand : commandOf i s = prepWrite qmax w c s >>= fun r => encodeOutput wrap (head ++ writeFields r.1 r.2) s)
include hcommand

/-- A request that ends in prep_write raises what prep_write raises. -/
theorem writeRequest_raises (h : prepDetail qmax.val w s ≠ 0) : Raises i s 1 (prepDetail qmax.val w s) := by
  obtain ⟨d, hd, hprep⟩ := prepWrite_of_prepDetail_ne h c
  rw [hprep, raise_bind] at hcommand
  rw [← hd]
  exact raises_of_commandOf hcommand

/-- A request that ends in prep_write sends its own fields and then the write's. -/
theorem writeRequest_sends {f : List Byte} (hinput : InputIs s f) (h : prepDetail qmax.val w s = 0) :
    Sends i s wrap (head ++ writePart w c s f) := by
  rw [prepWrite_of_inputIs h hinput, ok_bind, writeFields_eq_writePart] at hcommand
  exact sends_of_commandOf hcommand

end

theorem encodeWriteRegisters_of_ok {s : State} (hok : WmrOperandsOk s) (w : BitVec 3) (c : Cond) (wrap : Bool) :
    encodeWriteRegisters w c wrap s = prepWrite s.params.qmaxWriteRegs w c s >>= fun r =>
      encodeOutput wrap ([s.params.fcode.wmr] ++ hiLo s.a1.toNat ++ writeFields r.1 r.2) s := by
  obtain ⟨hunit, haddr⟩ := hok
  simp only [encodeWriteRegisters, encodePreamble_of_le (n := .wmr) rfl hunit, checkAddr, ensure_pos haddr, ok_bind,
    be16_eq_hiLo]
  rfl

/-- Settles O26: past unit and address the request is prep_write and the output. -/
theorem multipleWriteRequestsAreBuilt : Obligations.MultipleWriteRequestsAreBuilt := by
  intro s w c wrap hok
  have hcommand : commandOf (.encodeWMR w c wrap) s = _ := encodeWriteRegisters_of_ok hok w c wrap
  exact ⟨writeRequest_raises hcommand, fun f hinput => writeRequest_sends hcommand hinput⟩

/-- ENCODE.RWMR past unit and read address, the two checks of its own still to come (R145). -/
theorem encodeReadWrite_of_le {s : State} (hunit : s.a0.toNat ≤ 255) (haddr : s.a1.toNat ≤ 65535) (w : BitVec 3)
    (c : Cond) (wrap : Bool) :
    encodeReadWrite w c wrap s = (do
      checkQty s.a2.toNat s.params.qmaxRwRead
      checkAddr s.a3
      let r ← prepWrite s.params.qmaxRwWrite w c s
      encodeOutput wrap ([s.params.fcode.rwmr] ++ hiLo s.a1.toNat ++ hiLo s.a2.toNat ++ hiLo s.a3.toNat ++
        writeFields r.1 r.2) s) := by
  have hfirst : checkAddr s.a1 = .ok () := ensure_pos haddr _
  simp only [encodeReadWrite, encodePreamble_of_le (n := .rwmr) rfl hunit, hfirst, ok_bind, be16_eq_hiLo]
  rfl

theorem encodeReadWrite_of_ok {s : State} (hok : RwmrOperandsOk s) (w : BitVec 3) (c : Cond) (wrap : Bool) :
    encodeReadWrite w c wrap s = prepWrite s.params.qmaxRwWrite w c s >>= fun r =>
      encodeOutput wrap ([s.params.fcode.rwmr] ++ hiLo s.a1.toNat ++ hiLo s.a2.toNat ++ hiLo s.a3.toNat ++
        writeFields r.1 r.2) s := by
  obtain ⟨hunit, haddr, hqty, hwaddr⟩ := hok
  rw [encodeReadWrite_of_le hunit haddr, checkQty, ensure_pos hqty, ok_bind, checkAddr, ensure_pos hwaddr, ok_bind]

/-- Settles O27: the read quantity, then the write address, then prep_write and the output. -/
theorem readWriteRequestsAreBuilt : Obligations.ReadWriteRequestsAreBuilt := by
  intro s w c wrap hunit haddr
  have hcommand : commandOf (.encodeRWMR w c wrap) s = _ := encodeReadWrite_of_le hunit haddr w c wrap
  have hpassed (hok : RwmrOperandsOk s) : commandOf (.encodeRWMR w c wrap) s = prepWrite _ w c s >>= _ :=
    encodeReadWrite_of_ok hok w c wrap
  refine ⟨fun hqty => ?qtyRange, fun hqty hwaddr => ?addrRange, fun hok => writeRequest_raises (hpassed hok),
    fun f hinput hok => writeRequest_sends (hpassed hok) hinput⟩
  case qtyRange =>
    refine raises_of_commandOf (d := .qtyRange) ?_
    rw [hcommand, checkQty, ensure_neg (Nat.not_le.2 hqty), raise_bind]
  case addrRange =>
    refine raises_of_commandOf (d := .addrRange) ?_
    rw [hcommand, checkQty, ensure_pos hqty, ok_bind, checkAddr, ensure_neg (Nat.not_le.2 hwaddr), raise_bind]

/-! ## Every serial request carries its checksum -/

/-- Whatever this pseudocode outputs, it outputs through encodeOutput. -/
def EndsInOutput (s : State) (wrap : Bool) (r : Except Stop Effect) : Prop :=
  ∀ e, r = .ok e → ∃ pdu, encodeOutput wrap pdu s = .ok e

theorem endsInOutput_encodeOutput (s : State) (wrap : Bool) (pdu : List Byte) :
    EndsInOutput s wrap (encodeOutput wrap pdu s) :=
  fun _ he => ⟨pdu, he⟩

theorem endsInOutput_bind {α : Type} {s : State} {wrap : Bool} {x : Except Stop α} {k : α → Except Stop Effect}
    (hk : ∀ a, EndsInOutput s wrap (k a)) : EndsInOutput s wrap (x >>= k) := by
  intro e he
  obtain ⟨a, -, he⟩ := bind_eq_ok.1 he
  exact hk a e he

theorem endsInOutput_encodeRead (n : FcName) (qmax : Fin 65536) (wrap : Bool) (s : State) :
    EndsInOutput s wrap (encodeRead n qmax wrap s) :=
  endsInOutput_bind fun _ => endsInOutput_bind fun _ => endsInOutput_bind fun _ => endsInOutput_encodeOutput s wrap _

theorem endsInOutput_encodeWriteCoil (wrap : Bool) (s : State) : EndsInOutput s wrap (encodeWriteCoil wrap s) :=
  endsInOutput_bind fun _ => endsInOutput_bind fun _ => endsInOutput_bind fun _ => endsInOutput_encodeOutput s wrap _

theorem endsInOutput_encodeWriteRegister (wrap : Bool) (s : State) :
    EndsInOutput s wrap (encodeWriteRegister wrap s) :=
  endsInOutput_bind fun _ => endsInOutput_bind fun _ => endsInOutput_bind fun _ => endsInOutput_encodeOutput s wrap _

theorem endsInOutput_encodeWriteRegisters (w : BitVec 3) (c : Cond) (wrap : Bool) (s : State) :
    EndsInOutput s wrap (encodeWriteRegisters w c wrap s) :=
  endsInOutput_bind fun _ => endsInOutput_bind fun _ => endsInOutput_bind fun _ => endsInOutput_encodeOutput s wrap _

theorem endsInOutput_encodeReadWrite (w : BitVec 3) (c : Cond) (wrap : Bool) (s : State) :
    EndsInOutput s wrap (encodeReadWrite w c wrap s) :=
  endsInOutput_bind fun _ => endsInOutput_bind fun _ => endsInOutput_bind fun _ => endsInOutput_bind fun _ =>
    endsInOutput_bind fun _ => endsInOutput_encodeOutput s wrap _

theorem endsInOutput_of_mem_encodes {w : BitVec 3} {c : Cond} {wrap : Bool} {i : Instr} (hi : i ∈ encodes w c wrap)
    (s : State) : EndsInOutput s wrap (commandOf i s) := by
  simp only [encodes, List.mem_cons, List.not_mem_nil, or_false] at hi
  rcases hi with rfl | rfl | rfl | rfl | rfl | rfl | rfl | rfl
  · exact endsInOutput_encodeRead .rc s.params.qmaxReadBits wrap s
  · exact endsInOutput_encodeRead .rdi s.params.qmaxReadBits wrap s
  · exact endsInOutput_encodeRead .rhr s.params.qmaxReadRegs wrap s
  · exact endsInOutput_encodeRead .rir s.params.qmaxReadRegs wrap s
  · exact endsInOutput_encodeWriteCoil wrap s
  · exact endsInOutput_encodeWriteRegister wrap s
  · exact endsInOutput_encodeWriteRegisters w c wrap s
  · exact endsInOutput_encodeReadWrite w c wrap s

/-- A sequence stored at a buffer's start is read back from there. -/
theorem bufReadList_bufWriteList_zero (m : List Host.Cell) (f : List Byte) :
    bufReadList (bufWriteList m 0 f) 0 f.length = some f := by
  refine bufReadList_eq_some.2 ⟨rfl, fun j hj => ?_⟩
  rw [Nat.zero_add, bufRead_bufWriteList_zero, if_pos hj]

/-- An ENCODE that completes OK leaves the frame of some PDU in `OBUF[0..OLEN-1]`. -/
theorem bufReadList_obuf_of_encodes {s t : State} {w : BitVec 3} {c : Cond} {wrap : Bool} {i : Instr}
    (hi : i ∈ encodes w c wrap) (hp : s.params.legal = true) (h : exec i s = .next t) (hkind : t.kind = 0) :
    ∃ pdu, bufReadList t.obuf 0 t.olen.toNat = some (frame wrap (s.a0.setWidth 8) pdu) := by
  rw [exec_eq_finish] at h
  rcases finish_eq_next.1 h with ⟨e, he, rfl⟩ | ⟨e, -, rfl⟩
  · obtain ⟨pdu, hout⟩ := endsInOutput_of_mem_encodes hi s e he
    obtain ⟨hfits, rfl⟩ := encodeOutput_eq_ok.1 hout
    have holen : (BitVec.ofNat 32 (frame wrap (s.a0.setWidth 8) pdu).length).toNat = _ := toNat_olen_of_fits hp hfits
    refine ⟨pdu, ?_⟩
    change bufReadList (bufWriteList s.obuf 0 _) 0 (BitVec.ofNat 32 _).toNat = _
    rw [holen, bufReadList_bufWriteList_zero]
  · exact absurd hkind (err_kind_ne_zero e)

/-- A serial frame ends in its checksum, which brings the checksum over the whole to 0 (R131, 40_checksum.md R101). -/
theorem crc16_frame_serial (u : Byte) (pdu : List Byte) : crc16 (frame true u pdu) = 0 := by
  rw [frame, if_pos rfl, crc16_append, crc_trailer]

/-- Settles O30: what is read back is a serial frame. -/
theorem serialRequestsCarryTheirChecksum : Obligations.SerialRequestsCarryTheirChecksum := by
  intro s t w c f i hi hp h hkind hread
  obtain ⟨pdu, hframe⟩ := bufReadList_obuf_of_encodes hi hp h hkind
  rw [hframe, Option.some.injEq] at hread
  subst hread
  exact ⟨crc16_frame_serial _ pdu, rfl⟩

end Sys2Proof.Machine
end

section
/-! PROOF. The frame validator by indexes and numbers, the command VALIDATE, and the one-bit errors it rejects
(43_frame_validator.md R160 to R168). -/

namespace Sys2Proof.Machine

open Sys2Proof.Claims

/-! ## The four checks by index -/

theorem frameReason_of_short {f : List Byte} (h : f.length < 5) (wildcard uid : Byte) :
    frameReason wildcard uid f = some .short := by
  unfold frameReason
  rw [if_pos h]

/-- The checks after the length, on the bytes at their offsets (R162 to R164). -/
theorem frameReason_of_five_le {f : List Byte} (h : 5 ≤ f.length) (wildcard uid : Byte) :
    frameReason wildcard uid f =
      if uid ≠ wildcard ∧ at' f 0 ≠ uid then some .unit
      else if (at' f 1).getLsbD 7 = false ∧ f.length < (at' f 2).toNat + 5 then some .byteCount
      else if le16 (crc16 (f.take (f.length - 2))) ≠ f.drop (f.length - 2) then some .crc
      else none := by
  match f, h with
  | f0 :: f1 :: f2 :: rest, h =>
    unfold frameReason
    rw [if_neg (Nat.not_lt.2 h)]
    simp only [at', List.getD_cons_zero, List.getD_cons_succ, Bool.and_eq_true, bne_iff_ne, Bool.not_eq_true',
      decide_eq_true_eq]

theorem drop_eq_at'_cons {f : List Byte} {i : Nat} (hi : i < f.length) : f.drop i = at' f i :: f.drop (i + 1) := by
  rw [at', List.getD_eq_getElem _ _ hi, ← List.drop_eq_getElem_cons hi]

/-- The last two bytes, by index (R164). -/
theorem drop_eq_trailer {f : List Byte} (h : 2 ≤ f.length) :
    f.drop (f.length - 2) = [at' f (f.length - 2), at' f (f.length - 1)] := by
  have hnext : f.length - 2 + 1 = f.length - 1 := by omega
  have hend : f.length - 1 + 1 = f.length := by omega
  rw [drop_eq_at'_cons (by omega), hnext, drop_eq_at'_cons (by omega), hend, List.drop_length]

/-- The trailer is a checksum's two bytes exactly where it spells its value, low byte first (R164). -/
theorem le16_eq_trailer_iff {f : List Byte} (h : 2 ≤ f.length) (c : BitVec 16) :
    le16 c = f.drop (f.length - 2) ↔
      c.toNat = (at' f (f.length - 2)).toNat ||| ((at' f (f.length - 1)).toNat <<< 8) := by
  rw [drop_eq_trailer h, le16_eq_iff]

/-- The model's reason has the number of the checks on numbers (R160). -/
theorem reasonCode_frameReason_toNat (wildcard uid : Byte) (f : List Byte) :
    (reasonCode (frameReason wildcard uid f)).toNat = reasonOf wildcard uid f := by
  rw [reasonOf]
  by_cases hshort : f.length < 5
  · rw [frameReason_of_short hshort, if_pos hshort]
    rfl
  · have hfive : 5 ≤ f.length := Nat.not_lt.1 hshort
    have htrailer := le16_eq_trailer_iff (Nat.le_of_add_right_le (k := 3) hfive) (crc16 (f.take (f.length - 2)))
    rw [frameReason_of_five_le hfive, if_neg hshort]
    simp only [ne_eq, htrailer, apply_ite reasonCode, apply_ite BitVec.toNat]
    rfl

/-- No failing check has the number 0 (R160). -/
theorem reasonCode_toNat_eq_zero_iff {r : Option FramingDetail} : (reasonCode r).toNat = 0 ↔ r = none := by
  rcases r with _ | d
  · simp [reasonCode]
  · cases d <;> simp [reasonCode, FramingDetail.code]

/-- Settles O32: the reasons agree in number, and only the valid frame's is 0. -/
theorem validatorFollowsItsPolicy : Obligations.ValidatorFollowsItsPolicy := by
  intro wildcard uid f
  have hcode := reasonCode_frameReason_toNat wildcard uid f
  exact ⟨hcode, by rw [← hcode, reasonCode_toNat_eq_zero_iff]⟩

/-! ## The command -/

/-- The result word on numbers: the reason in bits 15:8, validity in bit 0 (R165). -/
theorem validateResult_eq_ofNat (r : Option FramingDetail) :
    validateResult r =
      BitVec.ofNat 64 (256 * (reasonCode r).toNat + if (reasonCode r).toNat = 0 then 1 else 0) := by
  rcases r with _ | d
  · rfl
  · cases d <;> rfl

theorem validateReason_of_short {s : State} (h : s.len.toNat < 5) : validateReason s = .ok (some .short) := by
  rw [validateReason, if_pos h]

/-- With its input written, VALIDATE judges it whole; under five bytes it reads none and answers the same (R161). -/
theorem validateReason_of_inputIs {s : State} {f : List Byte} (hinput : InputIs s f) :
    validateReason s = .ok (frameReason s.params.wildcardUid (s.a0.setWidth 8) f) := by
  have ⟨hlen, _⟩ := hinput
  by_cases hshort : s.len.toNat < 5
  · rw [validateReason_of_short hshort, frameReason_of_short (hlen ▸ hshort)]
  · rw [validateReason, if_neg hshort, readIbuf_of_inputIs hinput, ok_bind, pure_eq_ok]

/-- Past its two operand checks VALIDATE completes OK with the result of its reason (R165). -/
theorem validate_resultIs {s : State} {r : Option FramingDetail} (hunit : s.a0.toNat ≤ 255)
    (hlen : s.len.toNat ≤ s.params.ibufBytes) (hreason : validateReason s = .ok r) :
    ResultIs .validate s (validateResult r) := by
  apply resultIs_of_commandOf
  rw [commandOf, validateCommand, checkUnit, ensure_pos hunit, checkLenRange_of_le hlen, hreason]
  rfl

theorem validate_raises_unitRange {s : State} (h : 255 < s.a0.toNat) : Raises .validate s 1 1 := by
  apply raises_of_commandOf (d := .unitRange)
  rw [commandOf, validateCommand, checkUnit, ensure_neg (Nat.not_le.2 h), raise_bind]

theorem validate_raises_lenRange {s : State} (hunit : s.a0.toNat ≤ 255) (h : s.params.ibufBytes < s.len.toNat) :
    Raises .validate s 1 6 := by
  apply raises_of_commandOf (d := .lenRange)
  rw [commandOf, validateCommand, checkUnit, ensure_pos hunit, ok_bind, checkLenRange_of_gt h, raise_bind]

/-- Settles O33: the two operand checks in order, then the reason, whether the input is too short to read or
written. -/
theorem validateWritesTheReason : Obligations.ValidateWritesTheReason := by
  intro s
  refine ⟨validate_raises_unitRange, validate_raises_lenRange, ?_, ?_⟩
  · intro hunit hlen hshort
    exact validate_resultIs hunit hlen (validateReason_of_short hshort)
  · intro f hunit hinput
    have ⟨hlen, hfits, _⟩ := hinput
    have hresult := validate_resultIs hunit (hlen.trans_le hfits) (validateReason_of_inputIs hinput)
    rwa [validateResult_eq_ofNat, reasonCode_frameReason_toNat] at hresult

/-! ## One-bit errors -/

/-- A valid frame ends in the checksum of what precedes it, which brings the checksum over the whole to 0 (R164,
40_checksum.md R101 item 3). -/
theorem crc16_eq_zero_of_valid {wildcard uid : Byte} {f : List Byte} (h : frameReason wildcard uid f = none) :
    crc16 f = 0 := by
  by_cases hshort : f.length < 5
  · rw [frameReason_of_short hshort] at h
    cases h
  · rw [frameReason_of_five_le (Nat.not_lt.1 hshort)] at h
    split_ifs at h with _ _ hne
    have htrailer : le16 (crc16 (f.take (f.length - 2))) = f.drop (f.length - 2) := not_not.1 hne
    calc crc16 f = crc16 (f.take (f.length - 2) ++ f.drop (f.length - 2)) := by rw [List.take_append_drop]
      _ = (le16 (crc16 (f.take (f.length - 2)))).foldl crcByte (crc16 (f.take (f.length - 2))) := by
        rw [crc16_append, htrailer]
      _ = 0 := crc_trailer _

/-- Flipping one of a byte's eight bits changes it. -/
theorem xor_bit_ne (b : Byte) {k : Nat} (hk : k < 8) : b ^^^ (1#8 <<< k) ≠ b := by
  intro h
  have hbit := congrArg (fun x : Byte => x.getLsbD k) h
  simp [hk] at hbit

/-- A sequence around one of its bytes. -/
theorem take_append_at'_cons_drop {f : List Byte} {i : Nat} (hi : i < f.length) :
    f.take i ++ at' f i :: f.drop (i + 1) = f := by
  rw [← drop_eq_at'_cons hi, List.take_append_drop]

/-- A flipped bit changes one byte and leaves what stands before and after it. -/
theorem flipBit_eq_take_append_drop {f : List Byte} {i : Nat} (hi : i < f.length) (k : Nat) :
    flipBit f i k = f.take i ++ (at' f i ^^^ (1#8 <<< k)) :: f.drop (i + 1) := by
  rw [flipBit, List.set_eq_take_append_cons_drop, if_pos hi]

/-- A flipped bit changes the checksum over the whole (40_checksum.md R101 item 4). -/
theorem crc16_flipBit_ne {f : List Byte} {i k : Nat} (hi : i < f.length) (hk : k < 8) :
    crc16 (flipBit f i k) ≠ crc16 f := by
  have hne := crcSeparatesOneByteChanges (f.take i) (f.drop (i + 1)) _ _ (xor_bit_ne (at' f i) hk)
  rwa [take_append_at'_cons_drop hi, ← flipBit_eq_take_append_drop hi] at hne

/-- Settles O34: both frames valid would make both checksums over the whole 0. -/
theorem oneBitErrorsAreRejected : Obligations.OneBitErrorsAreRejected := by
  intro wildcard uid f i k hvalid hi hk hflipped
  exact crc16_flipBit_ne hi hk ((crc16_eq_zero_of_valid hflipped).trans (crc16_eq_zero_of_valid hvalid).symm)

end Sys2Proof.Machine
end

section
/-! PROOF. The value marshaller: the unit and address checks of ENCODE, the swap on the write path, and QSIZE
(44_marshaller.md R180, R181, R185, R188). -/

namespace Sys2Proof.Machine

open Sys2Proof.Claims

/-! ## Unit, then address (R180, R181) -/

theorem encodePreamble_of_gt {n : FcName} {s : State} (hn : (respClass n).isSome = true) (hunit : 255 < s.a0.toNat) :
    encodePreamble n s = raise (.validation .unitRange) := by
  simp only [encodePreamble, checkImplemented, hn, if_true, ok_bind, checkUnit, ensure_neg (Nat.not_le.2 hunit)]

/-- Every ENCODE of an implemented function code begins with the preamble and the check of A1. -/
theorem commandOf_of_mem_encodes {w : BitVec 3} {c : Cond} {wrap : Bool} {i : Instr} (hi : i ∈ encodes w c wrap)
    (s : State) :
    ∃ n, (respClass n).isSome = true ∧
      ∃ k, commandOf i s = encodePreamble n s >>= fun _ => checkAddr s.a1 >>= k := by
  simp only [encodes, List.mem_cons, List.not_mem_nil, or_false] at hi
  rcases hi with rfl | rfl | rfl | rfl | rfl | rfl | rfl | rfl
  · exact ⟨.rc, rfl, _, rfl⟩
  · exact ⟨.rdi, rfl, _, rfl⟩
  · exact ⟨.rhr, rfl, _, rfl⟩
  · exact ⟨.rir, rfl, _, rfl⟩
  · exact ⟨.wsc, rfl, _, rfl⟩
  · exact ⟨.wsr, rfl, _, rfl⟩
  · exact ⟨.wmr, rfl, _, rfl⟩
  · exact ⟨.rwmr, rfl, _, rfl⟩

/-- Settles O28: the preamble raises UNIT_RANGE; once it passes, the next check raises ADDR_RANGE. -/
theorem encodeChecksUnitThenAddress : Obligations.EncodeChecksUnitThenAddress := by
  intro s w c wrap i hi
  obtain ⟨n, hn, k, hcommand⟩ := commandOf_of_mem_encodes hi s
  refine ⟨fun hunit => raises_of_commandOf (d := .unitRange) ?unit,
    fun hunit haddr => raises_of_commandOf (d := .addrRange) ?addr⟩
  case unit =>
    rw [hcommand, encodePreamble_of_gt hn hunit, raise_bind]
  case addr =>
    rw [hcommand, encodePreamble_of_le hn hunit, ok_bind, checkAddr, ensure_neg (Nat.not_le.2 haddr), raise_bind]

/-! ## The swap on the write path (R188) -/

/-- Swapping elements of one byte changes nothing (41_byte_order.md R119). -/
theorem eswap_one (f : List Byte) (c : Bool) : eswap f 1 c = f := by
  have hreverse : reverseElements 1 f.length f = f := by
    induction f with
    | nil => rfl
    | cons b bs ih =>
      change b :: reverseElements 1 bs.length bs = b :: bs
      rw [ih]
  cases c with
  | false => rfl
  | true => rw [eswap, if_pos rfl, Nat.div_one, hreverse]

/-- What prep_write still checks of an input whose width, range and alignment have passed, and what it gives (R147). -/
theorem prepWrite_of_aligned {s : State} {f : List Byte} {w : BitVec 3} (hw : w.toNat ≤ 3) (hinput : InputIs s f)
    (halign : f.length % 2 ^ w.toNat = 0) (qmax : Fin 65536) (c : Cond) :
    prepWrite qmax w c s = (do
      ensure (decide (2 ≤ f.length) && f.length % 2 == 0) .writeLen
      checkQty (f.length / 2) qmax
      ensure (decide (2 * (f.length / 2) ≤ 255)) .byteCount
      return (f.length / 2, eswap f (2 ^ w.toNat) (holds c s))) := by
  have hlen : s.len.toNat = f.length := hinput.1
  simp only [prepWrite, hlen, checkWidth_of_le hw, checkLenRange_of_inputIs hinput, checkLenAlign_of_dvd halign,
    readIbuf_of_inputIs hinput, ok_bind, holds_eq_condTrue, elemWidth]

/-- On input already swapped, prep_write without a swap gives what prep_write with the swap gives on the input
before. -/
theorem prepWrite_of_swapped {s s1 : State} {f : List Byte} {w : BitVec 3} {c : Cond} (hw : w.toNat ≤ 3)
    (hinput : InputIs s f) (halign : f.length % 2 ^ w.toNat = 0)
    (hswapped : InputIs s1 (eswap f (2 ^ w.toNat) (holds c s))) (qmax : Fin 65536) :
    prepWrite qmax 0 .always s1 = prepWrite qmax w c s := by
  have hone : 2 ^ (0 : BitVec 3).toNat = 1 := rfl
  rw [prepWrite_of_aligned (by decide) hswapped (Nat.mod_one _), prepWrite_of_aligned hw hinput halign, hone, eswap_one,
    eswap_length halign]

/-- A command whose input is written raises no fault (10_state.md R35). -/
theorem commandOf_ne_fault_of_inputIs {s : State} {f : List Byte} (hinput : InputIs s f) (i : Instr) (x : Fault) :
    commandOf i s ≠ .error (.fault x) := by
  intro hfault
  obtain ⟨-, -, j, hj, hbyte⟩ := faultIsUninit_commandOf s i x hfault
  obtain ⟨hlen, -, hbytes⟩ := hinput
  rw [hlen] at hj
  rw [hbytes j hj, List.getElem?_eq_none_iff] at hbyte
  exact absurd hj (Nat.not_lt.2 hbyte)

/-- One pseudocode result, in two states that agree on OBUF, OLEN and RES, ends in the same outcome and output. -/
theorem exec_same_output {s s1 : State} {i j : Instr} {f : List Byte} (hcommand : commandOf i s1 = commandOf j s)
    (hinput : InputIs s f) (hobuf : s1.obuf = s.obuf) (holen : s1.olen = s.olen) (hres : s1.res = s.res) :
    ∃ t u, exec i s1 = .next t ∧ exec j s = .next u ∧
      t.kind = u.kind ∧ t.detail = u.detail ∧ t.obuf = u.obuf ∧ t.olen = u.olen ∧ t.res = u.res := by
  rw [exec_eq_finish, exec_eq_finish, hcommand]
  cases hresult : commandOf j s with
  | ok e =>
    refine ⟨_, _, rfl, rfl, rfl, rfl, ?_⟩
    simp only [State.completeOk_obuf, State.completeOk_olen, State.completeOk_res, State.putOut, hobuf, holen, hres,
      and_self]
  | error stop =>
    cases stop with
    | raised e =>
      refine ⟨_, _, rfl, rfl, rfl, rfl, hobuf, holen, ?_⟩
      simp only [State.raiseOutcome_res, hres]
    | fault x => exact absurd hresult (commandOf_ne_fault_of_inputIs hinput j x)

/-- Settles O31: prep_write gives both commands the same data, and the swap in place has left OBUF, OLEN and RES. -/
theorem swapThenEncodeIsEncodeWithSwap : Obligations.SwapThenEncodeIsEncodeWithSwap := by
  intro s s1 w c wrap h hkind p hp
  obtain ⟨hw, f, hinput, halign⟩ := inputIs_of_kind_zero h hkind
  rw [exec_swapbuf_inPlace hw hinput halign, Host.Outcome.next.injEq] at h
  have hprep := prepWrite_of_swapped (c := c) hw hinput halign (inputIs_putBack hinput (eswap_length halign _))
  rw [h] at hprep
  have hcommand : commandOf p.1 s1 = commandOf p.2 s := by
    subst h
    simp only [List.mem_cons, List.not_mem_nil, or_false] at hp
    rcases hp with rfl | rfl
    · simp only [commandOf, encodeWriteRegisters, hprep]
      rfl
    · simp only [commandOf, encodeReadWrite, hprep]
      rfl
  subst h
  exact exec_same_output hcommand hinput rfl rfl rfl

/-! ## QSIZE (R185) -/

section
variable {s : State} {w : BitVec 3} (hw : w.toNat ≤ 3)
include hw

theorem qsizeCommand_of_odd (hodd : s.a0.toNat * 2 ^ w.toNat % 2 = 1) :
    qsizeCommand w s = raise (.validation .sizeOdd) := by
  have hfails : (s.a0.toNat * 2 ^ w.toNat % 2 == 0) = false := by
    rw [hodd]
    rfl
  simp only [qsizeCommand, elemWidth, checkWidth_of_le hw, hfails, ensure_false, ok_bind, raise_bind]

theorem qsizeCommand_of_even (heven : s.a0.toNat * 2 ^ w.toNat % 2 = 0) :
    qsizeCommand w s = checkQty (s.a0.toNat * 2 ^ w.toNat / 2) 65535 >>= fun _ =>
      .ok { res := some (BitVec.ofNat 64 (s.a0.toNat * 2 ^ w.toNat / 2)) } := by
  have hpasses : (s.a0.toNat * 2 ^ w.toNat % 2 == 0) = true := beq_iff_eq.2 heven
  simp only [qsizeCommand, elemWidth, checkWidth_of_le hw, hpasses, ensure_true, ok_bind, pure_eq_ok]

end

/-- Settles O35: width, parity and quantity in that order; past them RES is half the exact size. -/
theorem qsizeWritesTheQuantity : Obligations.QsizeWritesTheQuantity := by
  intro s w
  refine ⟨fun hw => raises_of_commandOf (d := .width) ?width,
    fun hw hodd => raises_of_commandOf (i := .qsize w) (d := .sizeOdd) (qsizeCommand_of_odd hw hodd),
    fun hw heven hover => raises_of_commandOf (d := .qtyRange) ?qtyRange,
    fun hw heven hfits => resultIs_of_commandOf ?result⟩
  case width =>
    rw [commandOf, qsizeCommand, checkWidth_of_gt hw, raise_bind]
  case qtyRange =>
    have hrange : checkQty _ 65535 = raise _ := ensure_neg (Nat.not_le.2 hover) _
    rw [commandOf, qsizeCommand_of_even hw heven, hrange, raise_bind]
  case result =>
    have hrange : checkQty _ 65535 = .ok () := ensure_pos hfits _
    rw [commandOf, qsizeCommand_of_even hw heven, hrange, ok_bind]

end Sys2Proof.Machine
end

section
/-! PROOF. The exception translator and the command XLATE (45_response_parser.md R200 to R203). -/

namespace Sys2Proof.Machine

open Sys2Proof.Claims

/-! ## Illegal data value, and every other code -/

theorem illegalDataValue_mem_bytes (x : XcTable) : x.illegalDataValue ∈ x.bytes := by
  simp [XcTable.bytes]

theorem translate_illegalDataValue (t : FcTable) (x : XcTable) (fc : Byte) :
    translate t x fc x.illegalDataValue = illegalDataValueId t x fc := by
  rw [translate, if_pos (beq_self_eq_true _)]

/-- Only an illegal data value is refined by the function code; another known code is its own id (R200, R202). -/
theorem translate_of_ne {x : XcTable} {c : Byte} (h : c ≠ x.illegalDataValue) (t : FcTable) (fc : Byte) :
    translate t x fc c = if c ∈ x.bytes then c else 0xFF := by
  simp only [translate, beq_iff_eq, if_neg h, List.contains_iff_mem]

/-! ## The default tables -/

theorem illegalDataValueId_default_toNat (fc : Byte) :
    (illegalDataValueId FcTable.default XcTable.default fc).toNat = messageIdDefault fc.toNat 0x03 := by
  simp only [illegalDataValueId, messageIdDefault, FcTable.default, XcTable.default, beq_iff_eq, Bool.or_eq_true,
    BitVec.toNat_eq, apply_ite BitVec.toNat]
  rfl

theorem translate_default_toNat_of_ne {c : Byte} (h : c ≠ 0x03) (fc : Byte) :
    (translate FcTable.default XcTable.default fc c).toNat = messageIdDefault fc.toNat c.toNat := by
  have hnat : c.toNat ≠ 0x03 := fun hc => h (BitVec.eq_of_toNat_eq hc)
  have hmem : c ∈ XcTable.default.bytes ↔ c.toNat ∈ [0x01, 0x02, 0x04, 0x05, 0x06, 0x08, 0x0A, 0x0B] := by
    simp [XcTable.bytes, XcTable.default, BitVec.toNat_eq, hnat]
  rw [translate_of_ne h, messageIdDefault, if_neg hnat, apply_ite BitVec.toNat]
  simp only [hmem]
  rfl

/-! ## Legal tables -/

/-- No base message id of a legal table is the id of the unrecognised codes (log entry 17). -/
theorem ne_unrecognised_of_mem {x : XcTable} (hx : x.legal = true) {c : Byte} (hc : c ∈ x.bytes) : c ≠ 0xFF := by
  rintro rfl
  simp only [XcTable.legal, Bool.and_eq_true, List.all_eq_true] at hx
  exact absurd (hx.2 _ hc) (by decide)

theorem illegalDataValueId_ne_unrecognised {x : XcTable} (hx : x.legal = true) (t : FcTable) (fc : Byte) :
    illegalDataValueId t x fc ≠ 0xFF := by
  unfold illegalDataValueId
  split_ifs
  · decide
  · decide
  · decide
  · exact ne_unrecognised_of_mem hx (illegalDataValue_mem_bytes x)

/-- Settles O36: an illegal data value is refined by the function code, a known code keeps its own id, and under legal
tables neither id is that of the unrecognised codes. -/
theorem translateGivesTheMessageId : Obligations.TranslateGivesTheMessageId := by
  refine ⟨fun fc c => ?default, fun t x fc c hx => ?legal⟩
  case default =>
    by_cases h : c = 0x03
    · subst h
      exact illegalDataValueId_default_toNat fc
    · exact translate_default_toNat_of_ne h fc
  case legal =>
    by_cases h : c = x.illegalDataValue
    · subst h
      rw [translate_illegalDataValue]
      exact iff_of_false (illegalDataValueId_ne_unrecognised hx t fc) (not_not.2 (illegalDataValue_mem_bytes x))
    · rw [translate_of_ne h]
      by_cases hc : c ∈ x.bytes
      · rw [if_pos hc]
        exact iff_of_false (ne_unrecognised_of_mem hx hc) (not_not.2 hc)
      · rw [if_neg hc]
        exact iff_of_true rfl hc

/-- Settles O37: the range of A0 is the one check before the result. -/
theorem xlateWritesTheMessageId : Obligations.XlateWritesTheMessageId := by
  intro s fc
  refine ⟨fun hle => resultIs_of_commandOf ?result, fun hgt => raises_of_commandOf (d := .valueRange) ?raised⟩
  case result =>
    rw [commandOf, xlateCommand, checkValue, ensure_pos hle, ok_bind, pure_eq_ok]
  case raised =>
    rw [commandOf, xlateCommand, checkValue, ensure_neg (Nat.not_le.2 hgt), raise_bind]

end Sys2Proof.Machine
end

section
/-! PROOF. The response parser: PARSE's operand checks, its framing, and what it answers about a frame that passes
(45_response_parser.md R204 to R223). -/

namespace Sys2Proof.Machine

open Sys2Proof.Claims

/-! ## The operand checks, in order (R205) -/

/-- The checks of a reading PARSE on its quantity, width and data length (R204, R205). -/
theorem neededLength_eq_of_reads {cls : RespClass} {need : Nat} {s : State}
    (hdata : cls = .bits ∧ need = (s.a2.toNat + 7) / 8 ∨ cls = .regs ∧ need = 2 * s.a2.toNat) (w : BitVec 3) :
    neededLength cls w s = (do
      checkQty s.a2.toNat 65535
      checkWidth w
      checkLenAlign need w
      return some need) := by
  rcases hdata with ⟨rfl, rfl⟩ | ⟨rfl, rfl⟩
  · rfl
  · rfl

/-- Each PARSE, reading or writing, is the PARSE of a function code with a class. -/
theorem commandOf_of_mem_parses {w : BitVec 3} {c : Cond} {serial : Bool} {s : State} {i : Instr}
    (hi : i ∈ (parseReads w c serial s).map Prod.fst ++ (parseWrites serial s).map Prod.fst) :
    ∃ n cls w' c', respClass n = some cls ∧ commandOf i s = parseCommand n w' c' serial s := by
  rcases List.mem_append.1 hi with hread | hwrite
  · obtain ⟨r, hr, rfl⟩ := List.mem_map.1 hread
    obtain ⟨n, cls, hcommand, hcls, -⟩ := parseReads_row hr
    exact ⟨n, cls, w, c, hcls, hcommand⟩
  · obtain ⟨r, hr, rfl⟩ := List.mem_map.1 hwrite
    obtain ⟨n, hcommand, hcls, -⟩ := parseWrites_row hr
    exact ⟨n, .write, 0, .always, hcls, hcommand⟩

section
variable {n : FcName} {cls : RespClass} {s : State} (hcls : respClass n = some cls)
include hcls

theorem parseCommand_unitRange (hunit : 255 < s.a0.toNat) (w : BitVec 3) (c : Cond) (serial : Bool) :
    parseCommand n w c serial s = raise (.validation .unitRange) := by
  simp only [parseCommand, hcls, parseClass, checkUnit, ensure_neg (Nat.not_le.2 hunit), raise_bind]

variable (hunit : s.a0.toNat ≤ 255)
include hunit

theorem parseCommand_lenRange (hlen : s.params.ibufBytes < s.len.toNat) (w : BitVec 3) (c : Cond) (serial : Bool) :
    parseCommand n w c serial s = raise (.validation .lenRange) := by
  simp only [parseCommand, hcls, parseClass, checkUnit, ensure_pos hunit, checkLenRange_of_gt hlen, ok_bind, raise_bind]

theorem parseCommand_of_neededLength_raise (hlen : s.len.toNat ≤ s.params.ibufBytes) {w : BitVec 3} {e : Err}
    (hneed : neededLength cls w s = raise e) (c : Cond) (serial : Bool) :
    parseCommand n w c serial s = raise e := by
  simp only [parseCommand, hcls, parseClass, checkUnit, ensure_pos hunit, checkLenRange_of_le hlen, hneed, ok_bind,
    raise_bind]

/-- Once its operands pass and its input is written, PARSE checks the frame and then interprets it. -/
theorem parseCommand_of_inputIs {w : BitVec 3} {need : Option Nat} (hneed : neededLength cls w s = .ok need)
    {f : List Byte} (hinput : InputIs s f) (c : Cond) (serial : Bool) :
    parseCommand n w c serial s = checkFraming (framingReason serial cls f s) >>= fun _ =>
      interpret (s.params.fcode.byte n) need serial w c f s := by
  simp only [parseCommand, hcls, parseClass, checkUnit, ensure_pos hunit, checkLenRange_of_inputIs hinput, hneed,
    readIbuf_of_inputIs hinput, ok_bind]

end

/-- Settles O42: unit and LEN end every PARSE; a reading one then checks its quantity, its width and the alignment of
its data. -/
theorem parseChecksItsOperandsFirst : Obligations.ParseChecksItsOperandsFirst := by
  intro s w c serial
  constructor
  · intro i hi
    obtain ⟨n, cls, w', c', hcls, hcommand⟩ := commandOf_of_mem_parses hi
    exact ⟨fun hunit => raises_of_commandOf (d := .unitRange)
        (hcommand.trans (parseCommand_unitRange hcls hunit w' c' serial)),
      fun hunit hlen => raises_of_commandOf (d := .lenRange)
        (hcommand.trans (parseCommand_lenRange hcls hunit hlen w' c' serial))⟩
  · intro r hr hunit hlen
    obtain ⟨n, cls, hcommand, hcls, -, hdata⟩ := parseReads_row hr
    have hneed := neededLength_eq_of_reads hdata w
    have raisesOf {d : ValidationDetail} (h : neededLength cls w s = raise (.validation d)) : Raises r.1 s 1 d.code :=
      raises_of_commandOf (hcommand.trans (parseCommand_of_neededLength_raise hcls hunit hlen h c serial))
    refine ⟨fun hqty => raisesOf (d := .qtyRange) ?qtyRange, fun hqty hw => raisesOf (d := .width) ?width,
      fun hqty hw halign => raisesOf (d := .lenAlign) ?lenAlign⟩
    case qtyRange =>
      have hrange : checkQty s.a2.toNat 65535 = raise _ := ensure_neg (Nat.not_le.2 hqty) _
      rw [hneed, hrange, raise_bind]
    all_goals have hrange : checkQty s.a2.toNat 65535 = .ok () := ensure_pos hqty _
    case width =>
      rw [hneed, hrange, ok_bind, checkWidth_of_gt hw, raise_bind]
    case lenAlign =>
      rw [hneed, hrange, ok_bind, checkWidth_of_le hw, ok_bind, checkLenAlign_of_ne halign, raise_bind]

/-! ## Framing, by its number (R206, R207) -/

/-- The stream checks on the bytes at their offsets (R207). -/
theorem streamReason_of_three_le {f : List Byte} (h : 3 ≤ f.length) (cls : RespClass) :
    streamReason cls f =
      if cls ≠ .write ∧ (at' f 1).getLsbD 7 = false ∧ f.length < (at' f 2).toNat + 3 then some .byteCount else none := by
  match f, h with
  | f0 :: f1 :: f2 :: rest, _ =>
    simp only [streamReason, at', List.getD_cons_zero, List.getD_cons_succ, Bool.and_eq_true, bne_iff_ne,
      Bool.not_eq_true', decide_eq_true_eq, and_assoc]

theorem streamReason_of_short {f : List Byte} (h : f.length < 3) (cls : RespClass) :
    streamReason cls f = some .short := by
  match f, h with
  | [], _ => rfl
  | [_], _ => rfl
  | [_, _], _ => rfl

/-- The model's framing reason has the number of the checks on numbers. -/
theorem reasonCode_framingReason_toNat (serial : Bool) (cls : RespClass) (f : List Byte) (s : State) :
    (reasonCode (framingReason serial cls f s)).toNat = framingOf serial (cls == .write) s f := by
  cases serial with
  | true => exact reasonCode_frameReason_toNat _ _ f
  | false =>
    rw [framingReason, framingOf, if_neg Bool.false_ne_true, if_neg Bool.false_ne_true]
    by_cases hshort : f.length < 3
    · rw [streamReason_of_short hshort, if_pos hshort]
      rfl
    · rw [streamReason_of_three_le (Nat.not_lt.1 hshort), if_neg hshort]
      simp only [ne_eq, beq_eq_false_iff_ne, apply_ite reasonCode, apply_ite BitVec.toNat]
      rfl

/-- A frame that passes its framing has three bytes (R208). -/
theorem three_le_of_framingOf {serial isWrite : Bool} {s : State} {f : List Byte}
    (h : framingOf serial isWrite s f = 0) : 3 ≤ f.length := by
  unfold framingOf reasonOf at h
  split_ifs at h <;> omega

/-- A read response that passes its framing holds, before its trailer, the data bytes it declares (R210). -/
theorem declared_le_of_framingOf {serial : Bool} {s : State} {f : List Byte} (h : framingOf serial false s f = 0)
    (hbit : (at' f 1).getLsbD 7 = false) :
    (at' f 2).toNat ≤ f.length - 3 - (if serial then 2 else 0) := by
  cases serial with
  | true =>
    simp only [framingOf, reasonOf, if_true, hbit, true_and] at h ⊢
    split_ifs at h
    omega
  | false =>
    simp only [framingOf, Bool.false_eq_true, if_false, hbit, true_and] at h ⊢
    split_ifs at h
    omega

theorem checkFraming_of_reasonCode_zero {r : Option FramingDetail} (h : (reasonCode r).toNat = 0) :
    checkFraming r = .ok () := by
  rw [reasonCode_toNat_eq_zero_iff.1 h, checkFraming]

/-- A framing reason is raised as FramingError with its number as detail. -/
theorem checkFraming_of_reasonCode_ne {r : Option FramingDetail} (h : (reasonCode r).toNat ≠ 0) :
    ∃ d : FramingDetail, d.code = BitVec.ofNat 8 (reasonCode r).toNat ∧ checkFraming r = raise (.framing d) := by
  cases r with
  | none => exact absurd rfl h
  | some d =>
    refine ⟨d, ?_, rfl⟩
    rw [BitVec.ofNat_toNat, BitVec.setWidth_eq, reasonCode]

/-! ## What a raised outcome changes -/

theorem exec_of_raise {i : Instr} {s : State} {e : Err} (h : commandOf i s = raise e) :
    exec i s = .next (s.raiseOutcome e) := by
  rw [exec_eq_finish, h, finish_raise]

theorem raises_of_raise_framing {i : Instr} {s : State} {d : FramingDetail} (h : commandOf i s = raise (.framing d)) :
    Raises i s 2 d.code :=
  exec_of_raise h

theorem raises_of_raise_shape {i : Instr} {s : State} {d : ShapeDetail} (h : commandOf i s = raise (.shape d)) :
    Raises i s 4 d.code :=
  exec_of_raise h

/-! ## The frame's two outcomes: rejected by its framing, or interpreted -/

section
variable {i : Instr} {s : State} {serial : Bool} {cls : RespClass} {f : List Byte} {k : Except Stop Effect}
  (hcommand : commandOf i s = checkFraming (framingReason serial cls f s) >>= fun _ => k)
include hcommand

theorem raises_of_framingOf_ne (h : framingOf serial (cls == .write) s f ≠ 0) :
    Raises i s 2 (BitVec.ofNat 8 (framingOf serial (cls == .write) s f)) := by
  rw [← reasonCode_framingReason_toNat] at h ⊢
  obtain ⟨d, hd, hraise⟩ := checkFraming_of_reasonCode_ne h
  rw [hraise, raise_bind] at hcommand
  rw [← hd]
  exact raises_of_raise_framing hcommand

theorem commandOf_of_framingOf (h : framingOf serial (cls == .write) s f = 0) : commandOf i s = k := by
  rw [← reasonCode_framingReason_toNat] at h
  rw [hcommand, checkFraming_of_reasonCode_zero h, ok_bind]

end

section
variable {s : State} {w : BitVec 3} {c : Cond} {serial : Bool} {f : List Byte} {r : Instr × Byte × Nat}
  (hr : r ∈ parseReads w c serial s) (hok : ReadOperandsOk w r.2.2 s) (hinput : InputIs s f)
include hr hok hinput

/-- A reading PARSE whose operands pass checks the frame, by a class that is not the write class. -/
theorem commandOf_of_mem_parseReads :
    ∃ cls : RespClass, (cls == .write) = false ∧ commandOf r.1 s =
      checkFraming (framingReason serial cls f s) >>= fun _ => interpret r.2.1 (some r.2.2) serial w c f s := by
  obtain ⟨n, cls, hcommand, hcls, hbyte, hdata⟩ := parseReads_row hr
  obtain ⟨hunit, hqty, hw, halign⟩ := hok
  refine ⟨cls, ?_, ?_⟩
  · rcases hdata with ⟨rfl, -⟩ | ⟨rfl, -⟩
    · rfl
    · rfl
  · rw [hcommand, hbyte]
    exact parseCommand_of_inputIs hcls hunit (neededLength_of_reads hdata hqty hw halign) hinput c serial

theorem parseRead_raises_framing (h : framingOf serial false s f ≠ 0) :
    Raises r.1 s 2 (BitVec.ofNat 8 (framingOf serial false s f)) := by
  obtain ⟨cls, hcls, hcommand⟩ := commandOf_of_mem_parseReads hr hok hinput
  rw [← hcls] at h ⊢
  exact raises_of_framingOf_ne hcommand h

theorem parseRead_eq_interpret (h : framingOf serial false s f = 0) :
    commandOf r.1 s = interpret r.2.1 (some r.2.2) serial w c f s := by
  obtain ⟨cls, hcls, hcommand⟩ := commandOf_of_mem_parseReads hr hok hinput
  rw [← hcls] at h
  exact commandOf_of_framingOf hcommand h

end

section
variable {s : State} {serial : Bool} {f : List Byte} {r : Instr × Byte}
  (hr : r ∈ parseWrites serial s) (hunit : s.a0.toNat ≤ 255) (hinput : InputIs s f)
include hr hunit hinput

/-- A PARSE of the write class has no data length to check before the frame. -/
theorem commandOf_of_mem_parseWrites :
    commandOf r.1 s =
      checkFraming (framingReason serial .write f s) >>= fun _ => interpret r.2 none serial 0 .always f s := by
  obtain ⟨n, hcommand, hcls, hbyte⟩ := parseWrites_row hr
  rw [hcommand, hbyte]
  exact parseCommand_of_inputIs hcls hunit rfl hinput .always serial

theorem parseWrite_eq_interpret (h : framingOf serial true s f = 0) :
    commandOf r.1 s = interpret r.2 none serial 0 .always f s :=
  commandOf_of_framingOf (commandOf_of_mem_parseWrites hr hunit hinput) h

end

/-- Settles O41: the framing reason is raised with its number, for reads and for writes. -/
theorem parseRaisesFramingErrors : Obligations.ParseRaisesFramingErrors := by
  intro s w c serial f hinput
  exact ⟨fun r hr hok => parseRead_raises_framing hr hok hinput,
    fun r hr hunit => raises_of_framingOf_ne (commandOf_of_mem_parseWrites hr hunit hinput)⟩

/-! ## A frame that passed, by its function-code byte (R208 to R210) -/

/-- A frame of three bytes, by its offsets. -/
theorem eq_at'_cons_of_three_le {f : List Byte} (h : 3 ≤ f.length) : f = at' f 0 :: at' f 1 :: at' f 2 :: f.drop 3 := by
  match f, h with
  | _ :: _ :: _ :: _, _ => rfl

section
variable {f : List Byte} (hlen : 3 ≤ f.length) {fc : Byte} {need : Option Nat} {serial : Bool} {w : BitVec 3} {c : Cond}
  {s : State}
include hlen

theorem interpret_of_exception (h : at' f 1 = fc ||| 0x80) :
    interpret fc need serial w c f s =
      raise (.protocolException (at' f 2) (translate s.params.fcode s.params.xcode fc (at' f 2))) := by
  rw [eq_at'_cons_of_three_le hlen, interpret_cons]
  exact if_pos h

theorem interpret_of_unexpected (hfc : at' f 1 ≠ fc) (hexc : at' f 1 ≠ fc ||| 0x80) :
    interpret fc need serial w c f s = raise (.shape .unexpectedFc) := by
  rw [eq_at'_cons_of_three_le hlen, interpret_cons, if_neg hexc, if_pos hfc]

variable (hne : fc ≠ fc ||| 0x80) (hfc : at' f 1 = fc)
include hne hfc

theorem interpret_write : interpret fc none serial w c f s = .ok { out := some [] } := by
  rw [eq_at'_cons_of_three_le hlen, interpret_cons, hfc, if_neg hne, if_neg (not_not.2 rfl)]

theorem interpret_read (k : Nat) :
    interpret fc (some k) serial w c f s =
      extract (at' f 2) (f.drop 3) (f.length - 3 - (if serial then 2 else 0)) k w c s := by
  rw [eq_at'_cons_of_three_le hlen, interpret_cons, hfc, if_neg hne, if_neg (not_not.2 rfl)]
  rfl

end

theorem extract_of_short {bc : Byte} {need : Nat} (h : bc.toNat < need) (rest : List Byte) (avail : Nat) (w : BitVec 3)
    (c : Cond) (s : State) : extract bc rest avail need w c s = raise (.shape .shortPayload) := by
  simp [extract, h]

theorem extract_of_le {bc : Byte} {avail need : Nat} (hbc : need ≤ bc.toNat) (havail : need ≤ avail) (rest : List Byte)
    (w : BitVec 3) (c : Cond) (s : State) :
    extract bc rest avail need w c s = checkOut need s >>= fun _ =>
      .ok { out := some (eswap (rest.take need) (2 ^ w.toNat) (holds c s)) } := by
  have hlong : ¬ ((decide (bc.toNat < need) || decide (avail < need)) = true) := by
    simp [hbc, havail]
  rw [extract, if_neg hlong, holds_eq_condTrue]
  rfl

/-! ## The obligations on frames that passed -/

/-- Every function-code byte of legal parameters differs from its exception form (30_encoding.md R82). -/
theorem fcode_byte_bit7 {p : Params} (hp : p.legal = true) (n : FcName) :
    (p.fcode.byte n).getLsbD 7 = false ∧ p.fcode.byte n ≠ p.fcode.byte n ||| 0x80 := by
  obtain ⟨-, -, hfcode, -⟩ := params_legal_iff.1 hp
  exact fcByte_bit7 hfcode n

theorem parseRead_fcByte {s : State} (hp : s.params.legal = true) {w : BitVec 3} {c : Cond} {serial : Bool}
    {r : Instr × Byte × Nat} (hr : r ∈ parseReads w c serial s) :
    r.2.1.getLsbD 7 = false ∧ r.2.1 ≠ r.2.1 ||| 0x80 := by
  obtain ⟨n, -, -, -, hbyte, -⟩ := parseReads_row hr
  rw [hbyte]
  exact fcode_byte_bit7 hp n

theorem parseWrite_fcByte_ne {s : State} (hp : s.params.legal = true) {serial : Bool} {r : Instr × Byte}
    (hr : r ∈ parseWrites serial s) : r.2 ≠ r.2 ||| 0x80 := by
  obtain ⟨n, -, -, hbyte⟩ := parseWrites_row hr
  obtain ⟨-, hne⟩ := fcode_byte_bit7 hp n
  rwa [hbyte]

/-- Settles O39: either kind of PARSE looks for the exception form first, and ProtocolException writes RES. -/
theorem parseReportsTheException : Obligations.ParseReportsTheException := by
  intro s w c serial f hinput
  constructor
  · intro r hr hok hframing hexc
    exact exec_of_raise ((parseRead_eq_interpret hr hok hinput hframing).trans
      (interpret_of_exception (three_le_of_framingOf hframing) hexc))
  · intro r hr hunit hframing hexc
    exact exec_of_raise ((parseWrite_eq_interpret hr hunit hinput hframing).trans
      (interpret_of_exception (three_le_of_framingOf hframing) hexc))

/-- Settles O40: a byte that is neither form of the code is refused; the code itself goes on to the byte count. -/
theorem parseRaisesShapeErrors : Obligations.ParseRaisesShapeErrors := by
  intro s w c serial f hinput hp
  refine ⟨fun r hr hok hframing => ⟨fun hfc hexc => ?unexpectedRead, fun hfc hshort => ?short⟩,
    fun r hr hunit hframing hfc hexc => ?unexpectedWrite⟩
  all_goals have hthree := three_le_of_framingOf hframing
  case unexpectedRead =>
    exact raises_of_raise_shape (d := .unexpectedFc)
      ((parseRead_eq_interpret hr hok hinput hframing).trans (interpret_of_unexpected hthree hfc hexc))
  case short =>
    obtain ⟨-, hne⟩ := parseRead_fcByte hp hr
    refine raises_of_raise_shape (d := .shortPayload) ?_
    rw [parseRead_eq_interpret hr hok hinput hframing, interpret_read hthree hne hfc, extract_of_short hshort]
  case unexpectedWrite =>
    exact raises_of_raise_shape (d := .unexpectedFc)
      ((parseWrite_eq_interpret hr hunit hinput hframing).trans (interpret_of_unexpected hthree hfc hexc))

/-- A read response with its code and enough declared bytes has only the size of its output left to check (R210). -/
theorem parseRead_eq_output {s : State} {w : BitVec 3} {c : Cond} {serial : Bool} {f : List Byte}
    {r : Instr × Byte × Nat} (hp : s.params.legal = true) (hr : r ∈ parseReads w c serial s)
    (hok : ReadOperandsOk w r.2.2 s) (hinput : InputIs s f) (hframing : framingOf serial false s f = 0)
    (hfc : at' f 1 = r.2.1) (hbc : r.2.2 ≤ (at' f 2).toNat) :
    commandOf r.1 s = checkOut r.2.2 s >>= fun _ =>
      .ok { out := some (eswap ((f.drop 3).take r.2.2) (2 ^ w.toNat) (holds c s)) } := by
  obtain ⟨hbit, hne⟩ := parseRead_fcByte hp hr
  have havail := hbc.trans (declared_le_of_framingOf hframing (hfc ▸ hbit))
  rw [parseRead_eq_interpret hr hok hinput hframing, interpret_read (three_le_of_framingOf hframing) hne hfc,
    extract_of_le hbc havail]

/-- Settles O38: the data fits in OBUF or not; a write response outputs the empty sequence. -/
theorem parseReturnsTheData : Obligations.ParseReturnsTheData := by
  intro s w c serial f hp hinput
  refine ⟨fun r hr hok hframing hfc hbc => ?reads, fun r hr hunit hframing hfc => ?writes⟩
  case reads =>
    have hcommand := parseRead_eq_output hp hr hok hinput hframing hfc hbc
    refine ⟨fun hfits => outputIs_of_commandOf ?_, fun hover => raises_of_commandOf (d := .outOverflow) ?_⟩
    · rw [hcommand, checkOut, ensure_pos hfits, ok_bind]
    · rw [hcommand, checkOut, ensure_neg (Nat.not_le.2 hover), raise_bind]
  case writes =>
    rw [exec_eq_finish, parseWrite_eq_interpret hr hunit hinput hframing,
      interpret_write (three_le_of_framingOf hframing) (parseWrite_fcByte_ne hp hr) hfc, finish_ok]
    rfl

end Sys2Proof.Machine
end

section
/-! PROOF. Outcomes: a command whose input is written completes, an outcome other than OK changes STATUS only, and the
function codes that are not implemented (60_exceptions.md R240 to R248). -/

namespace Sys2Proof.Machine

open Sys2Proof.Claims

/-! ## The two ends of a completion -/

/-- A completed command ran to its end, or it raised an outcome (R240). -/
theorem exec_eq_next {i : Instr} {s t : State} (h : exec i s = .next t) :
    (∃ e, t = s.completeOk e) ∨ ∃ e, t = s.raiseOutcome e := by
  rw [exec_eq_finish] at h
  rcases finish_eq_next.1 h with ⟨e, -, ht⟩ | ⟨e, -, ht⟩
  · exact .inl ⟨e, ht⟩
  · exact .inr ⟨e, ht⟩

theorem exec_outcomeLegal {i : Instr} {s t : State} (h : exec i s = .next t) :
    t.busy = false ∧ outcomeLegal t.kind t.detail = true := by
  rcases exec_eq_next h with ⟨e, rfl⟩ | ⟨e, rfl⟩
  · exact ⟨rfl, rfl⟩
  · exact ⟨rfl, err_outcomeLegal e⟩

/-- Settles O43: no command is refused, and a fault needs an UNINIT byte below a LEN in range, so each command gives a
next state. -/
theorem everyCommandCompletes : Obligations.EveryCommandCompletes := by
  intro i s hready
  obtain ⟨hfault, hrefused, -⟩ := commandsFaultOnlyOnUninitBytes i s
  cases h : exec i s with
  | next t => exact ⟨t, rfl, exec_outcomeLegal h⟩
  | fault f =>
    obtain ⟨-, hlen, j, hj, huninit⟩ := hfault f h
    have hwritten : (bufRead s.ibuf j).isSome = true := hready hlen j hj (hj.trans_le hlen)
    rw [huninit] at hwritten
    cases hwritten
  | refused r => exact absurd h (hrefused r)

/-! ## What an outcome other than OK changes (R248) -/

/-- A completion, of a command or of a pending word that is none, has KIND 0 or raised an outcome. -/
theorem kind_zero_or_raiseOutcome {s t : State}
    (h : (∃ i, exec i s = .next t) ∨ (s.busy = true ∧ s.schedule = [] ∧ step s = .next t)) :
    t.kind = 0 ∨ ∃ e, t = s.raiseOutcome e := by
  have hends : (∃ e, t = s.completeOk e) ∨ ∃ e, t = s.raiseOutcome e := by
    rcases h with ⟨i, hexec⟩ | ⟨hbusy, hnil, hstep⟩
    · exact exec_eq_next hexec
    · rw [step_of_nil hnil, engineStep_of_busy hbusy] at hstep
      exact (completePending_eq_next hstep).imp_left fun ⟨e, _, ht⟩ => ⟨e, ht⟩
  exact hends.imp_left fun ⟨e, ht⟩ => ht ▸ State.completeOk_kind s e

/-- Settles O46: an error completion raised an outcome, and only ProtocolException has a value for RES. -/
theorem errorsChangeOnlyStatus : Obligations.ErrorsChangeOnlyStatus := by
  intro s t h
  rcases kind_zero_or_raiseOutcome h with hzero | ⟨e, rfl⟩
  · exact ⟨fun hne => absurd hzero hne, fun hthree => absurd (hzero.symm.trans hthree) (by decide)⟩
  · refine ⟨fun _ hne => ?_, fun hthree => ?_⟩
    · rw [State.raiseOutcome, Err.res_eq_none hne]
      rfl
    · rw [← hthree]
      rfl

/-! ## Function codes that are not implemented (R246) -/

section
variable {n : FcName} (hn : respClass n = none)
include hn

/-- The preamble looks at the function code before it looks at A0 (42_frame_codec.md R130). -/
theorem encodeUnimplemented_of_respClass (s : State) : encodeUnimplemented n s = raise .notImplemented := by
  have hcheck : checkImplemented n = raise .notImplemented := by simp [checkImplemented, hn]
  rw [encodeUnimplemented, encodePreamble, hcheck, raise_bind, raise_bind]

theorem parseCommand_of_respClass (w : BitVec 3) (c : Cond) (serial : Bool) (s : State) :
    parseCommand n w c serial s = raise .notImplemented := by
  rw [parseCommand, hn]

end

/-- Each of these commands is an ENCODE or a PARSE of a function code without a response class (30_encoding.md R82). -/
theorem commandOf_of_mem_unimplemented {b : Bool} {i : Instr} (hi : i ∈ unimplemented b) (s : State) :
    ∃ n, respClass n = none ∧
      (commandOf i s = encodeUnimplemented n s ∨ commandOf i s = parseCommand n 0 .always b s) := by
  simp only [unimplemented, List.mem_cons, List.not_mem_nil, or_false] at hi
  rcases hi with rfl | rfl | rfl | rfl | rfl | rfl | rfl | rfl | rfl | rfl
  · exact ⟨.wmc, rfl, .inl rfl⟩
  · exact ⟨.rfr, rfl, .inl rfl⟩
  · exact ⟨.wfr, rfl, .inl rfl⟩
  · exact ⟨.mwr, rfl, .inl rfl⟩
  · exact ⟨.rfq, rfl, .inl rfl⟩
  · exact ⟨.wmc, rfl, .inr rfl⟩
  · exact ⟨.rfr, rfl, .inr rfl⟩
  · exact ⟨.wfr, rfl, .inr rfl⟩
  · exact ⟨.mwr, rfl, .inr rfl⟩
  · exact ⟨.rfq, rfl, .inr rfl⟩

/-- Settles O29: both pseudocodes raise NotImplemented before they look at an operand. -/
theorem unimplementedCodesRaiseNotImplemented : Obligations.UnimplementedCodesRaiseNotImplemented := by
  intro s b i hi
  obtain ⟨n, hn, hencode | hparse⟩ := commandOf_of_mem_unimplemented hi s
  · exact exec_of_raise (hencode.trans (encodeUnimplemented_of_respClass hn s))
  · exact exec_of_raise (hparse.trans (parseCommand_of_respClass hn 0 .always b s))

end Sys2Proof.Machine
end

section
/-! PROOF. Reset and hazards: the reset event, what a command's ending is a function of, and a pending word whatever legal
accesses come before its completion (70_reset_and_hazards.md R270, R278, R281). -/

namespace Sys2Proof.Machine

open Sys2Proof.Claims

/-! ## Reset (R270) -/

/-- Settles O2: the step of a reset event is resetBlock, which looks at no field of the block. -/
theorem resetEventRestoresAndAbandons : Obligations.ResetEventRestoresAndAbandons := by
  intro s rest hsched
  exact step_of_cons hsched

/-! ## The same inputs, the same ending (R281) -/

/-- Two states with the same inputs give one pseudocode result. -/
theorem commandOf_eq_of_sameInputs {s s' : State} (h : SameInputs s s') (i : Instr) :
    commandOf i s = commandOf i s' := by
  obtain ⟨hparams, hhost, hswap, hlen, ha0, ha1, ha2, ha3, hbytes⟩ := h
  have hread : readIbuf s = readIbuf s' := by
    rw [readIbuf, readIbuf, ← hlen, bufReadList_congr hbytes]
  exact commandOf_congr hparams hhost hswap hlen ha0 ha1 ha2 ha3 hread i

/-- RES is the value listed in both states, or stays in both where there is none. -/
theorem putRes_eq_or_kept (s s' : State) (v : Option DWord) :
    (s'.putRes v).res = (s.putRes v).res ∨ ((s'.putRes v).res = s'.res ∧ (s.putRes v).res = s.res) := by
  cases v with
  | none => exact .inr ⟨rfl, rfl⟩
  | some v => exact .inl rfl

/-- OLEN and the OBUF bytes below it are the output's in both states, or stay in both where there is none. -/
theorem putOut_eq_or_kept (s s' : State) (out : Option (List Byte)) :
    ((s'.putOut out).olen = (s.putOut out).olen ∧
      ∀ j, j < (s.putOut out).olen.toNat → bufRead (s'.putOut out).obuf j = bufRead (s.putOut out).obuf j) ∨
    ((s'.putOut out).olen = s'.olen ∧ (s.putOut out).olen = s.olen ∧
      (s'.putOut out).obuf = s'.obuf ∧ (s.putOut out).obuf = s.obuf) := by
  cases out with
  | none => exact .inr ⟨rfl, rfl, rfl, rfl⟩
  | some f =>
    refine .inl ⟨rfl, fun j hj => ?_⟩
    have hlt : j < f.length := by
      rw [State.putOut_some_olen, BitVec.toNat_ofNat] at hj
      exact hj.trans_le (Nat.mod_le _ _)
    simp only [State.putOut_some_obuf, bufRead_bufWriteList_zero, if_pos hlt]

/-- Where IBUF agrees at an index it does so after the same bytes are put back. -/
theorem bufRead_putIn_congr {s s' : State} {j : Nat} (h : bufRead s.ibuf j = bufRead s'.ibuf j)
    (back : Option (List Byte)) : bufRead (s'.putIn back).ibuf j = bufRead (s.putIn back).ibuf j := by
  cases back with
  | none => exact h.symm
  | some f => simp only [State.putIn_some_ibuf, bufRead_bufWriteList_zero, h]

/-- Settles O49: the pseudocode gives one result in both states, and finish writes the same of it into each. -/
theorem outcomeDependsOnInputsOnly : Obligations.OutcomeDependsOnInputsOnly := by
  intro i s s' t hsame h
  have hcommand := commandOf_eq_of_sameInputs hsame i
  obtain ⟨-, -, -, -, -, -, -, -, hbytes⟩ := hsame
  rw [exec_eq_finish] at h
  rw [exec_eq_finish, ← hcommand]
  rcases finish_eq_next.1 h with ⟨e, he, rfl⟩ | ⟨e, he, rfl⟩
  · exact ⟨s'.completeOk e, by rw [he, finish_ok], rfl, rfl, putRes_eq_or_kept s s' e.res,
      putOut_eq_or_kept s s' e.out, fun j hj => bufRead_putIn_congr (hbytes j hj) e.inPlace⟩
  · exact ⟨s'.raiseOutcome e, by rw [he]; rfl, rfl, rfl, putRes_eq_or_kept s s' e.res,
      .inr ⟨rfl, rfl, rfl, rfl⟩, fun j hj => (hbytes j hj).symm⟩

/-! ## Legal accesses before a completion (R278) -/

/-- With nothing scheduled the step of a busy block is its completion (log entry 4). -/
theorem step_of_nil_of_busy {s : State} (hnil : s.schedule = []) (hbusy : s.busy = true) :
    step s = completePending s :=
  (step_of_nil hnil).trans (engineStep_of_busy hbusy)

theorem run_one (s : State) : run 1 s = step s := by
  cases h : step s <;> simp [run, h]

/-- A legal access at a busy block changes DROPPED and the model's own fields at most (20_memory.md R61, R63). -/
theorem step_legalEvent_of_busy {s : State} {e : Event} {rest : List Event} (hbusy : s.busy = true)
    (hp : s.params.legal = true) (hsched : s.schedule = e :: rest) (he : LegalEvent s e) :
    ∃ d k r, step s = .next { s with schedule := rest, dropped := d, draws := k, rdata := r } := by
  obtain ⟨off, n, hlegal, rfl | ⟨v, rfl⟩⟩ := he
  all_goals obtain ⟨hwindow, hok⟩ := (legalAccess_iff hp).1 hlegal
  · exact ⟨s.dropped, _, _, step_read hsched hwindow hok⟩
  · obtain ⟨d, hd⟩ := writeValue_busy (s := { s with schedule := rest }) hbusy off n v
    exact ⟨d, s.draws, s.rdata, by rw [step_write hsched hwindow hok, hd]⟩

/-- So do all the legal accesses of a schedule together: the pending word is still to complete. -/
theorem run_legalEvents_of_busy {l : List Event} {s : State} (hsched : s.schedule = l) (hbusy : s.busy = true)
    (hp : s.params.legal = true) (hlegal : ∀ e ∈ l, LegalEvent s e) :
    ∃ d k r, run l.length s = .next { s with schedule := [], dropped := d, draws := k, rdata := r } := by
  induction l generalizing s with
  | nil =>
    refine ⟨s.dropped, s.draws, s.rdata, ?_⟩
    rw [List.length_nil, run, ← hsched]
  | cons e rest ih =>
    obtain ⟨he, hrest⟩ := List.forall_mem_cons.1 hlegal
    obtain ⟨d, k, r, hstep⟩ := step_legalEvent_of_busy hbusy hp hsched he
    obtain ⟨d', k', r', hrun⟩ :=
      ih (s := { s with schedule := rest, dropped := d, draws := k, rdata := r }) rfl hbusy hp hrest
    refine ⟨d', k', r', ?_⟩
    rw [List.length_cons, Nat.add_comm, run_add ((run_one s).trans hstep), hrun]

theorem completePending_schedule {s t : State} (h : completePending s = .next t) : t.schedule = s.schedule := by
  rcases completePending_eq_next h with ⟨e, -, rfl⟩ | ⟨e, rfl⟩ <;> rfl

/-- A pending word, a command or not, completes where LEN is out of range or the input is written (60_exceptions.md
R240). -/
theorem completePending_completes {s : State} (hready : s.len.toNat ≤ s.params.ibufBytes → s.InputReady) :
    ∃ t, completePending s = .next t ∧ t.busy = false := by
  cases hdec : decode s.params.fcode s.pend with
  | error d => exact ⟨_, completePending_of_error hdec, rfl⟩
  | ok i =>
    obtain ⟨t, hexec, hidle, -⟩ := everyCommandCompletes i s hready
    exact ⟨t, (completePending_of_ok hdec).trans hexec, hidle⟩

/-- Settles O60: after its legal accesses the run stands at the completion of the same word, which reads none of the
fields they changed. -/
theorem pendingCommandCompletesAlike : Obligations.PendingCommandCompletesAlike := by
  intro s hbusy hp hlegal
  obtain ⟨d, k, r, hrun⟩ := run_legalEvents_of_busy rfl hbusy hp hlegal
  have hlast : run (s.schedule.length + 1) s =
      completePending { s with schedule := [], dropped := d, draws := k, rdata := r } := by
    rw [run_add hrun, run_one]
    exact step_of_nil_of_busy rfl hbusy
  have hnow : step { s with schedule := [] } = completePending { s with schedule := [] } :=
    step_of_nil_of_busy rfl hbusy
  rw [hlast, hnow]
  refine ⟨fun u hu => ?_, fun f hf => completePending_model_fields_fault hf [] d k r, fun hready => ?_⟩
  · have hnil : u.schedule = [] := completePending_schedule hu
    exact ⟨_, completePending_model_fields hu [] d k r, by rw [← hnil]⟩
  · exact completePending_completes hready

end Sys2Proof.Machine
end
